-- ==== Sys2Proof/Word.lean ====
section
/-! DEFINITION. The plain data types of the block: 32-bit registers, bytes, one-bit fields (spec/00_scope.md section 5). -/

namespace Sys2Proof

/-- A 32-bit register or command word (XLEN = 32, spec/00_scope.md section 4). -/
abbrev Word := BitVec 32

/-- One byte of bus memory. -/
abbrev Byte := BitVec 8

/-- A truth value as a one-bit field of a register. -/
def bit (b : Bool) : BitVec 1 := BitVec.ofBool b

end Sys2Proof
end

