-- ==== Sys2Proof/Config.lean ====
section
/-! DEFINITION. What the platform fixes, the moves of the agents around the block, and the values the spec leaves free
(spec/00_scope.md section 4, spec/10_state.md R20 and R21, spec/44_session_queue.md R178). -/

namespace Sys2Proof

/-- The direction of a session (spec/10_state.md R33): encode is 0, decode is 1. -/
inductive Dir where
  | encode
  | decode
deriving DecidableEq, Repr, Inhabited

/-- The width of a host's register access (spec/20_memory.md R54). -/
inductive Width where
  | byte
  | half
  | word
deriving DecidableEq, Repr, Inhabited

/-- The two OPEN parameters of spec/00_scope.md section 4. MEM_BYTES is held as the last bus address, so that
`0 < MEM_BYTES <= 2^32` holds by its type. -/
structure Platform where
  /-- MEM_BYTES - 1. -/
  topAddr : Word
  /-- REG_BASE, the bus address of register offset 0. -/
  regBase : Word
deriving DecidableEq, Repr, Inhabited

/-- MEM_BYTES: the number of addressable bytes of bus memory (spec/00_scope.md section 4). -/
def Platform.memBytes (p : Platform) : Nat := p.topAddr.toNat + 1

/-- The arguments of CodecConfigure (spec/44_session_queue.md R160). -/
structure ConfigRequest where
  dir     : Dir
  rate    : Word
  ch      : Word
  profile : BitVec 2
  sfi     : BitVec 4
  bitrate : Word
deriving DecidableEq, Repr, Inhabited

/-- One atomic move of one agent (spec/10_state.md R20), or the reset input (spec/70_reset_and_hazards.md R210). -/
inductive Event where
  /-- A host reads a register at a bus address; the flag says whether it takes the value as the result of the command
  it issued (spec/70_reset_and_hazards.md R220). -/
  | hostReadReg (addr : Word) (width : Width) (asResult : Bool)
  /-- A host writes a register at a bus address. -/
  | hostWriteReg (addr : Word) (width : Width) (data : Word)
  /-- A host reads bytes of bus memory. -/
  | hostReadMem (addr len : Word)
  /-- A host writes bytes of bus memory. -/
  | hostWriteMem (addr : Word) (bytes : List Byte)
  /-- A host takes the next message from the output port. -/
  | hostTake
  /-- The command unit steps. -/
  | cu
  /-- The feeder steps; the flag says whether the codec device accepts an input (R178 (c)). -/
  | feeder (accepts : Bool)
  /-- The drainer steps. -/
  | drainer
  /-- The release logic steps. -/
  | release
  /-- The codec device appends an output buffer (R178 (d)). -/
  | codecProduce (bytes : List Byte) (eos : Bool)
  /-- The codec device settles its answer to the next CodecConfigure (R178 (a)). -/
  | codecAnswer (ok : Bool)
  /-- The platform asserts reset. -/
  | reset
deriving DecidableEq, Repr, Inhabited

/-- MEM_BYTES - 1 of the platform the block is reset on: OPEN in the spec, so it has no value here (log 3). -/
opaque Config.topAddr : Word

/-- REG_BASE of the platform the block is reset on: OPEN in the spec, so it has no value here (log 3). -/
opaque Config.regBase : Word

/-- What bus memory holds at power-on, as address and byte pairs: any value in the spec (spec/70_reset_and_hazards.md
R210, I13 of spec/93_implementation_defined.md), so it has no value here (log 4). -/
opaque Config.powerOn : List (Nat × Byte)

/-- The free schedule: which agent moves, and how, where nothing has been fixed (spec/10_state.md R21, log 1). -/
opaque Config.freeEvent : Nat → Event

/-- The codec device's free answer to CodecConfigure (spec/44_session_queue.md R178 (a), log 5). -/
opaque Config.codecConfigures : Nat → ConfigRequest → Bool

/-- The platform the block is reset on. -/
def Config.platform : Platform := { topAddr := Config.topAddr, regBase := Config.regBase }

/-- QUEUE_DEPTH (spec/00_scope.md section 4). -/
def Config.queueDepth : Nat := 16

/-- MAX_TRACKS (spec/00_scope.md section 4). -/
def Config.maxTracks : Nat := 256

end Sys2Proof
end

