-- ==== Sys2Proof/Machine/State.lean ====
section
/-! DEFINITION. The state of the block as plain data (spec/10_state.md), its reset (spec/70_reset_and_hazards.md R210), and
the reasons a step can stop. -/

namespace Sys2Proof.Machine

/-- The error codes of spec/60_exceptions.md R186; no other value is ever produced. -/
inductive ErrCode where
  | ok
  | illegalCmd
  | badParam
  | shape
  | zeroLength
  | range
  | capacity
  | overlap
  | badState
  | queueFull
  | submitAfterStop
  | badSync
  | configFail
  | frameTooLong
deriving DecidableEq, Repr

/-- A message of the output port (spec/10_state.md R44). -/
inductive Message where
  | data (bytes : List Byte)
  | sessionEnd
  | error (code : ErrCode)
deriving DecidableEq, Repr

/-- A chunk descriptor of the job queue (spec/10_state.md R32). -/
structure Chunk where
  addr : Word
  len  : Word
deriving DecidableEq, Repr

/-- An input the codec device accepted (spec/10_state.md R34). -/
structure CodecInput where
  bytes : List Byte
  pts   : BitVec 64
  eos   : Bool
deriving DecidableEq, Repr

/-- An output buffer of the codec device (spec/10_state.md R34). -/
structure CodecOutput where
  bytes : List Byte
  eos   : Bool
deriving DecidableEq, Repr

/-- A call the block makes on the codec device (spec/44_session_queue.md R178 (a), (b); log 7). -/
inductive CodecCall where
  | configure (req : ConfigRequest)
  | start
  | release
deriving DecidableEq, Repr

/-- The session state machine (spec/10_state.md R33). -/
inductive SessState where
  | idle
  | prepared
  | running
  | draining
  | released
deriving DecidableEq, Repr

/-- The session record (spec/10_state.md R33). -/
structure Session where
  state       : SessState
  dir         : Dir
  rate        : Word
  ch          : Word
  profile     : BitVec 2
  sfi         : BitVec 4
  sfiFallback : Bool
  chcfg       : BitVec 3
  bitrate     : Word
  adtsId      : BitVec 1
  stopReq     : Bool
  inDone      : Bool
  outDone     : Bool
  bytesFed    : Nat
  pts         : BitVec 64
  fedCount    : Nat
  emitCount   : Nat
  released    : Bool
deriving DecidableEq, Repr

/-- The session record at reset (spec/70_reset_and_hazards.md R210). -/
def Session.reset : Session :=
  { state := .idle, dir := .encode, rate := 0, ch := 0, profile := 0, sfi := 0, sfiFallback := false, chcfg := 0,
    bitrate := 0, adtsId := 0, stopReq := false, inDone := false, outDone := false, bytesFed := 0, pts := 0,
    fedCount := 0, emitCount := 0, released := false }

/-- The registers a host writes and a command takes its snapshot of (spec/10_state.md R22, R24, R26, R31). SCFG_MODE has
four writable bits, CTRL one. -/
structure OperandRegs where
  adtsId      : BitVec 1
  srcAddr     : Word
  srcLen      : Word
  dstAddr     : Word
  dstCap      : Word
  param0      : Word
  param1      : Word
  scfgRate    : Word
  scfgCh      : Word
  scfgMode    : BitVec 4
  scfgBitrate : Word
  scfgPoll    : Word
deriving DecidableEq, Repr

/-- The operand registers at reset: CTRL is 1, every other 0 (spec/70_reset_and_hazards.md R210). -/
def OperandRegs.reset : OperandRegs :=
  { adtsId := 1, srcAddr := 0, srcLen := 0, dstAddr := 0, dstCap := 0, param0 := 0, param1 := 0, scfgRate := 0,
    scfgCh := 0, scfgMode := 0, scfgBitrate := 0, scfgPoll := 0 }

/-- The command latch's record: the word and the operand snapshot (spec/10_state.md R31). -/
structure Pending where
  word : Word
  op   : OperandRegs
deriving DecidableEq, Repr

/-- What the last read of a host returned (the model's own record, log 13). -/
inductive Reply where
  | nothing
  | word (w : Word)
  | bytes (b : List Byte)
  | message (m : Message)
  | noMessage
deriving DecidableEq, Repr

/-- Bus memory (spec/10_state.md R46, R47): what it held at power-on, and the bytes that differ from that now. -/
structure Memory where
  /-- The contents at power-on; no step changes them (log 4). An address without an entry held 0. -/
  powerOn : List Host.Cell
  /-- The bytes that differ from those, addresses strictly rising. -/
  cells   : List Host.Cell
deriving DecidableEq, Repr

/-- A chunk the feeder fed, with its number in its session, counted from 0 (spec/70_reset_and_hazards.md R223). -/
structure FedChunk where
  chunk : Chunk
  index : Nat
deriving DecidableEq, Repr

/-- Everything spec/10_state.md gives the machine, and the model's own fields at the end (INVENTORY.md, State). -/
structure State where
  /-- MEM_BYTES and REG_BASE; no step changes them. -/
  platform    : Platform
  /-- CTRL, the operand registers and the SCFG registers, as hosts wrote them last. -/
  regs        : OperandRegs
  /-- STATUS.OVR (R27). -/
  ovr         : Bool
  /-- ERRCODE.CODE (R29). -/
  errCode     : ErrCode
  /-- SERR.CODE (R29). -/
  serr        : ErrCode
  /-- RESULT0 (R23). -/
  result0     : Word
  /-- RESULT1 (R23). -/
  result1     : Word
  /-- The command latch cu.pending (R31). -/
  pending     : Option Pending
  /-- The job queue, oldest first (R32). -/
  queue       : List Chunk
  /-- The session record (R33). -/
  sess        : Session
  /-- codec.in (R34). -/
  codecIn     : List CodecInput
  /-- codec.out (R34). -/
  codecOut    : List CodecOutput
  /-- The output port (R44). -/
  outLog      : List Message
  /-- Bus memory (R46, R47). -/
  mem         : Memory
  /-- The model's own: calls made on the codec device, oldest first (log 7). -/
  codecCalls  : List CodecCall
  /-- The model's own: the answer the codec device has settled for its next configure, if it has (log 5). -/
  codecAnswer : Option Bool
  /-- The model's own: how many messages of the output port hosts have taken (log 13). -/
  taken       : Nat
  /-- The model's own: fed chunks whose passing no host has read from FED_COUNT yet (R223, log 10). -/
  fedUnseen   : List FedChunk
  /-- The model's own: what the last read of a host returned (log 13). -/
  reply       : Reply
  /-- The model's own: the events already fixed to come next, oldest first (R21, log 1). -/
  agenda      : List Event
  /-- The model's own: how many free values have been drawn (log 5). -/
  draws       : Nat
deriving DecidableEq, Repr

/-- The block right after reset on a platform: memory lists nothing beside its power-on contents, which are free, and
nothing is fixed to come. -/
def State.resetOn (p : Platform) : State :=
  { platform := p, regs := .reset, ovr := false, errCode := .ok, serr := .ok, result0 := 0, result1 := 0,
    pending := none, queue := [], sess := .reset, codecIn := [], codecOut := [], outLog := [],
    mem := { powerOn := Config.powerOn, cells := [] }, codecCalls := [], codecAnswer := none, taken := 0, fedUnseen := [],
    reply := .nothing, agenda := [], draws := 0 }

/-- The machine right after reset (spec/70_reset_and_hazards.md R210), on the platform whose parameters are open. -/
def State.reset : State := State.resetOn Config.platform

/-- The model-level faults of the host program (spec/60_exceptions.md R193): no command raises one. All are safe: the
model stops where the spec gives the host program no meaning (log 8). -/
inductive Fault where
  /-- Raised by a host register access that is not an aligned 32-bit access in the register window
  (spec/20_memory.md R54). Safe. -/
  | badRegisterAccess
  /-- Raised by a host memory access to an address that does not exist (spec/10_state.md R46, log 11). Safe. -/
  | outsideMemory
  /-- Raised by a host access to a region of the pending command (spec/70_reset_and_hazards.md R220, log 9). Safe. -/
  | touchesPending
  /-- Raised by a host that takes RESULT0, RESULT1 or ERRCODE as the pending command's result while BUSY
  (spec/70_reset_and_hazards.md R220, log 9). Safe. -/
  | resultWhileBusy
  /-- Raised by a host write to a queued chunk before FED_COUNT passed it (spec/70_reset_and_hazards.md R223, log 10). Safe. -/
  | touchesQueuedChunk
deriving DecidableEq, Repr

/-- Why a command has no meaning in the model. -/
inductive Refusal where
  /-- Raised by exec's arm of a command that has no meaning yet; no arm raises it now. Safe. -/
  | notModelled (mnemonic : String)
deriving DecidableEq, Repr

end Sys2Proof.Machine
end

