-- ==== Sys2Proof/Machine/Flags.lean ====
section
/-! DEFINITION. The values of codes and states in register fields, and the status words as views of the state
(spec/10_state.md R26 to R30, spec/60_exceptions.md R186). The block has no condition codes (R45). -/

namespace Sys2Proof.Machine

/-- The 8-bit value of a code (spec/60_exceptions.md R186). -/
def ErrCode.value : ErrCode → BitVec 8
  | .ok => 0x00
  | .illegalCmd => 0x01
  | .badParam => 0x02
  | .shape => 0x03
  | .zeroLength => 0x04
  | .range => 0x05
  | .capacity => 0x06
  | .overlap => 0x07
  | .badState => 0x08
  | .queueFull => 0x09
  | .submitAfterStop => 0x0A
  | .badSync => 0x0B
  | .configFail => 0x0C
  | .frameTooLong => 0x0D

/-- `enc(sess.state)` (spec/10_state.md R30). -/
def SessState.value : SessState → BitVec 3
  | .idle => 0
  | .prepared => 1
  | .running => 2
  | .draining => 3
  | .released => 4

/-- The DIR bit (spec/10_state.md R33). -/
def dirBit : Dir → BitVec 1
  | .encode => 0
  | .decode => 1

/-- STATUS.BUSY: a command is latched (spec/10_state.md R27, R31). -/
def State.busy (s : State) : Bool := s.pending.isSome

/-- STATUS.ERR (spec/10_state.md R27). -/
def State.err (s : State) : Bool := decide (s.errCode.value ≠ 0)

/-- STATUS: bit 0 BUSY, bit 1 ERR, bit 2 OVR (spec/10_state.md R27). -/
def State.statusWord (s : State) : Word := (bit s.ovr ++ bit s.err ++ bit s.busy).setWidth 32

/-- A register whose low byte is a code (ERRCODE, SERR). -/
def codeWord (c : ErrCode) : Word := c.value.setWidth 32

/-- SSTATUS (spec/10_state.md section 4, R30), from bit 17 down to bit 0, zeros above. -/
def Session.statusWord (x : Session) : Word :=
  (x.profile ++ (0 : BitVec 1) ++ x.chcfg ++ x.sfi ++ bit x.sfiFallback ++ dirBit x.dir ++ bit x.outDone ++
    bit x.inDone ++ bit x.stopReq ++ x.state.value).setWidth 32

end Sys2Proof.Machine
end

