-- ==== Sys2Proof/Machine/Operands.lean ====
section
/-! DEFINITION. Integer primitives, the sample codec, little-endian words and slices of byte sequences
(spec/00_scope.md R1, R3, R4). -/

namespace Sys2Proof.Machine

/-- `fdiv` (spec/00_scope.md R1): floor of the quotient. -/
def fdiv (a b : Int) : Int := a.fdiv b

/-- `fmod` (R1). -/
def fmod (a b : Int) : Int := a - b * fdiv a b

/-- `tdiv` (R1): the quotient truncated toward zero. -/
def tdiv (a b : Int) : Int := a.tdiv b

/-- `wrap16` (R1): the low 16 bits read as a signed sample. -/
def wrap16 (v : Int) : Int := (BitVec.ofInt 16 v).toInt

/-- `le16` (R3): one signed little-endian sample from two bytes at rising addresses. -/
def le16 (b0 b1 : Byte) : Int := (b1 ++ b0 : BitVec 16).toInt

/-- `le16bytes` (R3). -/
def le16bytes (v : Int) : List Byte :=
  [(BitVec.ofInt 16 v).extractLsb' 0 8, (BitVec.ofInt 16 v).extractLsb' 8 8]

/-- `samples16` (R3); a last odd byte is no sample (no command reaches it: lengths are checked even). -/
def samples16 : List Byte → List Int
  | b0 :: b1 :: rest => le16 b0 b1 :: samples16 rest
  | _ => []

/-- `bytes16` (R3). -/
def bytes16 (seq : List Int) : List Byte := seq.flatMap le16bytes

/-- `le32` (R4). -/
def le32 (b0 b1 b2 b3 : Byte) : Word := b3 ++ b2 ++ b1 ++ b0

/-- Bytes `a .. a+n-1` of a sequence. -/
def slice (bytes : List Byte) (a n : Nat) : List Byte := (bytes.drop a).take n

/-- Bytes per sample (spec/41_channel.md R100): 1 where BD is 0, 2 where it is 1. -/
def bytesPerSample (bd : BitVec 1) : Nat := if bd = 0 then 1 else 2

end Sys2Proof.Machine
end

