-- ==== Sys2Proof/Machine/Ops.lean ====
section
/-! DEFINITION. The named operations over memory, regions and registers, and the completion of a command. A synchronous
error is the block's only exception mechanism (spec/60_exceptions.md R188, R191): taking one is `State.fail`, and the block
has no return from one (R192). -/

namespace Sys2Proof.Machine

/-! ### Memory -/

/-- The byte listed at an address, or else a byte given for an address without an entry. -/
def cellAt : List Host.Cell → Byte → Nat → Byte
  | [], b, _ => b
  | (k, v) :: l, b, a => if k = a then v else cellAt l b a

/-- The entries without the one at an address. -/
def dropCell (l : List Host.Cell) (a : Nat) : List Host.Cell := l.filter fun c => c.1 != a

/-- List a byte at an address that has no entry, in address order. -/
def placeCell : List Host.Cell → Nat → Byte → List Host.Cell
  | [], a, b => [(a, b)]
  | (k, v) :: l, a, b => if a < k then (a, b) :: (k, v) :: l else (k, v) :: placeCell l a b

/-- What an address reads as that lists no byte: its contents at power-on (spec/10_state.md R47, log 4). -/
def Memory.unlisted (m : Memory) (a : Nat) : Byte := cellAt m.powerOn 0 a

/-- The canonical form: addresses strictly rising, and no entry holds what its address reads as without it. -/
abbrev Memory.WF (m : Memory) : Prop :=
  m.cells.Pairwise (fun c d => c.1 < d.1) ∧ ∀ c ∈ m.cells, c.2 ≠ m.unlisted c.1

/-- One byte of bus memory. -/
def Memory.read (m : Memory) (a : Nat) : Byte := cellAt m.cells (m.unlisted a) a

/-- Write one byte, keeping the canonical form: a byte equal to what the unlisted address reads as is not listed. -/
def Memory.write (m : Memory) (a : Nat) (b : Byte) : Memory :=
  { m with
    cells := if b = m.unlisted a then dropCell m.cells a else placeCell (dropCell m.cells a) a b }

/-- `MemRead(addr, n)` (spec/00_scope.md R2): the bytes at `addr .. addr+n-1`, in rising address order. -/
def Memory.readBytes (m : Memory) (a : Nat) : Nat → List Byte
  | 0 => []
  | n + 1 => m.read a :: Memory.readBytes m (a + 1) n

/-- `MemWrite(addr, len bytes, bytes)` (spec/00_scope.md R2). -/
def Memory.writeBytes (m : Memory) (a : Nat) : List Byte → Memory
  | [] => m
  | b :: bs => Memory.writeBytes (m.write a b) (a + 1) bs

/-! ### Regions -/

/-- A region `[addr, addr + len)` of bus memory (spec/20_memory.md R51). -/
structure Region where
  addr : Nat
  len  : Nat
deriving DecidableEq, Repr

/-- The region is valid (spec/20_memory.md R51): its end, computed without wrap, is at most MEM_BYTES. -/
def Region.valid (r : Region) (p : Platform) : Bool := decide (r.addr + r.len ≤ p.memBytes)

/-- Two regions overlap (spec/20_memory.md R52). -/
def Region.overlaps (r q : Region) : Bool :=
  decide (r.len > 0 ∧ q.len > 0 ∧ r.addr < q.addr + q.len ∧ q.addr < r.addr + r.len)

/-- The address lies in the region. -/
def Region.holds (r : Region) (a : Nat) : Bool := decide (r.addr ≤ a ∧ a < r.addr + r.len)

/-- The region a chunk descriptor names. -/
def Chunk.region (c : Chunk) : Region := ⟨c.addr.toNat, c.len.toNat⟩

/-- The source region of the operands (spec/30_encoding.md R79). -/
def OperandRegs.source (o : OperandRegs) : Region := ⟨o.srcAddr.toNat, o.srcLen.toNat⟩

/-! ### Completion of a command -/

/-- What a data command is about to write once its parameter, source and shape checks have passed: the regions it reads,
its output byte count `ob`, the bytes and the two results. -/
structure Draft where
  reads : List Region
  ob    : Nat
  bytes : List Byte
  r0    : Word
  r1    : Word
deriving DecidableEq, Repr

/-- What a successful data command delivers: the destination region, its bytes and the two results. -/
structure Output where
  region : Region
  bytes  : List Byte
  r0     : Word
  r1     : Word
deriving DecidableEq, Repr

/-- The operands a command reads (spec/10_state.md R31): the latched snapshot. With nothing latched no command runs; the
live registers then stand for the snapshot a CMD write would take (log 12). -/
def State.op (s : State) : OperandRegs :=
  match s.pending with
  | some p => p.op
  | none => s.regs

/-- The end of a command's step (spec/30_encoding.md R72): the results and the code are written and BUSY falls. -/
def State.complete (s : State) (code : ErrCode) (r0 r1 : Word) : State :=
  { s with errCode := code, result0 := r0, result1 := r1, pending := none }

/-- A command raises an error (spec/60_exceptions.md R188): the code is reported and both results become 0. -/
def State.fail (s : State) (code : ErrCode) : State := s.complete code 0 0

/-- Complete a data command (spec/20_memory.md R55): all its bytes are written in this one step, or none. -/
def State.deliver (s : State) : Except ErrCode Output → Host.Outcome State Fault Refusal
  | .error code => .next (s.fail code)
  | .ok out => .next ({ s with mem := s.mem.writeBytes out.region.addr out.bytes }.complete .ok out.r0 out.r1)

/-- Complete a command that only answers in the result registers. -/
def State.answer (s : State) : Except ErrCode (Word × Word) → Host.Outcome State Fault Refusal
  | .error code => .next (s.fail code)
  | .ok r => .next (s.complete .ok r.1 r.2)

/-- The destination checks in their order, CAPACITY, RANGE, OVERLAP (spec/41_channel.md R100, spec/60_exceptions.md R187),
then the output of `ob` bytes at DST_ADDR. -/
def store (p : Platform) (o : OperandRegs) (reads : List Region) (ob : Nat) (bytes : List Byte) (r0 r1 : Word) :
    Except ErrCode Output :=
  let dst : Region := ⟨o.dstAddr.toNat, ob⟩
  if ob > o.dstCap.toNat then .error .capacity
  else if !dst.valid p then .error .range
  else if reads.any dst.overlaps then .error .overlap
  else .ok ⟨dst, bytes, r0, r1⟩

/-- The end of every data command: an error raised before its destination checks, or those checks and the output. -/
def finish (p : Platform) (o : OperandRegs) : Except ErrCode Draft → Except ErrCode Output
  | .error code => .error code
  | .ok d => store p o d.reads d.ob d.bytes d.r0 d.r1

/-- `emit(msg)` (spec/00_scope.md R5): append one message to the output port. -/
def State.emit (s : State) (msg : Message) : State := { s with outLog := s.outLog ++ [msg] }

/-! ### Registers -/

/-- The registers of the map in spec/10_state.md section 4. -/
inductive Reg where
  | ctrl | status | errcode | cmd
  | srcAddr | srcLen | dstAddr | dstCap | param0 | param1 | result0 | result1
  | scfgRate | scfgCh | scfgMode | scfgBitrate | scfgPoll
  | sstatus | serr | qcount | fedCount | ptsLo | ptsHi | emitCount
deriving DecidableEq, Repr

/-- The byte offset of a register (spec/10_state.md section 4). -/
def Reg.offset : Reg → Nat
  | .ctrl => 0x00
  | .status => 0x04
  | .errcode => 0x08
  | .cmd => 0x0C
  | .srcAddr => 0x10
  | .srcLen => 0x14
  | .dstAddr => 0x18
  | .dstCap => 0x1C
  | .param0 => 0x20
  | .param1 => 0x24
  | .result0 => 0x28
  | .result1 => 0x2C
  | .scfgRate => 0x40
  | .scfgCh => 0x44
  | .scfgMode => 0x48
  | .scfgBitrate => 0x4C
  | .scfgPoll => 0x50
  | .sstatus => 0x54
  | .serr => 0x58
  | .qcount => 0x5C
  | .fedCount => 0x60
  | .ptsLo => 0x64
  | .ptsHi => 0x68
  | .emitCount => 0x6C

/-- Every register, in offset order. -/
def Reg.all : List Reg :=
  [.ctrl, .status, .errcode, .cmd, .srcAddr, .srcLen, .dstAddr, .dstCap, .param0, .param1, .result0, .result1,
   .scfgRate, .scfgCh, .scfgMode, .scfgBitrate, .scfgPoll, .sstatus, .serr, .qcount, .fedCount, .ptsLo, .ptsHi,
   .emitCount]

/-- The register at an offset; none at a reserved offset (spec/10_state.md R28). -/
def Reg.atOffset (off : Nat) : Option Reg := Reg.all.find? fun r => r.offset == off

/-- The offset of a register access, where the access has a meaning (spec/20_memory.md R54): 32 bits wide, at a multiple
of 4 below 0x100 from REG_BASE. Distances are taken modulo 2^32 (log 14). -/
def windowOffset (p : Platform) (addr : Word) (width : Width) : Option Nat :=
  let off := (addr - p.regBase).toNat
  if width = .word ∧ off % 4 = 0 ∧ off < 0x100 then some off else none

/-- What a read of a register returns (spec/10_state.md section 4, R26 to R30). -/
def State.readReg (s : State) : Reg → Word
  | .ctrl => s.regs.adtsId.setWidth 32
  | .status => s.statusWord
  | .errcode => codeWord s.errCode
  | .cmd => 0
  | .srcAddr => s.regs.srcAddr
  | .srcLen => s.regs.srcLen
  | .dstAddr => s.regs.dstAddr
  | .dstCap => s.regs.dstCap
  | .param0 => s.regs.param0
  | .param1 => s.regs.param1
  | .result0 => s.result0
  | .result1 => s.result1
  | .scfgRate => s.regs.scfgRate
  | .scfgCh => s.regs.scfgCh
  | .scfgMode => s.regs.scfgMode.setWidth 32
  | .scfgBitrate => s.regs.scfgBitrate
  | .scfgPoll => s.regs.scfgPoll
  | .sstatus => s.sess.statusWord
  | .serr => codeWord s.serr
  | .qcount => BitVec.ofNat 32 s.queue.length
  | .fedCount => BitVec.ofNat 32 s.sess.fedCount
  | .ptsLo => s.sess.pts.extractLsb' 0 32
  | .ptsHi => s.sess.pts.extractLsb' 32 32
  | .emitCount => BitVec.ofNat 32 s.sess.emitCount

/-- A word at an offset of the window: a reserved offset reads 0 (spec/10_state.md R28). -/
def State.readOffset (s : State) (off : Nat) : Word :=
  match Reg.atOffset off with
  | some r => s.readReg r
  | none => 0

/-- A host write to CMD (spec/30_encoding.md R72, R73): latched with a snapshot, or dropped with OVR set while BUSY. -/
def State.writeCmd (s : State) (w : Word) : State :=
  match s.pending with
  | none => { s with pending := some { word := w, op := s.regs } }
  | some _ => { s with ovr := true }

/-- What a host write of a register does (spec/10_state.md R22 to R28). -/
def State.writeReg (s : State) (r : Reg) (w : Word) : State :=
  match r with
  | .ctrl => { s with regs := { s.regs with adtsId := w.extractLsb' 0 1 } }
  | .status => if w.getLsbD 2 then { s with ovr := false } else s
  | .cmd => s.writeCmd w
  | .srcAddr => { s with regs := { s.regs with srcAddr := w } }
  | .srcLen => { s with regs := { s.regs with srcLen := w } }
  | .dstAddr => { s with regs := { s.regs with dstAddr := w } }
  | .dstCap => { s with regs := { s.regs with dstCap := w } }
  | .param0 => { s with regs := { s.regs with param0 := w } }
  | .param1 => { s with regs := { s.regs with param1 := w } }
  | .scfgRate => { s with regs := { s.regs with scfgRate := w } }
  | .scfgCh => { s with regs := { s.regs with scfgCh := w } }
  | .scfgMode => { s with regs := { s.regs with scfgMode := w.extractLsb' 0 4 } }
  | .scfgBitrate => { s with regs := { s.regs with scfgBitrate := w } }
  | .scfgPoll => { s with regs := { s.regs with scfgPoll := w } }
  | .errcode | .result0 | .result1 | .sstatus | .serr | .qcount | .fedCount | .ptsLo | .ptsHi | .emitCount => s

/-- A write at an offset of the window: a reserved offset ignores it (spec/10_state.md R28). -/
def State.writeOffset (s : State) (off : Nat) (w : Word) : State :=
  match Reg.atOffset off with
  | some r => s.writeReg r w
  | none => s

end Sys2Proof.Machine
end

