-- ==== Sys2Proof/Machine/Channel.lean ====
section
/-! DEFINITION. The channel multiplexer (spec/41_channel.md). All four commands move bytes only. -/

namespace Sys2Proof.Machine

/-- Bytes `off .. off+n-1` of each of the `k` frames of `fs` bytes (spec/41_channel.md R101 to R103). -/
def pickFrames (bytes : List Byte) (fs off n k : Nat) : List Byte :=
  (List.range k).flatMap fun f => slice bytes (f * fs + off) n

/-- Each of the `k` samples of `bps` bytes twice (spec/41_channel.md R104). -/
def doubleSamples (bytes : List Byte) (bps k : Nat) : List Byte :=
  (List.range k).flatMap fun i => slice bytes (i * bps) bps ++ slice bytes (i * bps) bps

/-- The end of a channel command (spec/41_channel.md R100): `ob` bytes to write, results `(OK, ob, 0)`. -/
def channelDraft (o : OperandRegs) (ob : Nat) (out : List Byte) : Except ErrCode Draft :=
  .ok ⟨[o.source], ob, out, BitVec.ofNat 32 ob, 0⟩

/-- The identity path: the source bytes as they are. -/
def channelCopy (m : Memory) (o : OperandRegs) : Except ErrCode Draft :=
  channelDraft o o.source.len (m.readBytes o.source.addr o.source.len)

/-- Whole frames only, then bytes `off .. off+n-1` of each (spec/41_channel.md R101 to R103). -/
def channelPick (m : Memory) (o : OperandRegs) (fs off n : Nat) : Except ErrCode Draft :=
  let nb := o.source.len
  if nb % fs ≠ 0 then .error .shape
  else channelDraft o (nb / fs * n) (pickFrames (m.readBytes o.source.addr nb) fs off n (nb / fs))

/-- EXTL and EXTR differ in the byte offset in the frame (spec/41_channel.md R101, R102). -/
def extractDraft (bps off : Nat) (p : Platform) (m : Memory) (o : OperandRegs) : Except ErrCode Draft :=
  let ch := o.param0.toNat
  if ch = 0 then .error .badParam
  else if !o.source.valid p then .error .range
  else if ch = 1 then channelCopy m o
  else channelPick m o (ch * bps) off bps

/-- The pseudocode of spec/41_channel.md R101 up to the destination checks. -/
def extlDraft (bd : BitVec 1) : Platform → Memory → OperandRegs → Except ErrCode Draft :=
  extractDraft (bytesPerSample bd) 0

/-- The pseudocode of spec/41_channel.md R102 up to the destination checks: always channel index 1. -/
def extrDraft (bd : BitVec 1) : Platform → Memory → OperandRegs → Except ErrCode Draft :=
  extractDraft (bytesPerSample bd) (bytesPerSample bd)

/-- The pseudocode of spec/41_channel.md R103 up to the destination checks. -/
def red2Draft (bd : BitVec 1) (p : Platform) (m : Memory) (o : OperandRegs) : Except ErrCode Draft :=
  let ch := o.param0.toNat
  if !o.source.valid p then .error .range
  else if ch ≤ 2 then channelCopy m o
  else channelPick m o (ch * bytesPerSample bd) 0 (2 * bytesPerSample bd)

/-- The pseudocode of spec/41_channel.md R104 up to the destination checks. -/
def m2sDraft (bd : BitVec 1) (p : Platform) (m : Memory) (o : OperandRegs) : Except ErrCode Draft :=
  let bps := bytesPerSample bd
  let nb := o.source.len
  if !o.source.valid p then .error .range
  else if nb % bps ≠ 0 then .error .shape
  else channelDraft o (2 * nb) (doubleSamples (m.readBytes o.source.addr nb) bps (nb / bps))

/-- EXTL with its destination checks (spec/41_channel.md R100, R101). -/
def extlPlan (bd : BitVec 1) (p : Platform) (m : Memory) (o : OperandRegs) : Except ErrCode Output :=
  finish p o (extlDraft bd p m o)

/-- EXTR with its destination checks (spec/41_channel.md R100, R102). -/
def extrPlan (bd : BitVec 1) (p : Platform) (m : Memory) (o : OperandRegs) : Except ErrCode Output :=
  finish p o (extrDraft bd p m o)

/-- RED2 with its destination checks (spec/41_channel.md R100, R103). -/
def red2Plan (bd : BitVec 1) (p : Platform) (m : Memory) (o : OperandRegs) : Except ErrCode Output :=
  finish p o (red2Draft bd p m o)

/-- M2S with its destination checks (spec/41_channel.md R100, R104). -/
def m2sPlan (bd : BitVec 1) (p : Platform) (m : Memory) (o : OperandRegs) : Except ErrCode Output :=
  finish p o (m2sDraft bd p m o)

/-- EXTL (spec/41_channel.md R101). -/
def execExtl (bd : BitVec 1) (s : State) : Host.Outcome State Fault Refusal :=
  s.deliver (extlPlan bd s.platform s.mem s.op)

/-- EXTR (spec/41_channel.md R102). -/
def execExtr (bd : BitVec 1) (s : State) : Host.Outcome State Fault Refusal :=
  s.deliver (extrPlan bd s.platform s.mem s.op)

/-- RED2 (spec/41_channel.md R103). -/
def execRed2 (bd : BitVec 1) (s : State) : Host.Outcome State Fault Refusal :=
  s.deliver (red2Plan bd s.platform s.mem s.op)

/-- M2S (spec/41_channel.md R104). -/
def execM2s (bd : BitVec 1) (s : State) : Host.Outcome State Fault Refusal :=
  s.deliver (m2sPlan bd s.platform s.mem s.op)

end Sys2Proof.Machine
end

