-- ==== Sys2Proof/Machine/Mixer.lean ====
section
/-! DEFINITION. The mixer (spec/42_mixer.md). -/

namespace Sys2Proof.Machine

/-- One entry of the track table (spec/42_mixer.md R121): the track's region and its Q16.16 weight. -/
structure TrackEntry where
  region : Region
  weight : Int
deriving DecidableEq, Repr

/-- A little-endian 32-bit word of memory (spec/00_scope.md R4). -/
def Memory.readWord (m : Memory) (a : Nat) : Word :=
  le32 (m.read a) (m.read (a + 1)) (m.read (a + 2)) (m.read (a + 3))

/-- Entry `r` of the table at `tbl` (spec/42_mixer.md R121). -/
def trackEntry (m : Memory) (tbl r : Nat) : TrackEntry :=
  { region := ⟨(m.readWord (tbl + 12 * r)).toNat, (m.readWord (tbl + 12 * r + 4)).toNat⟩,
    weight := (m.readWord (tbl + 12 * r + 8)).toInt }

/-- The `row` entries of the table, in order. -/
def trackTable (m : Memory) (tbl row : Nat) : List TrackEntry := (List.range row).map (trackEntry m tbl)

/-- The table's own region (spec/42_mixer.md R120). -/
def tableRegion (o : OperandRegs) : Region := ⟨o.srcAddr.toNat, 12 * o.param0.toNat⟩

/-- The samples of a track (spec/42_mixer.md R122). -/
def trackSamples (m : Memory) (e : TrackEntry) : List Int := samples16 (m.readBytes e.region.addr e.region.len)

/-- A mixing strategy: one output sample from the tracks' samples at one index and the tracks' weights, in table order. -/
abbrev Strategy := List Int → List Int → Int

/-- The output samples: the strategy at every sample index (spec/42_mixer.md R123 to R126). -/
def mixed (f : Strategy) (tracks : List (List Int)) (weights : List Int) (column : Nat) : List Int :=
  (List.range column).map fun i => f (tracks.map fun t => t.getD i 0) weights

/-- MixPrologue up to the destination checks (spec/42_mixer.md R120). -/
def mixDraft (f : Strategy) (p : Platform) (m : Memory) (o : OperandRegs) : Except ErrCode Draft :=
  let row := o.param0.toNat
  let tbl := tableRegion o
  if row = 0 ∨ row > Config.maxTracks then .error .badParam
  else if !tbl.valid p then .error .range
  else
    let es := trackTable m tbl.addr row
    let n0 := (trackEntry m tbl.addr 0).region.len
    if es.any (fun e => !e.region.valid p) then .error .range
    else if es.any (fun e => e.region.len != n0) then .error .shape
    else if n0 % 2 ≠ 0 then .error .shape
    else
      .ok ⟨tbl :: es.map (·.region), n0,
        bytes16 (mixed f (es.map (trackSamples m)) (es.map (·.weight)) (n0 / 2)),
        BitVec.ofNat 32 n0, BitVec.ofNat 32 (n0 / 2)⟩

/-- A mixer command with its destination checks (spec/42_mixer.md R120). -/
def mixPlan (f : Strategy) (p : Platform) (m : Memory) (o : OperandRegs) : Except ErrCode Output :=
  finish p o (mixDraft f p m o)

/-- The greatest sample of a non-empty list. -/
def greatest : List Int → Int
  | [] => 0
  | x :: xs => xs.foldl max x

/-- The least sample of a non-empty list. -/
def least : List Int → Int
  | [] => 0
  | x :: xs => xs.foldl min x

/-- Extreme (spec/42_mixer.md R123). -/
def mixExtreme : Strategy := fun xs _ =>
  if greatest xs ≠ least xs then wrap16 (greatest xs + least xs) else greatest xs

/-- Add (spec/42_mixer.md R124). -/
def mixAdd : Strategy := fun xs _ => wrap16 xs.sum

/-- Average (spec/42_mixer.md R125). -/
def mixAverage : Strategy := fun xs _ => tdiv xs.sum xs.length

/-- Weight (spec/42_mixer.md R126). -/
def mixWeight : Strategy := fun xs ws => wrap16 (tdiv (List.zipWith (· * ·) xs ws).sum 65536)

/-- MIXEXT (spec/42_mixer.md R123). -/
def execMixext (s : State) : Host.Outcome State Fault Refusal :=
  s.deliver (mixPlan mixExtreme s.platform s.mem s.op)

/-- MIXADD (spec/42_mixer.md R124). -/
def execMixadd (s : State) : Host.Outcome State Fault Refusal :=
  s.deliver (mixPlan mixAdd s.platform s.mem s.op)

/-- MIXAVG (spec/42_mixer.md R125). -/
def execMixavg (s : State) : Host.Outcome State Fault Refusal :=
  s.deliver (mixPlan mixAverage s.platform s.mem s.op)

/-- MIXWGT (spec/42_mixer.md R126). -/
def execMixwgt (s : State) : Host.Outcome State Fault Refusal :=
  s.deliver (mixPlan mixWeight s.platform s.mem s.op)

end Sys2Proof.Machine
end

