-- ==== Sys2Proof/Machine/Resampler.lean ====
section
/-! DEFINITION. The resampler (spec/40_resampler.md). -/

namespace Sys2Proof.Machine

/-- `OutLen` (spec/40_resampler.md R92), counted in samples. -/
def outLength (len rin rout : Nat) : Nat := len * rout / rin

/-- `Interp` (spec/40_resampler.md R93, R94): output sample `n` of `outLen` from the `len` input samples `x`. -/
def interp (x : List Int) (len outLen n : Nat) : Int :=
  if outLen = 1 then x.getD 0 0
  else
    let d := outLen - 1
    let p := n * (len - 1)
    let f0 := p / d
    let r := p % d
    let c0 := if r = 0 then f0 else f0 + 1
    let c1 := if c0 ≥ len then f0 else c0
    let f := if f0 ≥ len then len - 1 else f0
    let c := if f0 ≥ len then len - 1 else c1
    tdiv (x.getD f 0 * d + r * (x.getD c 0 - x.getD f 0)) d

/-- The output samples of a resampling (spec/40_resampler.md R90). -/
def resampled (x : List Int) (len outLen : Nat) : List Int := (List.range outLen).map (interp x len outLen)

/-- The pseudocode of spec/40_resampler.md R90 and R91 up to the destination checks, as a function of memory and
operands. -/
def resampleDraft (p : Platform) (m : Memory) (o : OperandRegs) : Except ErrCode Draft :=
  let rin := o.param0.toNat
  let rout := o.param1.toNat
  let src := o.source
  let nb := src.len
  if rin = rout then
    if !src.valid p then .error .range
    else .ok ⟨[src], nb, m.readBytes src.addr nb, BitVec.ofNat 32 nb, BitVec.ofNat 32 (nb / 2)⟩
  else if rin = 0 then .error .badParam
  else if !src.valid p then .error .range
  else if nb % 2 ≠ 0 then .error .shape
  else
    let len := nb / 2
    let outLen := outLength len rin rout
    if outLen = 0 then .error .zeroLength
    else
      .ok ⟨[src], 2 * outLen, bytes16 (resampled (samples16 (m.readBytes src.addr nb)) len outLen),
        BitVec.ofNat 32 (2 * outLen), BitVec.ofNat 32 outLen⟩

/-- The pseudocode of spec/40_resampler.md R90 and R91. -/
def resamplePlan (p : Platform) (m : Memory) (o : OperandRegs) : Except ErrCode Output :=
  finish p o (resampleDraft p m o)

/-- RESAMPLE (spec/40_resampler.md R90). -/
def execResample (s : State) : Host.Outcome State Fault Refusal := s.deliver (resamplePlan s.platform s.mem s.op)

end Sys2Proof.Machine
end

