-- ==== Sys2Proof/Machine/Adts.lean ====
section
/-! DEFINITION. The ADTS framer (spec/43_adts.md) and the sampling-frequency table (spec/30_encoding.md R86). -/

namespace Sys2Proof.Machine

/-- `SFI_TABLE` (spec/30_encoding.md R86), index 0 first. -/
def sfiTable : List Word :=
  [96000, 88200, 64000, 48000, 44100, 32000, 24000, 22050, 16000, 12000, 11025, 8000, 7350]

/-- The sampling-frequency index of a rate and whether the fallback was used (spec/43_adts.md R142). -/
def sfiOf (rate : Word) : BitVec 4 × Bool :=
  match sfiTable.findIdx? (fun r => r == rate) with
  | some i => (BitVec.ofNat 4 i, false)
  | none => (4, true)

/-- `AdtsHeader` (spec/43_adts.md R144): the seven bytes of spec/30_encoding.md R85's field table. -/
def adtsHeader (id : BitVec 1) (prof : BitVec 2) (sfi : BitVec 4) (cc : BitVec 3) (fl : BitVec 13) : List Byte :=
  [ (0xFF : BitVec 8),
    (0xF : BitVec 4) ++ id ++ (0 : BitVec 2) ++ (1 : BitVec 1),
    prof ++ sfi ++ (0 : BitVec 1) ++ cc.extractLsb' 2 1,
    cc.extractLsb' 0 2 ++ (0 : BitVec 4) ++ fl.extractLsb' 11 2,
    fl.extractLsb' 3 8,
    fl.extractLsb' 0 3 ++ (0x1F : BitVec 5),
    (0xFC : BitVec 8) ]

/-- The largest value of the 13-bit frame length (spec/43_adts.md R140). -/
def maxFrameLength : Nat := 8191

/-- The size of the header (ADTS_HEADER_BYTES, spec/00_scope.md section 4). -/
def adtsHeaderBytes : Nat := 7

/-- The pseudocode of spec/43_adts.md R140 up to the destination checks. -/
def adtsencDraft (prof : BitVec 2) (sfi : BitVec 4) (cc : BitVec 3) (o : OperandRegs) : Except ErrCode Draft :=
  let fl := o.param0.toNat + adtsHeaderBytes
  if prof = 3 then .error .badParam
  else if sfi.toNat > 12 then .error .badParam
  else if fl > maxFrameLength then .error .badParam
  else .ok ⟨[], adtsHeaderBytes, adtsHeader o.adtsId prof sfi cc (BitVec.ofNat 13 fl), BitVec.ofNat 32 fl, 0⟩

/-- ADTSENC with its destination checks (spec/43_adts.md R140). -/
def adtsencPlan (prof : BitVec 2) (sfi : BitVec 4) (cc : BitVec 3) (p : Platform) (o : OperandRegs) :
    Except ErrCode Output :=
  finish p o (adtsencDraft prof sfi cc o)

/-- The fields of a header that the parser reads (spec/43_adts.md R141). -/
structure HeaderFields where
  sync  : BitVec 12
  id    : BitVec 1
  layer : BitVec 2
  pa    : BitVec 1
  prof  : BitVec 2
  sfi   : BitVec 4
  cc    : BitVec 3
  fl    : BitVec 13
deriving DecidableEq, Repr

/-- The fields of the seven bytes `h` (spec/43_adts.md R141). -/
def headerFields (h : List Byte) : HeaderFields :=
  let b := fun k => h.getD k 0
  { sync := b 0 ++ (b 1).extractLsb' 4 4, id := (b 1).extractLsb' 3 1, layer := (b 1).extractLsb' 1 2,
    pa := (b 1).extractLsb' 0 1, prof := (b 2).extractLsb' 6 2, sfi := (b 2).extractLsb' 2 4,
    cc := (b 2).extractLsb' 0 1 ++ (b 3).extractLsb' 6 2,
    fl := (b 3).extractLsb' 0 2 ++ b 4 ++ (b 5).extractLsb' 5 3 }

/-- RESULT1 of a parse (spec/43_adts.md R141): bits 3:0 index, 5:4 profile, 10:8 channel configuration, 12 MPEG id. -/
def HeaderFields.packed (f : HeaderFields) : Word :=
  (f.id ++ (0 : BitVec 1) ++ f.cc ++ (0 : BitVec 2) ++ f.prof ++ f.sfi).setWidth 32

/-- Parsing the seven bytes of a header (spec/43_adts.md R141). -/
def parseHeader (h : List Byte) : Except ErrCode (Word × Word) :=
  let f := headerFields h
  if f.sync ≠ 0xFFF ∨ f.layer ≠ 0 ∨ f.pa ≠ 1 then .error .badSync
  else .ok (f.fl.setWidth 32, f.packed)

/-- The pseudocode of spec/43_adts.md R141. -/
def adtsparsePlan (p : Platform) (m : Memory) (o : OperandRegs) : Except ErrCode (Word × Word) :=
  if o.srcLen.toNat < adtsHeaderBytes then .error .shape
  else if !Region.valid ⟨o.srcAddr.toNat, adtsHeaderBytes⟩ p then .error .range
  else parseHeader (m.readBytes o.srcAddr.toNat adtsHeaderBytes)

/-- The pseudocode of spec/43_adts.md R142. -/
def sfilookupPlan (o : OperandRegs) : Except ErrCode (Word × Word) :=
  .ok ((sfiOf o.param0).1.setWidth 32, (bit (sfiOf o.param0).2).setWidth 32)

/-- ADTSENC (spec/43_adts.md R140). -/
def execAdtsenc (prof : BitVec 2) (sfi : BitVec 4) (cc : BitVec 3) (s : State) : Host.Outcome State Fault Refusal :=
  s.deliver (adtsencPlan prof sfi cc s.platform s.op)

/-- ADTSPARSE (spec/43_adts.md R141). -/
def execAdtsparse (s : State) : Host.Outcome State Fault Refusal := s.answer (adtsparsePlan s.platform s.mem s.op)

/-- SFILOOKUP (spec/43_adts.md R142). -/
def execSfilookup (s : State) : Host.Outcome State Fault Refusal := s.answer (sfilookupPlan s.op)

end Sys2Proof.Machine
end

