-- ==== Sys2Proof/Machine/Session.lean ====
section
/-! DEFINITION. The session commands (spec/44_session_queue.md section 1). -/

namespace Sys2Proof.Machine

/-- `CHCFG_OF` (spec/30_encoding.md R87): 1 to 6 give themselves, 8 gives 7, no other count has a configuration. -/
def chcfgOf (ch : Word) : Option (BitVec 3) :=
  if 1 ≤ ch.toNat ∧ ch.toNat ≤ 6 then some (BitVec.ofNat 3 ch.toNat)
  else if ch.toNat = 8 then some 7
  else none

/-- SCFG_MODE.DIR (spec/10_state.md R24). -/
def modeDir (mode : BitVec 4) : Dir := if mode.getLsbD 0 then .decode else .encode

/-- SCFG_MODE.PROFILE (spec/10_state.md R24). -/
def modeProfile (mode : BitVec 4) : BitVec 2 := mode.extractLsb' 1 2

/-- SCFG_MODE.AUTOSTART (spec/10_state.md R24). -/
def modeAutostart (mode : BitVec 4) : Bool := mode.getLsbD 3

/-- The arguments of CodecConfigure at an SPREPARE (spec/44_session_queue.md R160). -/
def configRequest (o : OperandRegs) : ConfigRequest :=
  { dir := modeDir o.scfgMode, rate := o.scfgRate, ch := o.scfgCh, profile := modeProfile o.scfgMode,
    sfi := (sfiOf o.scfgRate).1, bitrate := o.scfgBitrate }

/-- CodecConfigure (spec/44_session_queue.md R178 (a)): the device's settled answer, or else a free one (log 5). -/
def State.configureAnswer (s : State) (req : ConfigRequest) : Bool :=
  match s.codecAnswer with
  | some b => b
  | none => Config.codecConfigures s.draws req

/-- The state after the block asked CodecConfigure: the call is made, the settled answer is used up, a draw is counted. -/
def State.askedConfigure (s : State) (req : ConfigRequest) : State :=
  { s with codecCalls := s.codecCalls ++ [.configure req], codecAnswer := none, draws := s.draws + 1 }

/-- The configuration failure's report (spec/44_session_queue.md R160, spec/60_exceptions.md R189). -/
def State.configFailed (s : State) : State :=
  (({ s with serr := .configFail } : State).emit (.error .configFail)).fail .configFail

/-- The session fields SPREPARE latches (spec/44_session_queue.md R160). -/
def State.latchConfig (s : State) (o : OperandRegs) (chcfg : BitVec 3) : State :=
  { s with sess := { s.sess with
      dir := modeDir o.scfgMode, rate := o.scfgRate, ch := o.scfgCh, profile := modeProfile o.scfgMode,
      sfi := (sfiOf o.scfgRate).1, sfiFallback := (sfiOf o.scfgRate).2, chcfg := chcfg, bitrate := o.scfgBitrate,
      adtsId := o.adtsId, state := .prepared } }

/-- StartBody (spec/44_session_queue.md R161). -/
def State.startBody (s : State) : State :=
  { s with
    sess := { s.sess with stopReq := false, inDone := false, outDone := false, released := false, bytesFed := 0,
                          pts := 0, fedCount := 0, emitCount := 0, state := .running },
    queue := [], codecIn := [], codecOut := [], codecCalls := s.codecCalls ++ [.start] }

/-- The pseudocode of spec/44_session_queue.md R160 from the configuration checks on. -/
def State.prepare (s : State) (o : OperandRegs) : State :=
  match chcfgOf o.scfgCh with
  | none => s.configFailed
  | some chcfg =>
    if o.scfgRate = 0 ∨ modeProfile o.scfgMode = 3 then s.configFailed
    else
      let asked := s.askedConfigure (configRequest o)
      if s.configureAnswer (configRequest o) then
        let latched := asked.latchConfig o chcfg
        (if modeAutostart o.scfgMode then latched.startBody else latched).complete .ok 0 0
      else asked.configFailed

/-- SPREPARE (spec/44_session_queue.md R160). -/
def execSprepare (s : State) : Host.Outcome State Fault Refusal :=
  match s.sess.state with
  | .idle | .released => .next (s.prepare s.op)
  | .prepared | .running | .draining => .next (s.fail .badState)

/-- SSTART (spec/44_session_queue.md R161). -/
def execSstart (s : State) : Host.Outcome State Fault Refusal :=
  match s.sess.state with
  | .prepared => .next (s.startBody.complete .ok 0 0)
  | .running | .draining => .next (s.complete .ok 0 0)
  | .idle | .released => .next (s.fail .badState)

/-- The shape of a chunk (spec/44_session_queue.md R162): not empty and, when encoding, whole 16-bit frames. -/
def Session.chunkShape (x : Session) (n : Nat) : Bool :=
  decide (n ≠ 0 ∧ (x.dir = .encode → n % (2 * x.ch.toNat) = 0))

/-- Append a descriptor at the tail of the queue (spec/10_state.md R32, spec/20_memory.md R63). -/
def State.enqueue (s : State) (c : Chunk) : State := { s with queue := s.queue ++ [c] }

/-- SSUBMIT in Running (spec/44_session_queue.md R162). -/
def State.submit (s : State) (c : Chunk) : State :=
  if !s.sess.chunkShape c.len.toNat then s.fail .shape
  else if !c.region.valid s.platform then s.fail .range
  else if s.queue.length ≥ Config.queueDepth then s.fail .queueFull
  else (s.enqueue c).complete .ok (BitVec.ofNat 32 (s.queue.length + 1)) 0

/-- SSUBMIT (spec/44_session_queue.md R162). -/
def execSsubmit (s : State) : Host.Outcome State Fault Refusal :=
  match s.sess.state with
  | .draining => .next (s.fail .submitAfterStop)
  | .running => .next (s.submit ⟨s.op.srcAddr, s.op.srcLen⟩)
  | .idle | .prepared | .released => .next (s.fail .badState)

/-- The stop request (spec/44_session_queue.md R163). -/
def State.requestStop (s : State) : State := { s with sess := { s.sess with stopReq := true, state := .draining } }

/-- SSTOP (spec/44_session_queue.md R163). -/
def execSstop (s : State) : Host.Outcome State Fault Refusal :=
  match s.sess.state with
  | .running => .next (s.requestStop.complete .ok 0 0)
  | .draining => .next (s.complete .ok 0 0)
  | .idle | .prepared | .released => .next (s.fail .badState)

end Sys2Proof.Machine
end

