-- ==== Sys2Proof/Syntax.lean ====
section
/-! DEFINITION. The commands of the block, one constructor per row of spec/opcode_table.json (spec/30_encoding.md R71, R77). -/

namespace Sys2Proof

/-- A decoded command. Every field has exactly the width spec/30_encoding.md R71 gives it, so every term is one the
encoding can express; which field values a command accepts is its own rule's business. -/
inductive Instr where
  /-- RESAMPLE (spec/40_resampler.md R90). -/
  | resample
  /-- EXTL: `bd` is 0 for 8-bit and 1 for 16-bit samples (spec/41_channel.md R101). -/
  | extl (bd : BitVec 1)
  /-- EXTR (spec/41_channel.md R102). -/
  | extr (bd : BitVec 1)
  /-- RED2 (spec/41_channel.md R103). -/
  | red2 (bd : BitVec 1)
  /-- M2S (spec/41_channel.md R104). -/
  | m2s (bd : BitVec 1)
  /-- MIXEXT (spec/42_mixer.md R123). -/
  | mixext
  /-- MIXADD (spec/42_mixer.md R124). -/
  | mixadd
  /-- MIXAVG (spec/42_mixer.md R125). -/
  | mixavg
  /-- MIXWGT (spec/42_mixer.md R126). -/
  | mixwgt
  /-- ADTSENC with the raw PROF, SFI and CC fields (spec/43_adts.md R140). -/
  | adtsenc (prof : BitVec 2) (sfi : BitVec 4) (cc : BitVec 3)
  /-- ADTSPARSE (spec/43_adts.md R141). -/
  | adtsparse
  /-- SFILOOKUP (spec/43_adts.md R142). -/
  | sfilookup
  /-- SPREPARE (spec/44_session_queue.md R160). -/
  | sprepare
  /-- SSTART (spec/44_session_queue.md R161). -/
  | sstart
  /-- SSUBMIT (spec/44_session_queue.md R162). -/
  | ssubmit
  /-- SSTOP (spec/44_session_queue.md R163). -/
  | sstop
deriving DecidableEq, Repr

end Sys2Proof
end

