-- ==== Sys2Proof/Machine/Dispatch.lean ====
section
/-! DEFINITION. The meaning of every command (spec/30_encoding.md R74, R77). -/

namespace Sys2Proof.Machine

/-- Execute a decoded command on the operands in the latch and complete it (spec/30_encoding.md R72). -/
def exec (i : Instr) (s : State) : Host.Outcome State Fault Refusal :=
  match i with
  | .resample => Sys2Proof.Machine.execResample s
  | .extl bd => Sys2Proof.Machine.execExtl bd s
  | .extr bd => Sys2Proof.Machine.execExtr bd s
  | .red2 bd => Sys2Proof.Machine.execRed2 bd s
  | .m2s bd => Sys2Proof.Machine.execM2s bd s
  | .mixext => Sys2Proof.Machine.execMixext s
  | .mixadd => Sys2Proof.Machine.execMixadd s
  | .mixavg => Sys2Proof.Machine.execMixavg s
  | .mixwgt => Sys2Proof.Machine.execMixwgt s
  | .adtsenc prof sfi cc => Sys2Proof.Machine.execAdtsenc prof sfi cc s
  | .adtsparse => Sys2Proof.Machine.execAdtsparse s
  | .sfilookup => Sys2Proof.Machine.execSfilookup s
  | .sprepare => Sys2Proof.Machine.execSprepare s
  | .sstart => Sys2Proof.Machine.execSstart s
  | .ssubmit => Sys2Proof.Machine.execSsubmit s
  | .sstop => Sys2Proof.Machine.execSstop s

end Sys2Proof.Machine
end

