-- ==== Sys2Proof/Machine/Engines.lean ====
section
/-! DEFINITION. The engines of the session unit and the codec device's own step (spec/44_session_queue.md sections 2 to 5).
An agent without an enabled step changes nothing (log 1). -/

namespace Sys2Proof.Machine

/-- The session runs or drains: the states in which feeder, drainer and codec device may step
(spec/44_session_queue.md R170, R175, R178 (b)). -/
def Session.active (x : Session) : Bool := decide (x.state = .running ∨ x.state = .draining)

/-- `PtsOf` (spec/44_session_queue.md R174), in microseconds. -/
def Session.ptsOf (x : Session) (b : Nat) : BitVec 64 := BitVec.ofNat 64 (b * 1000000 / (x.rate.toNat * x.ch.toNat * 2))

/-- The session after `n` more bytes were fed (spec/44_session_queue.md R171). -/
def Session.fed (x : Session) (n : Nat) : Session :=
  { x with bytesFed := x.bytesFed + n, pts := x.ptsOf (x.bytesFed + n), fedCount := x.fedCount + 1 }

/-- Feed step (spec/44_session_queue.md R171): pop the head and hand its bytes to the device, in one step. -/
def State.feed (s : State) (d : Chunk) (rest : List Chunk) : State :=
  { s with
    queue := rest,
    codecIn := s.codecIn ++
      [{ bytes := s.mem.readBytes d.region.addr d.region.len, pts := s.sess.pts, eos := false }],
    sess := s.sess.fed d.len.toNat,
    fedUnseen := s.fedUnseen ++ [{ chunk := d, index := s.sess.fedCount }] }

/-- End step (spec/44_session_queue.md R172). -/
def State.feedEnd (s : State) : State :=
  { s with
    codecIn := s.codecIn ++ [{ bytes := [], pts := s.sess.pts, eos := true }],
    sess := { s.sess with inDone := true } }

/-- The feeder engine (spec/44_session_queue.md R170 to R173). -/
def feederStep (accepts : Bool) (s : State) : State :=
  if s.sess.active && !s.sess.inDone && accepts then
    match s.queue with
    | d :: rest => s.feed d rest
    | [] => if s.sess.stopReq then s.feedEnd else s
  else s

/-- A DATA message and its count (spec/44_session_queue.md R175). -/
def State.emitData (s : State) (bytes : List Byte) : State :=
  { s with outLog := s.outLog ++ [.data bytes], sess := { s.sess with emitCount := s.sess.emitCount + 1 } }

/-- The encode session's frame around a payload (spec/44_session_queue.md R175). -/
def Session.frame (x : Session) (payload : List Byte) : List Byte :=
  adtsHeader x.adtsId x.profile x.sfi x.chcfg (BitVec.ofNat 13 (payload.length + adtsHeaderBytes)) ++ payload

/-- What the drainer emits for a buffer's bytes (spec/44_session_queue.md R175). -/
def State.emitBuffer (s : State) (payload : List Byte) : State :=
  if payload.length = 0 then s
  else
    match s.sess.dir with
    | .encode =>
      if payload.length + adtsHeaderBytes > maxFrameLength then
        ({ s with serr := .frameTooLong } : State).emit (.error .frameTooLong)
      else s.emitData (s.sess.frame payload)
    | .decode => s.emitData payload

/-- The end-of-stream flag of a drained buffer (spec/44_session_queue.md R175). -/
def State.markOutDone (s : State) (eos : Bool) : State :=
  if eos then { s with sess := { s.sess with outDone := true } } else s

/-- The drainer engine (spec/44_session_queue.md R175). -/
def drainerStep (s : State) : State :=
  if s.sess.active && !s.sess.outDone then
    match s.codecOut with
    | b :: rest => (({ s with codecOut := rest } : State).emitBuffer b.bytes).markOutDone b.eos
    | [] => s
  else s

/-- The session record after release: every field cleared but the state and the release mark
(spec/44_session_queue.md R177). -/
def Session.cleared : Session := { Session.reset with state := .released, released := true }

/-- The release logic (spec/44_session_queue.md R177): test and effect are one step (spec/20_memory.md R64). -/
def releaseStep (s : State) : State :=
  if s.sess.state = .draining ∧ s.sess.inDone ∧ s.sess.outDone ∧ s.sess.released = false then
    ({ s with sess := .cleared, codecCalls := s.codecCalls ++ [.release] } : State).emit .sessionEnd
  else s

/-- The codec device has accepted the end marker (spec/44_session_queue.md R178 (e)). -/
def State.endMarkerAccepted (s : State) : Bool := s.codecIn.any (·.eos)

/-- The codec device has produced its last buffer, drained or not (spec/44_session_queue.md R178 (e)). -/
def State.lastProduced (s : State) : Bool := s.sess.outDone || s.codecOut.any (·.eos)

/-- The codec device's step (spec/44_session_queue.md R178 (b), (d), (e); log 6): only while the session is active, the
last buffer only after the end marker, and nothing after it. -/
def codecProduceStep (bytes : List Byte) (eos : Bool) (s : State) : State :=
  if s.sess.active && !s.lastProduced && (!eos || s.endMarkerAccepted) then
    { s with codecOut := s.codecOut ++ [{ bytes := bytes, eos := eos }] }
  else s

/-- The codec device settles its answer to the next CodecConfigure (spec/44_session_queue.md R178 (a), log 5). -/
def codecAnswerStep (ok : Bool) (s : State) : State := { s with codecAnswer := some ok }

/-- The reset input (spec/70_reset_and_hazards.md R210, R211): all block state at its reset value in one step. Memory, the
platform, the events to come and the count of draws are not the block's (log 15). -/
def resetStep (s : State) : State :=
  { State.resetOn s.platform with mem := s.mem, agenda := s.agenda, draws := s.draws }

end Sys2Proof.Machine
end

