-- ==== Sys2Proof/WellFormed.lean ====
section
/-! DEFINITION. Which 32-bit words are commands: the match and mask columns of spec/opcode_table.json. The decoder is
written apart from this table, from the pseudocode of spec/30_encoding.md R74, so that each can be held against the other.
The fields of Instr have the exact widths of the encoding, so the check is a check of words. -/

namespace Sys2Proof

/-- One row's `match` and `mask` of spec/opcode_table.json. -/
structure TableRow where
  pattern : Word
  mask    : Word
deriving DecidableEq, Repr

/-- The sixteen rows of spec/opcode_table.json, in its order. -/
def tableRows : List TableRow :=
  [ ⟨0x00000010, 0xFFFFFFFF⟩,   -- RESAMPLE
    ⟨0x00000020, 0xFFFFFEFF⟩,   -- EXTL
    ⟨0x00000021, 0xFFFFFEFF⟩,   -- EXTR
    ⟨0x00000022, 0xFFFFFEFF⟩,   -- RED2
    ⟨0x00000023, 0xFFFFFEFF⟩,   -- M2S
    ⟨0x00000030, 0xFFFFFFFF⟩,   -- MIXEXT
    ⟨0x00000031, 0xFFFFFFFF⟩,   -- MIXADD
    ⟨0x00000032, 0xFFFFFFFF⟩,   -- MIXAVG
    ⟨0x00000033, 0xFFFFFFFF⟩,   -- MIXWGT
    ⟨0x00000040, 0xFFFE00FF⟩,   -- ADTSENC
    ⟨0x00000041, 0xFFFFFFFF⟩,   -- ADTSPARSE
    ⟨0x00000042, 0xFFFFFFFF⟩,   -- SFILOOKUP
    ⟨0x00000050, 0xFFFFFFFF⟩,   -- SPREPARE
    ⟨0x00000051, 0xFFFFFFFF⟩,   -- SSTART
    ⟨0x00000052, 0xFFFFFFFF⟩,   -- SSUBMIT
    ⟨0x00000053, 0xFFFFFFFF⟩ ]  -- SSTOP

/-- The word has the fixed bits of this row. -/
def TableRow.fits (r : TableRow) (w : Word) : Bool := w &&& r.mask == r.pattern

/-- The word is a command: it fits a row of the table. -/
def wellFormedWord (w : Word) : Bool := tableRows.any fun r => r.fits w

end Sys2Proof
end

