-- ==== Sys2Proof/Decode.lean ====
section
/-! DEFINITION. The decoder of spec/30_encoding.md R74, total on 32-bit words and refusing by name, and the encoder of R71. -/

namespace Sys2Proof

/-- Why a word is no command; both are ILLEGAL_CMD to the block (spec/30_encoding.md R74). -/
inductive DecodeError where
  /-- The opcode is not in the map (R78). -/
  | reservedOpcode
  /-- A bit that the opcode's format marks reserved is 1 (R71). -/
  | reservedBits
deriving DecidableEq, Repr

/-- The three formats of spec/30_encoding.md R71. -/
inductive Format where
  | f0
  | fc
  | fa
deriving DecidableEq, Repr

/-- OP = word[7:0] (R70). -/
def opField (w : Word) : BitVec 8 := w.extractLsb' 0 8
/-- BD = word[8] (R71, format FC). -/
def bdField (w : Word) : BitVec 1 := w.extractLsb' 8 1
/-- PROF = word[9:8] (R71, format FA). -/
def profField (w : Word) : BitVec 2 := w.extractLsb' 8 2
/-- SFI = word[13:10] (R71, format FA). -/
def sfiField (w : Word) : BitVec 4 := w.extractLsb' 10 4
/-- CC = word[16:14] (R71, format FA). -/
def ccField (w : Word) : BitVec 3 := w.extractLsb' 14 3

/-- The format's reserved bits are all 0 (R71): bits 31:8 in F0, 31:9 in FC, 31:17 in FA. -/
def Format.reservedClear (f : Format) (w : Word) : Bool :=
  match f with
  | .f0 => w.extractLsb' 8 24 == 0
  | .fc => w.extractLsb' 9 23 == 0
  | .fa => w.extractLsb' 17 15 == 0

/-- One row of the opcode map (R77): the opcode, its format and the command built from the word's fields. -/
structure OpRow where
  op     : BitVec 8
  format : Format
  build  : Word → Instr

/-- The opcode map (spec/30_encoding.md R77). -/
def opMap : List OpRow :=
  [ ⟨0x10, .f0, fun _ => .resample⟩,
    ⟨0x20, .fc, fun w => .extl (bdField w)⟩,
    ⟨0x21, .fc, fun w => .extr (bdField w)⟩,
    ⟨0x22, .fc, fun w => .red2 (bdField w)⟩,
    ⟨0x23, .fc, fun w => .m2s (bdField w)⟩,
    ⟨0x30, .f0, fun _ => .mixext⟩,
    ⟨0x31, .f0, fun _ => .mixadd⟩,
    ⟨0x32, .f0, fun _ => .mixavg⟩,
    ⟨0x33, .f0, fun _ => .mixwgt⟩,
    ⟨0x40, .fa, fun w => .adtsenc (profField w) (sfiField w) (ccField w)⟩,
    ⟨0x41, .f0, fun _ => .adtsparse⟩,
    ⟨0x42, .f0, fun _ => .sfilookup⟩,
    ⟨0x50, .f0, fun _ => .sprepare⟩,
    ⟨0x51, .f0, fun _ => .sstart⟩,
    ⟨0x52, .f0, fun _ => .ssubmit⟩,
    ⟨0x53, .f0, fun _ => .sstop⟩ ]

/-- Decode (spec/30_encoding.md R74): look the opcode up, then check the format's reserved bits. -/
def decode (w : Word) : Except DecodeError Instr :=
  match opMap.find? (fun r => r.op == opField w) with
  | none => .error .reservedOpcode
  | some r => if r.format.reservedClear w then .ok (r.build w) else .error .reservedBits

/-- The word of a command (spec/30_encoding.md R71, R77): the fields from the top one down to the opcode, with zeros above
them. -/
def encode : Instr → Word
  | .resample => 0x00000010
  | .extl bd => (bd ++ (0x20 : BitVec 8)).setWidth 32
  | .extr bd => (bd ++ (0x21 : BitVec 8)).setWidth 32
  | .red2 bd => (bd ++ (0x22 : BitVec 8)).setWidth 32
  | .m2s bd => (bd ++ (0x23 : BitVec 8)).setWidth 32
  | .mixext => 0x00000030
  | .mixadd => 0x00000031
  | .mixavg => 0x00000032
  | .mixwgt => 0x00000033
  | .adtsenc prof sfi cc => (cc ++ sfi ++ prof ++ (0x40 : BitVec 8)).setWidth 32
  | .adtsparse => 0x00000041
  | .sfilookup => 0x00000042
  | .sprepare => 0x00000050
  | .sstart => 0x00000051
  | .ssubmit => 0x00000052
  | .sstop => 0x00000053

/-- The word of a table row's `nbits` bits `w`, every bit above them 0 (a command is one 32-bit word, R70). -/
def tableWord (nbits w : Nat) : Word := BitVec.ofNat 32 (w % 2 ^ nbits)

/-- What the decoder reads from an instruction whose bits are `w`, numbered as spec/opcode_table.json numbers them. -/
def decodeTableWord (nbits w : Nat) : Option Instr := (decode (tableWord nbits w)).toOption

end Sys2Proof
end

