-- ==== Sys2Proof/Machine/Hazards.lean ====
section
/-! DEFINITION. The regions a host must leave alone (spec/70_reset_and_hazards.md R220, R223). -/

namespace Sys2Proof.Machine

/-- The mixer's table and, where the table is valid, its tracks (spec/42_mixer.md R120). -/
def mixReads (p : Platform) (m : Memory) (o : OperandRegs) : List Region :=
  let row := o.param0.toNat
  let tbl := tableRegion o
  if row = 0 ∨ row > Config.maxTracks then []
  else tbl :: (if tbl.valid p then (trackTable m tbl.addr row).map (·.region) else [])

/-- The regions a command reads: its source, its mixer table and tracks (R220; log 9). -/
def readRegions (i : Instr) (p : Platform) (m : Memory) (o : OperandRegs) : List Region :=
  match i with
  | .resample | .extl _ | .extr _ | .red2 _ | .m2s _ => [o.source]
  | .mixext | .mixadd | .mixavg | .mixwgt => mixReads p m o
  | .adtsparse => [⟨o.srcAddr.toNat, min o.srcLen.toNat adtsHeaderBytes⟩]
  | .adtsenc _ _ _ | .sfilookup | .sprepare | .sstart | .ssubmit | .sstop => []

/-- What a data command is about to write, or the error it raises before its output byte count is known; none where the
command stores nothing. -/
def dataDraft (i : Instr) (p : Platform) (m : Memory) (o : OperandRegs) : Option (Except ErrCode Draft) :=
  match i with
  | .resample => some (resampleDraft p m o)
  | .extl bd => some (extlDraft bd p m o)
  | .extr bd => some (extrDraft bd p m o)
  | .red2 bd => some (red2Draft bd p m o)
  | .m2s bd => some (m2sDraft bd p m o)
  | .mixext => some (mixDraft mixExtreme p m o)
  | .mixadd => some (mixDraft mixAdd p m o)
  | .mixavg => some (mixDraft mixAverage p m o)
  | .mixwgt => some (mixDraft mixWeight p m o)
  | .adtsenc prof sfi cc => some (adtsencDraft prof sfi cc o)
  | .adtsparse | .sfilookup | .sprepare | .sstart | .ssubmit | .sstop => none

/-- What a data command will deliver from this memory; none where it raises an error or the command stores nothing. -/
def dataPlan (i : Instr) (p : Platform) (m : Memory) (o : OperandRegs) : Option Output :=
  match dataDraft i p m o with
  | some d => (finish p o d).toOption
  | none => none

/-- The region a command writes, `[DST_ADDR, DST_ADDR + ob)`, whether or not its destination checks will pass (R220,
spec/41_channel.md R100; log 9). -/
def destRegions (i : Instr) (p : Platform) (m : Memory) (o : OperandRegs) : List Region :=
  match dataDraft i p m o with
  | some (.ok d) => [⟨o.dstAddr.toNat, d.ob⟩]
  | some (.error _) | none => []

/-- Regions of the pending command; none where nothing is pending or the word is illegal. -/
def State.pendingRegions (s : State) (f : Instr → Platform → Memory → OperandRegs → List Region) : List Region :=
  match s.pending with
  | none => []
  | some pd =>
    match decode pd.word with
    | .ok i => f i s.platform s.mem pd.op
    | .error _ => []

/-- The regions the pending command reads (R220). -/
def State.pendingReads (s : State) : List Region := s.pendingRegions readRegions

/-- The destination region of the pending command (R220). -/
def State.pendingDest (s : State) : List Region := s.pendingRegions destRegions

/-- The chunks hosts have handed over and not been given back (R223): those queued, and those fed whose passing no host
has read from FED_COUNT. -/
def State.lentRegions (s : State) : List Region :=
  s.queue.map Chunk.region ++ s.fedUnseen.map fun f => f.chunk.region

end Sys2Proof.Machine
end

