-- ==== Sys2Proof/Machine/HostPort.lean ====
section
/-! DEFINITION. The moves of a host (spec/10_state.md R20 (a)): register accesses, memory accesses, taking messages. -/

namespace Sys2Proof.Machine

/-- A result register of the pending command, which a host must not take while BUSY (spec/70_reset_and_hazards.md R220). -/
def isResultOffset (off : Nat) : Bool :=
  off == Reg.result0.offset || off == Reg.result1.offset || off == Reg.errcode.offset

/-- The state after a register was read: reads have no effect on the block; the model records the answer, and a read of
FED_COUNT hands back the fed chunks it has passed (spec/70_reset_and_hazards.md R223), for every host: DESIGN CHOICE,
unsafe if each host must read for itself (log 18). -/
def State.afterRead (s : State) (off : Nat) : State :=
  { s with
    reply := .word (s.readOffset off),
    fedUnseen :=
      if off = Reg.fedCount.offset then s.fedUnseen.filter fun f => decide (s.sess.fedCount ≤ f.index)
      else s.fedUnseen }

/-- A host reads a register (spec/20_memory.md R54, spec/10_state.md R28, R30). Only a host that takes the value as the
pending command's result breaks R220; any other read answers the register. -/
def hostReadReg (addr : Word) (width : Width) (asResult : Bool) (s : State) : Host.Outcome State Fault Refusal :=
  match windowOffset s.platform addr width with
  | none => .fault .badRegisterAccess
  | some off =>
    if asResult && s.busy && isResultOffset off then .fault .resultWhileBusy else .next (s.afterRead off)

/-- A host writes a register (spec/20_memory.md R54, spec/10_state.md R22 to R28). -/
def hostWriteReg (addr : Word) (width : Width) (data : Word) (s : State) : Host.Outcome State Fault Refusal :=
  match windowOffset s.platform addr width with
  | none => .fault .badRegisterAccess
  | some off => .next (s.writeOffset off data)

/-- A host reads bytes of bus memory (spec/10_state.md R46, spec/70_reset_and_hazards.md R220). -/
def hostReadMem (addr len : Word) (s : State) : Host.Outcome State Fault Refusal :=
  let r : Region := ⟨addr.toNat, len.toNat⟩
  if !r.valid s.platform then .fault .outsideMemory
  else if s.pendingDest.any r.overlaps then .fault .touchesPending
  else .next { s with reply := .bytes (s.mem.readBytes r.addr r.len) }

/-- A host writes bytes of bus memory (spec/10_state.md R46, spec/70_reset_and_hazards.md R220, R223). -/
def hostWriteMem (addr : Word) (bytes : List Byte) (s : State) : Host.Outcome State Fault Refusal :=
  let r : Region := ⟨addr.toNat, bytes.length⟩
  if !r.valid s.platform then .fault .outsideMemory
  else if (s.pendingReads ++ s.pendingDest).any r.overlaps then .fault .touchesPending
  else if s.lentRegions.any r.overlaps then .fault .touchesQueuedChunk
  else .next { s with mem := s.mem.writeBytes r.addr bytes }

/-- A host takes the next message of the output port, in order (spec/10_state.md R44; log 13). -/
def hostTake (s : State) : State :=
  match s.outLog[s.taken]? with
  | some msg => { s with taken := s.taken + 1, reply := .message msg }
  | none => { s with reply := .noMessage }

end Sys2Proof.Machine
end

