-- ==== Sys2Proof/Machine/Agents.lean ====
section
/-! DEFINITION. The command unit's step, one event of any agent, and which event comes next (spec/10_state.md R20, R21,
spec/30_encoding.md R72, R74). -/

namespace Sys2Proof.Machine

/-- The command unit's step (spec/30_encoding.md R72, R74): decode the latched word and execute it; an illegal word raises
ILLEGAL_CMD. With nothing latched the command unit has no step. -/
def cuStep (s : State) : Host.Outcome State Fault Refusal :=
  match s.pending with
  | none => .next s
  | some p =>
    match decode p.word with
    | .error _ => .next (s.fail .illegalCmd)
    | .ok i => exec i s

/-- One event happens (spec/10_state.md R20). -/
def runEvent (e : Event) (s : State) : Host.Outcome State Fault Refusal :=
  match e with
  | .hostReadReg addr width asResult => hostReadReg addr width asResult s
  | .hostWriteReg addr width data => hostWriteReg addr width data s
  | .hostReadMem addr len => hostReadMem addr len s
  | .hostWriteMem addr bytes => hostWriteMem addr bytes s
  | .hostTake => .next (hostTake s)
  | .cu => cuStep s
  | .feeder accepts => .next (feederStep accepts s)
  | .drainer => .next (drainerStep s)
  | .release => .next (releaseStep s)
  | .codecProduce bytes eos => .next (codecProduceStep bytes eos s)
  | .codecAnswer ok => .next (codecAnswerStep ok s)
  | .reset => .next (resetStep s)

/-- The event that comes next (log 1): the head of the agenda, or a free one where nothing is fixed. -/
def State.nextEvent (s : State) : Event :=
  match s.agenda with
  | e :: _ => e
  | [] => Config.freeEvent s.draws

/-- The state in which that event happens: it has left the agenda, or a draw has been counted. -/
def State.started (s : State) : State :=
  match s.agenda with
  | _ :: rest => { s with agenda := rest }
  | [] => { s with draws := s.draws + 1 }

/-- The word `w` as a host's CMD write latches it, with the command unit to step next (log 2). -/
def State.withCommand (s : State) (w : Word) : State :=
  { s with pending := some { word := w, op := s.regs }, agenda := .cu :: s.agenda }

end Sys2Proof.Machine
end

