-- ==== Sys2Proof/Machine/Step.lean ====
section
/-! DEFINITION. One step of the machine: the next event of any agent happens (spec/10_state.md R20, R21, log 1). -/

namespace Sys2Proof.Machine

/-- One step. -/
def step (s : State) : Host.Outcome State Fault Refusal := runEvent s.nextEvent s.started

/-- The command word whose bits are `w` placed where the next step takes its command: in the latch, with the snapshot a
CMD write takes, and the command unit next (log 2). -/
def State.withFetchWord (s : State) (nbits w : Nat) : State := s.withCommand (tableWord nbits w)

end Sys2Proof.Machine
end

