-- ==== Sys2Proof/Machine/Script.lean ====
section
/-! DEFINITION. The host scripts of spec/30_encoding.md R81 and R82: command syntax, host statements and the expansions of
the pseudo-instructions, as events for the agenda. The moves of the other agents between them are the schedule's. -/

namespace Sys2Proof.Machine

/-- A command with no operand on its line. -/
def bare (ops : List (String × Nat)) (i : Instr) : Option Instr := if ops = [] then some i else none

/-- The operand `key=<0..limit>` of a line, where it stands exactly once. -/
def operandOf (ops : List (String × Nat)) (key : String) (limit : Nat) : Option Nat :=
  match ops.filter fun o => o.1 == key with
  | [o] => if o.2 ≤ limit then some o.2 else none
  | _ => none

/-- The three operands of ADTSENC, all required, in any order (spec/30_encoding.md R81). -/
def assembleAdtsenc (ops : List (String × Nat)) : Option Instr :=
  match operandOf ops "p" 3, operandOf ops "sfi" 15, operandOf ops "cc" 7 with
  | some p, some f, some c =>
    if ops.length = 3 then some (.adtsenc (BitVec.ofNat 2 p) (BitVec.ofNat 4 f) (BitVec.ofNat 3 c)) else none
  | _, _, _ => none

/-- One line of command syntax, as its mnemonic with suffix and its named operands (spec/30_encoding.md R81). A missing
suffix or operand, or a value out of range, is an error of the assembler. -/
def assemble (mnemonic : String) (ops : List (String × Nat)) : Option Instr :=
  match mnemonic with
  | "RESAMPLE" => bare ops .resample
  | "EXTL.8" => bare ops (.extl 0)
  | "EXTL.16" => bare ops (.extl 1)
  | "EXTR.8" => bare ops (.extr 0)
  | "EXTR.16" => bare ops (.extr 1)
  | "RED2.8" => bare ops (.red2 0)
  | "RED2.16" => bare ops (.red2 1)
  | "M2S.8" => bare ops (.m2s 0)
  | "M2S.16" => bare ops (.m2s 1)
  | "MIXEXT" => bare ops .mixext
  | "MIXADD" => bare ops .mixadd
  | "MIXAVG" => bare ops .mixavg
  | "MIXWGT" => bare ops .mixwgt
  | "ADTSENC" => assembleAdtsenc ops
  | "ADTSPARSE" => bare ops .adtsparse
  | "SFILOOKUP" => bare ops .sfilookup
  | "SPREPARE" => bare ops .sprepare
  | "SSTART" => bare ops .sstart
  | "SSUBMIT" => bare ops .ssubmit
  | "SSTOP" => bare ops .sstop
  | _ => none

/-- The bus address of a register: REG_BASE plus its offset (spec/20_memory.md R54). -/
def regAddr (p : Platform) (r : Reg) : Word := p.regBase + BitVec.ofNat 32 r.offset

/-- `wr REG, v` (R81). -/
def wr (p : Platform) (r : Reg) (v : Word) : Event := .hostWriteReg (regAddr p r) .word v

/-- `rd REG` (R81). -/
def rd (p : Platform) (r : Reg) : Event := .hostReadReg (regAddr p r) .word false

/-- `rd REG`, taken as the result of the command issued last: after its `wait` (spec/70_reset_and_hazards.md R220). -/
def rdResult (p : Platform) (r : Reg) : Event := .hostReadReg (regAddr p r) .word true

/-- `mw addr, bytes` (R81). -/
def mw (addr : Word) (bytes : List Byte) : Event := .hostWriteMem addr bytes

/-- `mr addr, n` (R81). -/
def mr (addr n : Word) : Event := .hostReadMem addr n

/-- A command on its own line: `wr CMD, word` (R81). -/
def command (p : Platform) (i : Instr) : Event := wr p .cmd (encode i)

/-- `wait` (R82) in a run whose loop reads STATUS `polls` times before it sees bit 0 fall. -/
def waitPolls (p : Platform) (polls : Nat) : List Event := List.replicate polls (rd p .status)

/-- `resample src, n, dst, cap, rin, rout` (R82). -/
def pseudoResample (p : Platform) (polls : Nat) (src n dst cap rin rout : Word) : List Event :=
  [wr p .srcAddr src, wr p .srcLen n, wr p .dstAddr dst, wr p .dstCap cap, wr p .param0 rin, wr p .param1 rout,
   command p .resample] ++ waitPolls p polls

/-- `extl.W`, `extr.W`, `red2.W src, n, dst, cap, ch` (R82), where `i` is the command of the line. -/
def pseudoChannel (p : Platform) (polls : Nat) (i : Instr) (src n dst cap ch : Word) : List Event :=
  [wr p .srcAddr src, wr p .srcLen n, wr p .dstAddr dst, wr p .dstCap cap, wr p .param0 ch, command p i] ++
    waitPolls p polls

/-- `m2s.W src, n, dst, cap` (R82). -/
def pseudoM2s (p : Platform) (polls : Nat) (bd : BitVec 1) (src n dst cap : Word) : List Event :=
  [wr p .srcAddr src, wr p .srcLen n, wr p .dstAddr dst, wr p .dstCap cap, command p (.m2s bd)] ++ waitPolls p polls

/-- `mix.S tbl, row, dst, cap` (R82), where `i` is the strategy's command. -/
def pseudoMix (p : Platform) (polls : Nat) (i : Instr) (tbl row dst cap : Word) : List Event :=
  [wr p .srcAddr tbl, wr p .param0 row, wr p .dstAddr dst, wr p .dstCap cap, command p i] ++ waitPolls p polls

/-- `adtsenc p, sfi, cc, plen, dst, cap` (R82). -/
def pseudoAdtsenc (p : Platform) (polls : Nat) (prof : BitVec 2) (sfi : BitVec 4) (cc : BitVec 3)
    (plen dst cap : Word) : List Event :=
  [wr p .param0 plen, wr p .dstAddr dst, wr p .dstCap cap, command p (.adtsenc prof sfi cc)] ++ waitPolls p polls

/-- `adtsparse src, n` (R82). -/
def pseudoAdtsparse (p : Platform) (polls : Nat) (src n : Word) : List Event :=
  [wr p .srcAddr src, wr p .srcLen n, command p .adtsparse] ++ waitPolls p polls

/-- `sfilookup rate` (R82). -/
def pseudoSfilookup (p : Platform) (polls : Nat) (rate : Word) : List Event :=
  [wr p .param0 rate, command p .sfilookup] ++ waitPolls p polls

/-- `prepare rate, ch, mode, br` (R82). -/
def pseudoPrepare (p : Platform) (polls : Nat) (rate ch mode br : Word) : List Event :=
  [wr p .scfgRate rate, wr p .scfgCh ch, wr p .scfgMode mode, wr p .scfgBitrate br, command p .sprepare] ++
    waitPolls p polls

/-- `submit addr, n` (R82). -/
def pseudoSubmit (p : Platform) (polls : Nat) (addr n : Word) : List Event :=
  [wr p .srcAddr addr, wr p .srcLen n, command p .ssubmit] ++ waitPolls p polls

/-- `start` and `stop` (R82), where `i` is SSTART or SSTOP. -/
def pseudoSession (p : Platform) (polls : Nat) (i : Instr) : List Event := [command p i] ++ waitPolls p polls

/-- One round of a consistent read of PTS (spec/70_reset_and_hazards.md R222): a host repeats it while the first and the
last value differ. -/
def readPts (p : Platform) : List Event := [rd p .ptsHi, rd p .ptsLo, rd p .ptsHi]

end Sys2Proof.Machine
end

