-- ==== Sys2Proof/Safety.lean ====
section
/-! DEFINITION. The terms claims use: the invariants of the block, and what a state shares with another. -/

namespace Sys2Proof.Machine

/-- Memory is in its canonical form and lists nothing beyond MEM_BYTES (spec/10_state.md R46). -/
def State.MemInv (s : State) : Prop := s.mem.WF ∧ ∀ c ∈ s.mem.cells, c.1 < s.platform.memBytes

/-- The job queue holds at most QUEUE_DEPTH valid chunks, and none outside a running session
(spec/10_state.md R32, spec/44_session_queue.md R162). -/
def State.QueueInv (s : State) : Prop :=
  s.queue.length ≤ Config.queueDepth ∧ (∀ c ∈ s.queue, c.region.valid s.platform = true) ∧
    (s.queue ≠ [] → s.sess.active = true)

/-- The latched configuration of a session that was prepared is one SPREPARE accepts (spec/44_session_queue.md R160). -/
def Session.ConfigInv (x : Session) : Prop :=
  x.state ≠ .idle → x.state ≠ .released →
    x.rate ≠ 0 ∧ chcfgOf x.ch = some x.chcfg ∧ x.profile ≠ 3 ∧ x.sfi = (sfiOf x.rate).1 ∧
      x.sfiFallback = (sfiOf x.rate).2

/-- The stop request and the completion flags fit the session state (spec/44_session_queue.md R163, R172, R175, R177). -/
def State.FlagInv (s : State) : Prop :=
  (s.sess.stopReq = true ↔ s.sess.state = .draining) ∧
    (s.sess.inDone = true → s.sess.state = .draining ∧ s.queue = []) ∧
    (s.sess.outDone = true → s.sess.inDone = true ∧ s.codecOut = [])

/-- The codec port fits the contract of spec/44_session_queue.md R178 (e) while a session is active: the end marker was
accepted exactly when the feeder is done, and the device's last buffer is the last in line and came after it. -/
def State.PortInv (s : State) : Prop :=
  s.sess.active = true →
    (s.endMarkerAccepted = s.sess.inDone) ∧
    (∀ b ∈ s.codecOut.dropLast, b.eos = false) ∧
    (s.codecOut.any (·.eos) = true → s.sess.inDone = true) ∧
    s.sess.pts = s.sess.ptsOf s.sess.bytesFed

/-- Everything the session unit keeps (spec/44_session_queue.md). -/
def State.SessionInv (s : State) : Prop := s.QueueInv ∧ s.sess.ConfigInv ∧ s.FlagInv ∧ s.PortInv

/-- The output port's cursor never passes its end (spec/10_state.md R44). -/
def State.TakenInv (s : State) : Prop := s.taken ≤ s.outLog.length

/-- The messages up to the first END, that one included; none where END was not emitted. -/
def upToEnd : List Message → Option (List Message)
  | [] => none
  | .sessionEnd :: _ => some [.sessionEnd]
  | m :: rest => (upToEnd rest).map fun l => m :: l

/-- The observable result of a session run whose SPREPARE found `start` messages on the output port
(spec/44_session_queue.md R179): none while the run has not ended. -/
def State.sessionRun (s : State) (start : Nat) : Option (List Message) := upToEnd (s.outLog.drop start)

/-- An outcome with other live operand registers; faults and refusals as they are. -/
def withRegs (r : OperandRegs) : Host.Outcome State Fault Refusal → Host.Outcome State Fault Refusal
  | .next s => .next { s with regs := r }
  | .fault f => .fault f
  | .refused q => .refused q

/-! ### When a data command succeeds -/

/-- The destination checks pass for `ob` bytes against the regions read: CAPACITY, RANGE, OVERLAP
(spec/41_channel.md R100, spec/20_memory.md R51, R52). -/
abbrev Storable (p : Platform) (o : OperandRegs) (reads : List Region) (ob : Nat) : Prop :=
  ob ≤ o.dstCap.toNat ∧ Region.valid ⟨o.dstAddr.toNat, ob⟩ p = true ∧
    ∀ r ∈ reads, Region.overlaps ⟨o.dstAddr.toNat, ob⟩ r = false

/-- SRC_LEN as a number of bytes. -/
abbrev State.srcBytes (s : State) : Nat := s.op.srcLen.toNat

/-- PARAM0 as a channel count (spec/41_channel.md R100). -/
abbrev State.channels (s : State) : Nat := s.op.param0.toNat

/-- RESAMPLE on equal rates succeeds (spec/40_resampler.md R91). -/
abbrev ResampleCopies (s : State) : Prop :=
  s.op.param0 = s.op.param1 ∧ s.op.source.valid s.platform = true ∧
    Storable s.platform s.op [s.op.source] s.srcBytes

/-- The output length of a RESAMPLE (spec/40_resampler.md R92): the floor of samples times output rate over input rate. -/
abbrev State.outSamples (s : State) : Nat := s.srcBytes / 2 * s.op.param1.toNat / s.op.param0.toNat

/-- RESAMPLE on unequal rates succeeds (spec/40_resampler.md R90). -/
abbrev ResampleRuns (s : State) : Prop :=
  s.op.param0 ≠ s.op.param1 ∧ s.op.param0 ≠ 0 ∧ s.op.source.valid s.platform = true ∧ s.srcBytes % 2 = 0 ∧
    1 ≤ s.outSamples ∧ Storable s.platform s.op [s.op.source] (2 * s.outSamples)

/-- A channel command on its identity path succeeds (spec/41_channel.md R101 to R103). -/
abbrev CopyReady (s : State) : Prop :=
  s.op.source.valid s.platform = true ∧ Storable s.platform s.op [s.op.source] s.srcBytes

/-- EXTL or EXTR on two or more channels succeeds (spec/41_channel.md R101, R102). -/
abbrev ExtractReady (bd : BitVec 1) (s : State) : Prop :=
  2 ≤ s.channels ∧ s.op.source.valid s.platform = true ∧ s.srcBytes % (s.channels * bytesPerSample bd) = 0 ∧
    Storable s.platform s.op [s.op.source] (s.srcBytes / s.channels)

/-- RED2 on three or more channels succeeds (spec/41_channel.md R103). -/
abbrev ReduceReady (bd : BitVec 1) (s : State) : Prop :=
  3 ≤ s.channels ∧ s.op.source.valid s.platform = true ∧ s.srcBytes % (s.channels * bytesPerSample bd) = 0 ∧
    Storable s.platform s.op [s.op.source] (s.srcBytes / s.channels * 2)

/-- M2S succeeds (spec/41_channel.md R104). -/
abbrev DoubleReady (bd : BitVec 1) (s : State) : Prop :=
  s.op.source.valid s.platform = true ∧ s.srcBytes % bytesPerSample bd = 0 ∧
    Storable s.platform s.op [s.op.source] (2 * s.srcBytes)

/-- The mixer's track count `row` (spec/42_mixer.md R120). -/
abbrev State.rows (s : State) : Nat := s.op.param0.toNat

/-- Entry `r` of the mixer's track table (spec/42_mixer.md R121). -/
abbrev State.track (s : State) (r : Nat) : TrackEntry := trackEntry s.mem s.op.srcAddr.toNat r

/-- The parameters and source regions of a mixer command pass their checks (spec/42_mixer.md R120). -/
abbrev MixSources (s : State) : Prop :=
  1 ≤ s.rows ∧ s.rows ≤ 256 ∧ (tableRegion s.op).valid s.platform = true ∧
    ∀ r ∈ List.range s.rows, (s.track r).region.valid s.platform = true

/-- A mixer command succeeds (spec/42_mixer.md R120). -/
abbrev MixReady (s : State) : Prop :=
  MixSources s ∧ (∀ r ∈ List.range s.rows, (s.track r).region.len = (s.track 0).region.len) ∧
    (s.track 0).region.len % 2 = 0 ∧
    Storable s.platform s.op (tableRegion s.op :: (List.range s.rows).map fun r => (s.track r).region)
      (s.track 0).region.len

/-- ADTSENC succeeds (spec/43_adts.md R140). -/
abbrev AdtsencReady (prof : BitVec 2) (sfi : BitVec 4) (s : State) : Prop :=
  prof ≠ 3 ∧ sfi.toNat ≤ 12 ∧ s.op.param0.toNat + 7 ≤ 8191 ∧ Storable s.platform s.op [] 7

/-- A command names an output of `ob` bytes at DST_ADDR: its parameter, source and shape checks pass
(spec/40_resampler.md R90, R91, spec/41_channel.md R101 to R104, spec/42_mixer.md R120, spec/43_adts.md R140). -/
def State.NamesOutput (s : State) (i : Instr) (ob : Nat) : Prop :=
  match i with
  | .resample =>
    s.op.source.valid s.platform = true ∧
      ((s.op.param0 = s.op.param1 ∧ ob = s.srcBytes) ∨
        (s.op.param0 ≠ s.op.param1 ∧ s.op.param0 ≠ 0 ∧ s.srcBytes % 2 = 0 ∧ 1 ≤ s.outSamples ∧ ob = 2 * s.outSamples))
  | .extl bd | .extr bd =>
    s.op.source.valid s.platform = true ∧
      ((s.channels = 1 ∧ ob = s.srcBytes) ∨
        (2 ≤ s.channels ∧ s.srcBytes % (s.channels * bytesPerSample bd) = 0 ∧ ob = s.srcBytes / s.channels))
  | .red2 bd =>
    s.op.source.valid s.platform = true ∧
      ((s.channels ≤ 2 ∧ ob = s.srcBytes) ∨
        (3 ≤ s.channels ∧ s.srcBytes % (s.channels * bytesPerSample bd) = 0 ∧ ob = s.srcBytes / s.channels * 2))
  | .m2s bd => s.op.source.valid s.platform = true ∧ s.srcBytes % bytesPerSample bd = 0 ∧ ob = 2 * s.srcBytes
  | .mixext | .mixadd | .mixavg | .mixwgt =>
    MixSources s ∧ (∀ r ∈ List.range s.rows, (s.track r).region.len = (s.track 0).region.len) ∧
      (s.track 0).region.len % 2 = 0 ∧ ob = (s.track 0).region.len
  | .adtsenc prof sfi _ => prof ≠ 3 ∧ sfi.toNat ≤ 12 ∧ s.op.param0.toNat + 7 ≤ 8191 ∧ ob = 7
  | .adtsparse | .sfilookup | .sprepare | .sstart | .ssubmit | .sstop => False

/-- The configuration SPREPARE accepts of itself (spec/44_session_queue.md R160, spec/30_encoding.md R87): `c` is the
channel configuration of SCFG_CH. -/
abbrev ConfigValid (o : OperandRegs) (c : BitVec 3) : Prop :=
  o.scfgRate ≠ 0 ∧ o.scfgMode.extractLsb' 1 2 ≠ 3 ∧
    ((1 ≤ o.scfgCh.toNat ∧ o.scfgCh.toNat ≤ 6 ∧ c.toNat = o.scfgCh.toNat) ∨ (o.scfgCh.toNat = 8 ∧ c = 7))

/-- The configuration SPREPARE refuses of itself. -/
abbrev ConfigInvalid (o : OperandRegs) : Prop :=
  o.scfgRate = 0 ∨ o.scfgMode.extractLsb' 1 2 = 3 ∨ o.scfgCh.toNat = 0 ∨ o.scfgCh.toNat = 7 ∨ 8 < o.scfgCh.toNat

/-! ### What a successful data command leaves -/

/-- The signed little-endian sample at an address (spec/00_scope.md R3). -/
def sampleAt (m : Memory) (a : Nat) : Int := le16 (m.read a) (m.read (a + 1))

/-- `t` is `s` after a command that succeeded, wrote at most the region `dst` of memory and left these results: every
other register, the session, the queue and the ports are as before, BUSY has fallen, and every byte of memory outside the
region reads as before. -/
def State.Wrote (s t : State) (dst : Region) (r0 r1 : Word) : Prop :=
  t = { s with mem := t.mem, errCode := .ok, result0 := r0, result1 := r1, pending := none } ∧
    ∀ a, dst.holds a = false → t.mem.read a = s.mem.read a

/-- `t` is `s` after a command that raised an error: only the code, the two results and the latch differ. -/
def State.Failed (s t : State) (code : ErrCode) : Prop :=
  t = { s with errCode := code, result0 := 0, result1 := 0, pending := none }

end Sys2Proof.Machine
end

