-- ==== Sys2Proof/Certificates/Slice0/Obligations.lean ====
section
/-! DEFINITION. The statements for the provers, in the order of OBLIGATIONS.json. -/

open Sys2Proof Sys2Proof.Machine

/-! ### Encoding and decoding (spec/30_encoding.md) -/

/-- Every command's word decodes to it and every word that decodes is its command's word: no bit of a word is dropped
(spec/30_encoding.md R71, R74, R77). -/
def Obligations.DecodeEncodeAgree : Prop :=
  ∀ (w : Word) (i : Instr), decode w = .ok i ↔ encode i = w

/-- The decoder refuses a word exactly where its opcode lies in one of the reserved ranges of R78, or a bit its format
reserves is 1, or, said with the opcode table, where the word fits no row's match and mask. -/
def Obligations.DecodeRefusesReservedWords : Prop :=
  ∀ w : Word,
    (decode w = .error .reservedOpcode ↔
      (w.toNat % 256 ≤ 0x0F ∨ (0x11 ≤ w.toNat % 256 ∧ w.toNat % 256 ≤ 0x1F) ∨
        (0x24 ≤ w.toNat % 256 ∧ w.toNat % 256 ≤ 0x2F) ∨ (0x34 ≤ w.toNat % 256 ∧ w.toNat % 256 ≤ 0x3F) ∨
        (0x43 ≤ w.toNat % 256 ∧ w.toNat % 256 ≤ 0x4F) ∨ 0x54 ≤ w.toNat % 256)) ∧
    ((∃ e, decode w = .error e) ↔ wellFormedWord w = false)

/-- Words written out from the spec's encodings decode to the commands they stand for (spec/95_test_vectors.md 2.1). -/
def Obligations.SpecWordsDecode : Prop :=
  decode 0x00000010 = .ok .resample ∧ decode 0x00000120 = .ok (.extl 1) ∧ decode 0x00000021 = .ok (.extr 0) ∧
    decode 0x00000220 = .error .reservedBits ∧ decode 0x00000130 = .error .reservedBits ∧
    decode 0x00009140 = .ok (.adtsenc 1 4 2) ∧ decode 0x00020040 = .error .reservedBits ∧
    decode 0x00000000 = .error .reservedOpcode ∧ decode 0x00000054 = .error .reservedOpcode ∧
    decode 0x00000340 = .ok (.adtsenc 3 0 0) ∧ decode 0x00003540 = .ok (.adtsenc 1 13 0) ∧
    decode 0x80000053 = .error .reservedBits

/-! ### Steps, the command latch and completion -/

/-- A step is the next event: the head of the agenda where one is fixed, with the agenda one shorter; a free event
otherwise, with one draw counted (the model's choice, log 1). -/
def Obligations.StepRunsNextEvent : Prop :=
  (∀ (s : State) (e : Event) (rest : List Event), s.agenda = e :: rest → step s = runEvent e { s with agenda := rest }) ∧
    (∀ s : State, s.agenda = [] → step s = runEvent (Config.freeEvent s.draws) { s with draws := s.draws + 1 })

/-- When the latched word decodes to a command, a step of the command unit is that command's meaning at that state (the
agenda one shorter); an illegal word completes with ILLEGAL_CMD and changes nothing else; with nothing latched the
command unit changes nothing (spec/30_encoding.md R72, R74). -/
def Obligations.StepRunsLatchedCommand : Prop :=
  ∀ (s : State) (rest : List Event), s.agenda = .cu :: rest →
    (∀ (p : Pending) (i : Instr), s.pending = some p → decode p.word = .ok i →
      step s = exec i { s with agenda := rest }) ∧
    (∀ (p : Pending) (e : DecodeError), s.pending = some p → decode p.word = .error e →
      ∃ t, step s = .next t ∧ State.Failed { s with agenda := rest } t .illegalCmd) ∧
    (s.pending = none → step s = .next { s with agenda := rest })

/-- A host's CMD write latches the word with a snapshot of the operand registers when BUSY is 0, and is dropped with
STATUS.OVR set when BUSY is 1, everything else unchanged (spec/30_encoding.md R72, R73, spec/10_state.md R31). -/
def Obligations.CmdWriteLatchesOrDrops : Prop :=
  ∀ (s : State) (w : Word),
    (s.busy = false → runEvent (wr s.platform .cmd w) s = .next { s with pending := some ⟨w, s.regs⟩ }) ∧
    (s.busy = true → runEvent (wr s.platform .cmd w) s = .next { s with ovr := true })

/-- A latched command's completion does not depend on the live operand registers: with others in their place it completes
the same way, and leaves them as they are (spec/10_state.md R31, R22, spec/20_memory.md R65). -/
def Obligations.LatchedCommandIgnoresLiveRegisters : Prop :=
  ∀ (i : Instr) (s : State) (p : Pending) (r : OperandRegs), s.pending = some p →
    exec i { s with regs := r } = withRegs r (exec i s)

/-- A command whose code is not OK has written no memory and changed no session, queue or port, its results are 0 and
BUSY has fallen; only the CONFIG_FAIL of SPREPARE also writes SERR and emits its message (spec/60_exceptions.md R188). -/
def Obligations.FailedCommandLeavesNothing : Prop :=
  ∀ (i : Instr) (s t : State), exec i s = .next t → t.errCode ≠ .ok →
    t.mem = s.mem ∧ t.sess = s.sess ∧ t.queue = s.queue ∧ t.codecIn = s.codecIn ∧ t.codecOut = s.codecOut ∧
      t.result0 = 0 ∧ t.result1 = 0 ∧ t.pending = none ∧ t.regs = s.regs ∧ t.ovr = s.ovr ∧
      ((t.serr = s.serr ∧ t.outLog = s.outLog) ∨
        (i = .sprepare ∧ t.errCode = .configFail ∧ t.serr = .configFail ∧
          t.outLog = s.outLog ++ [.error .configFail]))

/-! ### Registers and reset -/

/-- Reset leaves CTRL 1 and every other readable register 0, nothing latched, an Idle session with every field 0, an
empty queue, empty codec ports and an empty output port (spec/70_reset_and_hazards.md R210). -/
def Obligations.ResetLeavesTheSpecsValues : Prop :=
  State.reset.readReg .ctrl = 1 ∧ (∀ r : Reg, r ≠ .ctrl → State.reset.readReg r = 0) ∧
    State.reset.pending = none ∧ State.reset.sess.state = .idle ∧ State.reset.sess = Session.reset ∧
    State.reset.queue = [] ∧ State.reset.codecIn = [] ∧ State.reset.codecOut = [] ∧ State.reset.outLog = []

/-- Asserting reset at any time puts every piece of block state at its reset value in one step and leaves bus memory; a
latched command and a session are gone, no END is emitted and the device gets no CodecRelease
(spec/70_reset_and_hazards.md R210, R211). The last clause is the model's choice: CodecRelease is looked for in the model's
own record of calls (log 7), which reset empties (log 15). -/
def Obligations.ResetInputClearsTheBlock : Prop :=
  ∀ s : State, ∃ t, runEvent .reset s = .next t ∧ t.mem = s.mem ∧ t.platform = s.platform ∧
    t.readReg .ctrl = 1 ∧ (∀ r : Reg, r ≠ .ctrl → t.readReg r = 0) ∧ t.ovr = false ∧ t.errCode = .ok ∧
    t.serr = .ok ∧ t.pending = none ∧ t.queue = [] ∧ t.sess = Session.reset ∧ t.codecIn = [] ∧ t.codecOut = [] ∧
    t.outLog = [] ∧ CodecCall.release ∉ t.codecCalls

/-- A host's write of CTRL, of an operand register or of a session configuration register changes that register's writable
bits and nothing else of the whole block: no session, queue or port, no latched snapshot. They read back what was
written, CTRL and SCFG_MODE through their writable bits, and no other register reads differently. A reserved offset reads
0 and so does CMD; writes to reserved offsets and to read-only registers are ignored (spec/10_state.md R22, R24, R26,
R28). -/
def Obligations.RegistersReadBackOrIgnoreWrites : Prop :=
  ∀ (s : State) (w : Word),
    (∀ r ∈ [Reg.srcAddr, .srcLen, .dstAddr, .dstCap, .param0, .param1, .scfgRate, .scfgCh, .scfgBitrate, .scfgPoll],
      (s.writeOffset r.offset w).readOffset r.offset = w ∧
        ∀ q : Reg, q ≠ r → (s.writeOffset r.offset w).readReg q = s.readReg q) ∧
    (s.writeReg .ctrl w).readReg .ctrl = w &&& 1 ∧ (s.writeReg .scfgMode w).readReg .scfgMode = w &&& 0xF ∧
    (∀ r ∈ [Reg.ctrl, .scfgMode], ∀ q : Reg, q ≠ r → (s.writeOffset r.offset w).readReg q = s.readReg q) ∧
    (s.writeOffset Reg.ctrl.offset w = { s with regs := { s.regs with adtsId := w.extractLsb' 0 1 } } ∧
      s.writeOffset Reg.srcAddr.offset w = { s with regs := { s.regs with srcAddr := w } } ∧
      s.writeOffset Reg.srcLen.offset w = { s with regs := { s.regs with srcLen := w } } ∧
      s.writeOffset Reg.dstAddr.offset w = { s with regs := { s.regs with dstAddr := w } } ∧
      s.writeOffset Reg.dstCap.offset w = { s with regs := { s.regs with dstCap := w } } ∧
      s.writeOffset Reg.param0.offset w = { s with regs := { s.regs with param0 := w } } ∧
      s.writeOffset Reg.param1.offset w = { s with regs := { s.regs with param1 := w } } ∧
      s.writeOffset Reg.scfgRate.offset w = { s with regs := { s.regs with scfgRate := w } } ∧
      s.writeOffset Reg.scfgCh.offset w = { s with regs := { s.regs with scfgCh := w } } ∧
      s.writeOffset Reg.scfgMode.offset w = { s with regs := { s.regs with scfgMode := w.extractLsb' 0 4 } } ∧
      s.writeOffset Reg.scfgBitrate.offset w = { s with regs := { s.regs with scfgBitrate := w } } ∧
      s.writeOffset Reg.scfgPoll.offset w = { s with regs := { s.regs with scfgPoll := w } }) ∧
    (∀ off : Nat, ((0x30 ≤ off ∧ off ≤ 0x3C) ∨ (0x70 ≤ off ∧ off ≤ 0xFC)) →
      s.readOffset off = 0 ∧ s.writeOffset off w = s) ∧
    (∀ r ∈ [Reg.errcode, .result0, .result1, .sstatus, .serr, .qcount, .fedCount, .ptsLo, .ptsHi, .emitCount],
      s.writeOffset r.offset w = s) ∧
    s.readOffset Reg.cmd.offset = 0

/-- STATUS: bit 0 is 1 exactly while a command is latched, bit 1 exactly where ERRCODE's code is not 0, bit 2 is OVR, the
rest 0; a write with bit 2 set clears OVR and any other write changes nothing (spec/10_state.md R27). ERRCODE and SERR
read as the code of spec/60_exceptions.md R186 with bits 31:8 zero, RESULT0 and RESULT1 as the results that the last
completion left (spec/10_state.md R23, R29). -/
def Obligations.StatusBitsAndOverrunClear : Prop :=
  ∀ (s : State) (w : Word),
    ((s.readReg .status).getLsbD 0 = s.pending.isSome) ∧
    ((s.readReg .status).getLsbD 1 = decide ((s.readReg .errcode).toNat % 256 ≠ 0)) ∧
    ((s.readReg .status).getLsbD 2 = s.ovr) ∧ (s.readReg .status).toNat < 8 ∧
    (w.getLsbD 2 = true → s.writeReg .status w = { s with ovr := false }) ∧
    (w.getLsbD 2 = false → s.writeReg .status w = s) ∧
    (∀ q ∈ [(ErrCode.ok, 0x00), (.illegalCmd, 0x01), (.badParam, 0x02), (.shape, 0x03), (.zeroLength, 0x04), (.range, 0x05),
        (.capacity, 0x06), (.overlap, 0x07), (.badState, 0x08), (.queueFull, 0x09), (.submitAfterStop, 0x0A),
        (.badSync, 0x0B), (.configFail, 0x0C), (.frameTooLong, 0x0D)],
      (s.errCode = q.1 → (s.readReg .errcode).toNat = q.2) ∧ (s.serr = q.1 → (s.readReg .serr).toNat = q.2)) ∧
    (∀ (code : ErrCode) (r0 r1 : Word),
      (s.complete code r0 r1).readReg .result0 = r0 ∧ (s.complete code r0 r1).readReg .result1 = r1) ∧
    s.readReg .result0 = s.result0 ∧ s.readReg .result1 = s.result1

/-- The read-only session registers are views of the session record and the queue, field by field
(spec/10_state.md R30 and the map of section 4): STATE reads Idle 0, Prepared 1, Running 2, Draining 3, Released 4. -/
def Obligations.SessionRegistersAreViews : Prop :=
  ∀ s : State,
    (∀ q ∈ [(SessState.idle, 0), (.prepared, 1), (.running, 2), (.draining, 3), (.released, 4)],
      s.sess.state = q.1 → ((s.readReg .sstatus).extractLsb' 0 3).toNat = q.2) ∧
    (s.readReg .sstatus).getLsbD 3 = s.sess.stopReq ∧ (s.readReg .sstatus).getLsbD 4 = s.sess.inDone ∧
    (s.readReg .sstatus).getLsbD 5 = s.sess.outDone ∧
    (s.readReg .sstatus).getLsbD 6 = decide (s.sess.dir = .decode) ∧
    (s.readReg .sstatus).getLsbD 7 = s.sess.sfiFallback ∧
    (s.readReg .sstatus).extractLsb' 8 4 = s.sess.sfi ∧ (s.readReg .sstatus).extractLsb' 12 3 = s.sess.chcfg ∧
    (s.readReg .sstatus).getLsbD 15 = false ∧ (s.readReg .sstatus).extractLsb' 16 2 = s.sess.profile ∧
    (s.readReg .sstatus).extractLsb' 18 14 = 0 ∧
    (s.readReg .qcount).toNat = s.queue.length % 2 ^ 32 ∧ (s.readReg .fedCount).toNat = s.sess.fedCount % 2 ^ 32 ∧
    (s.readReg .emitCount).toNat = s.sess.emitCount % 2 ^ 32 ∧
    (s.readReg .ptsHi ++ s.readReg .ptsLo : BitVec 64) = s.sess.pts

/-- A host register access has its effect exactly where it is 32 bits wide at a multiple of 4 below 0x100 from REG_BASE; any
other is a fault of the host program (spec/20_memory.md R54). A read answers the register, BUSY or not, with the block
unchanged; only a host that takes RESULT0, RESULT1 or ERRCODE as the result of a command still pending faults
(spec/70_reset_and_hazards.md R220; the flag that says so is the model's, log 9). What a read of FED_COUNT hands back is
the model's own record (log 10). -/
def Obligations.RegisterWindowAccess : Prop :=
  ∀ (s : State) (off : Nat) (data : Word) (asResult : Bool), off < 2 ^ 32 →
    let addr := s.platform.regBase + BitVec.ofNat 32 off
    let tooEarly := asResult = true ∧ s.busy = true ∧ (off = 0x08 ∨ off = 0x28 ∨ off = 0x2C)
    (off % 4 = 0 → off < 0x100 →
      runEvent (.hostWriteReg addr .word data) s = .next (s.writeOffset off data) ∧
      (¬ tooEarly → runEvent (.hostReadReg addr .word asResult) s = .next { s with
        reply := .word (s.readOffset off),
        fedUnseen := if off = 0x60 then s.fedUnseen.filter (fun f => decide (s.sess.fedCount ≤ f.index))
          else s.fedUnseen }) ∧
      (tooEarly → runEvent (.hostReadReg addr .word asResult) s = .fault .resultWhileBusy)) ∧
    (∀ width : Width, width ≠ .word ∨ off % 4 ≠ 0 ∨ 0x100 ≤ off →
      runEvent (.hostReadReg addr width asResult) s = .fault .badRegisterAccess ∧
      runEvent (.hostWriteReg addr width data) s = .fault .badRegisterAccess)

/-! ### Host hazards -/

/-- While a command is pending, a host write that overlaps a region the command reads (its source, its mixer table or
tracks, the seven bytes of an ADTSPARSE), and a host read or write that overlaps its destination, is a fault; a read that
overlaps no destination answers (spec/70_reset_and_hazards.md R220). The destination has the output byte count of
spec/40_resampler.md to spec/43_adts.md, whether or not the destination checks will pass; which regions a command names
that will fail before is the model's choice (log 9). -/
def Obligations.PendingRegionsFaultHostAccess : Prop :=
  ∀ (s : State) (p : Pending) (i : Instr) (addr : Word) (bytes : List Byte), s.pending = some p → decode p.word = .ok i →
    Region.valid ⟨addr.toNat, bytes.length⟩ s.platform = true →
    let access : Region := ⟨addr.toNat, bytes.length⟩
    let writeFaults := runEvent (.hostWriteMem addr bytes) s = .fault .touchesPending
    let reads := fun len : Word => runEvent (.hostReadMem addr len) s
    ((∃ bd, i = .resample ∨ i = .extl bd ∨ i = .extr bd ∨ i = .red2 bd ∨ i = .m2s bd) →
      access.overlaps p.op.source = true → writeFaults) ∧
    ((i = .mixext ∨ i = .mixadd ∨ i = .mixavg ∨ i = .mixwgt) → 1 ≤ s.rows → s.rows ≤ 256 →
      (access.overlaps (tableRegion p.op) = true → writeFaults) ∧
      ((tableRegion p.op).valid s.platform = true → ∀ r < s.rows,
        access.overlaps (s.track r).region = true → writeFaults)) ∧
    (i = .adtsparse → access.overlaps ⟨p.op.srcAddr.toNat, min p.op.srcLen.toNat 7⟩ = true → writeFaults) ∧
    (∀ ob : Nat, s.NamesOutput i ob → access.overlaps ⟨p.op.dstAddr.toNat, ob⟩ = true →
      writeFaults ∧ ∀ len : Word, len.toNat = bytes.length → reads len = .fault .touchesPending) ∧
    ((∀ ob : Nat, s.NamesOutput i ob → access.overlaps ⟨p.op.dstAddr.toNat, ob⟩ = false) →
      ∀ len : Word, len.toNat = bytes.length →
        reads len = .next { s with reply := .bytes (s.mem.readBytes addr.toNat bytes.length) })

/-- A host write to a chunk that is queued, or fed but not yet seen passed, is a fault whether or not a command is pending:
the fault of this rule, where the write overlaps no region of a pending command, and else that fault or the pending
command's. A read of FED_COUNT hands back every chunk whose number in its session lies below the count read
(spec/70_reset_and_hazards.md R223). The list of fed chunks is the model's own (log 10), and that one host's read frees a
chunk for every host is its choice (log 18). -/
def Obligations.QueuedChunksFaultHostWrites : Prop :=
  (∀ (s : State) (c : Chunk) (addr : Word) (bytes : List Byte),
    let access : Region := ⟨addr.toNat, bytes.length⟩
    let answer := runEvent (.hostWriteMem addr bytes) s
    (c ∈ s.queue ∨ ∃ k, FedChunk.mk c k ∈ s.fedUnseen) → access.valid s.platform = true →
    access.overlaps c.region = true →
    (answer = .fault .touchesQueuedChunk ∨ answer = .fault .touchesPending) ∧
      ((∀ r ∈ s.pendingReads ++ s.pendingDest, access.overlaps r = false) → answer = .fault .touchesQueuedChunk)) ∧
  (∀ s : State, ∃ t, runEvent (rd s.platform .fedCount) s = .next t ∧
    t = { s with fedUnseen := t.fedUnseen, reply := .word (BitVec.ofNat 32 s.sess.fedCount) } ∧
    ∀ f : FedChunk, f ∈ t.fedUnseen ↔ f ∈ s.fedUnseen ∧ s.sess.fedCount ≤ f.index)

/-- A host's memory write inside memory that overlaps no region of a pending command and no chunk handed over stores exactly
its bytes, and a host's memory read that overlaps no destination of one answers the bytes as they are, rising addresses
first; both leave the block alone. With nothing pending and nothing handed over there is no such region
(spec/10_state.md R46, R20). -/
def Obligations.HostMemoryAccess : Prop :=
  ∀ (s : State) (addr : Word) (bytes : List Byte),
    let access : Region := ⟨addr.toNat, bytes.length⟩
    access.valid s.platform = true →
    ((∀ r ∈ s.pendingReads ++ s.pendingDest ++ s.lentRegions, access.overlaps r = false) →
      ∃ t, runEvent (.hostWriteMem addr bytes) s = .next t ∧ t = { s with mem := t.mem } ∧
        (∀ k < bytes.length, some (t.mem.read (addr.toNat + k)) = bytes[k]?) ∧
        ∀ a, access.holds a = false → t.mem.read a = s.mem.read a) ∧
    (∀ len : Word, len.toNat = bytes.length → (∀ r ∈ s.pendingDest, access.overlaps r = false) →
      ∃ l, runEvent (.hostReadMem addr len) s = .next { s with reply := .bytes l } ∧ l.length = bytes.length ∧
        ∀ k < bytes.length, l[k]? = some (s.mem.read (addr.toNat + k))) ∧
    (s.pending = none → s.queue = [] → s.fedUnseen = [] → s.pendingReads ++ s.pendingDest ++ s.lentRegions = [])

/-! ### Resampler (spec/40_resampler.md) -/

/-- RESAMPLE on equal rates copies the source bytes, whatever their number (R91). -/
def Obligations.ResampleEqualRatesCopies : Prop :=
  ∀ s : State, ResampleCopies s →
    ∃ t, exec .resample s = .next t ∧
      s.Wrote t ⟨s.op.dstAddr.toNat, s.srcBytes⟩ s.op.srcLen (BitVec.ofNat 32 (s.srcBytes / 2)) ∧
      ∀ k < s.srcBytes, t.mem.read (s.op.dstAddr.toNat + k) = s.mem.read (s.op.srcAddr.toNat + k)

/-- RESAMPLE on unequal rates writes `outSamples` samples: the first source sample where there is one (R94), and otherwise
at index `n` the interpolation of R93 with exact arithmetic and one truncation toward zero (R90, R92, R93). -/
def Obligations.ResampleInterpolates : Prop :=
  ∀ s : State, ResampleRuns s →
    ∃ t, exec .resample s = .next t ∧
      s.Wrote t ⟨s.op.dstAddr.toNat, 2 * s.outSamples⟩ (BitVec.ofNat 32 (2 * s.outSamples))
        (BitVec.ofNat 32 s.outSamples) ∧
      ∀ n < s.outSamples,
        let x := fun k : Nat => sampleAt s.mem (s.op.srcAddr.toNat + 2 * k)
        let d := s.outSamples - 1
        let p := n * (s.srcBytes / 2 - 1)
        sampleAt t.mem (s.op.dstAddr.toNat + 2 * n) =
          if s.outSamples = 1 then x 0
          else if p % d = 0 then x (p / d)
          else (x (p / d) * d + (p % d : Nat) * (x (p / d + 1) - x (p / d))).tdiv d

/-- A region is valid exactly where its end is at most MEM_BYTES (spec/20_memory.md R51), and two regions overlap exactly
where neither is empty and each begins before the other ends (R52); and in those terms RESAMPLE's errors in their order
(R90). -/
def Obligations.ResampleErrors : Prop :=
  (∀ (r : Region) (p : Platform), r.valid p = true ↔ r.addr + r.len ≤ p.topAddr.toNat + 1) ∧
  (∀ a b : Region, a.overlaps b = true ↔
    0 < a.len ∧ 0 < b.len ∧ a.addr < b.addr + b.len ∧ b.addr < a.addr + a.len) ∧
  ∀ s : State,
    let src := s.op.source
    let fails := fun c => ∃ t, exec .resample s = .next t ∧ s.Failed t c
    let toStore := fun ob : Nat =>
      (s.op.dstCap.toNat < ob → fails .capacity) ∧
      (ob ≤ s.op.dstCap.toNat → Region.valid ⟨s.op.dstAddr.toNat, ob⟩ s.platform = false → fails .range) ∧
      (ob ≤ s.op.dstCap.toNat → Region.valid ⟨s.op.dstAddr.toNat, ob⟩ s.platform = true →
        Region.overlaps ⟨s.op.dstAddr.toNat, ob⟩ src = true → fails .overlap)
    (s.op.param0 = s.op.param1 → (src.valid s.platform = false → fails .range) ∧
      (src.valid s.platform = true → toStore s.srcBytes)) ∧
    (s.op.param0 ≠ s.op.param1 →
      (s.op.param0 = 0 → fails .badParam) ∧
      (s.op.param0 ≠ 0 → src.valid s.platform = false → fails .range) ∧
      (s.op.param0 ≠ 0 → src.valid s.platform = true → s.srcBytes % 2 = 1 → fails .shape) ∧
      (s.op.param0 ≠ 0 → src.valid s.platform = true → s.srcBytes % 2 = 0 →
        (s.outSamples = 0 → fails .zeroLength) ∧ (1 ≤ s.outSamples → toStore (2 * s.outSamples))))

/-- The interpolated sample lies between the two samples it comes from, and the first and last samples are kept (the spec's
own inference from R93). -/
def Obligations.InterpolationStaysBetweenSamples : Prop :=
  ∀ (x : List Int) (outLen n : Nat), 1 ≤ x.length → 2 ≤ outLen → n < outLen →
    let f := n * (x.length - 1) / (outLen - 1)
    (∃ c, f ≤ c ∧ c ≤ f + 1 ∧ c < x.length ∧
      min (x.getD f 0) (x.getD c 0) ≤ interp x x.length outLen n ∧
      interp x x.length outLen n ≤ max (x.getD f 0) (x.getD c 0)) ∧
    interp x x.length outLen 0 = x.getD 0 0 ∧
    interp x x.length outLen (outLen - 1) = x.getD (x.length - 1) 0

/-! ### Channel multiplexer (spec/41_channel.md) -/

/-- EXTL and EXTR on two or more channels take one channel of each frame: EXTL channel index 0, EXTR channel index 1,
whatever the channel count (R101, R102). -/
def Obligations.ExtractTakesOneChannel : Prop :=
  ∀ (bd : BitVec 1) (i : Instr) (off : Nat) (s : State), ExtractReady bd s →
    (i = .extl bd ∧ off = 0 ∨ i = .extr bd ∧ off = bytesPerSample bd) →
    ∃ t, exec i s = .next t ∧
      s.Wrote t ⟨s.op.dstAddr.toNat, s.srcBytes / s.channels⟩ (BitVec.ofNat 32 (s.srcBytes / s.channels)) 0 ∧
      ∀ f < s.srcBytes / (s.channels * bytesPerSample bd), ∀ j < bytesPerSample bd,
        t.mem.read (s.op.dstAddr.toNat + (f * bytesPerSample bd + j)) =
          s.mem.read (s.op.srcAddr.toNat + (f * (s.channels * bytesPerSample bd) + off + j))

/-- RED2 on three or more channels takes the first two channels of each frame (R103). -/
def Obligations.Red2TakesFirstTwoChannels : Prop :=
  ∀ (bd : BitVec 1) (s : State), ReduceReady bd s →
    ∃ t, exec (.red2 bd) s = .next t ∧
      s.Wrote t ⟨s.op.dstAddr.toNat, s.srcBytes / s.channels * 2⟩ (BitVec.ofNat 32 (s.srcBytes / s.channels * 2)) 0 ∧
      ∀ f < s.srcBytes / (s.channels * bytesPerSample bd), ∀ j < 2 * bytesPerSample bd,
        t.mem.read (s.op.dstAddr.toNat + (f * (2 * bytesPerSample bd) + j)) =
          s.mem.read (s.op.srcAddr.toNat + (f * (s.channels * bytesPerSample bd) + j))

/-- M2S writes every sample twice (R104). -/
def Obligations.M2sDoublesEverySample : Prop :=
  ∀ (bd : BitVec 1) (s : State), DoubleReady bd s →
    ∃ t, exec (.m2s bd) s = .next t ∧
      s.Wrote t ⟨s.op.dstAddr.toNat, 2 * s.srcBytes⟩ (BitVec.ofNat 32 (2 * s.srcBytes)) 0 ∧
      ∀ k < s.srcBytes / bytesPerSample bd, ∀ j < bytesPerSample bd,
        let b := s.mem.read (s.op.srcAddr.toNat + (k * bytesPerSample bd + j))
        t.mem.read (s.op.dstAddr.toNat + (2 * k * bytesPerSample bd + j)) = b ∧
          t.mem.read (s.op.dstAddr.toNat + ((2 * k + 1) * bytesPerSample bd + j)) = b

/-- The identity paths: EXTL and EXTR on one channel and RED2 on at most two (0 included) copy any number of bytes
(R101, R102, R103). -/
def Obligations.ChannelIdentityCopies : Prop :=
  ∀ (bd : BitVec 1) (i : Instr) (s : State), CopyReady s →
    ((i = .extl bd ∨ i = .extr bd) ∧ s.channels = 1 ∨ i = .red2 bd ∧ s.channels ≤ 2) →
    ∃ t, exec i s = .next t ∧ s.Wrote t ⟨s.op.dstAddr.toNat, s.srcBytes⟩ s.op.srcLen 0 ∧
      ∀ k < s.srcBytes, t.mem.read (s.op.dstAddr.toNat + k) = s.mem.read (s.op.srcAddr.toNat + k)

/-- The parameter, source and shape errors of the channel commands, in their order (R101 to R104). -/
def Obligations.ChannelSourceErrors : Prop :=
  ∀ (bd : BitVec 1) (s : State),
    let fails := fun i c => ∃ t, exec i s = .next t ∧ s.Failed t c
    let src := s.op.source
    (s.channels = 0 → fails (.extl bd) .badParam ∧ fails (.extr bd) .badParam) ∧
    (src.valid s.platform = false →
      (1 ≤ s.channels → fails (.extl bd) .range ∧ fails (.extr bd) .range) ∧
        fails (.red2 bd) .range ∧ fails (.m2s bd) .range) ∧
    (src.valid s.platform = true →
      (2 ≤ s.channels → s.srcBytes % (s.channels * bytesPerSample bd) ≠ 0 →
        fails (.extl bd) .shape ∧ fails (.extr bd) .shape ∧ (3 ≤ s.channels → fails (.red2 bd) .shape)) ∧
      (s.srcBytes % bytesPerSample bd ≠ 0 → fails (.m2s bd) .shape))

/-- The destination errors of the channel commands, in their order CAPACITY, RANGE, OVERLAP (R100). `ob` is the output byte
count of each command on sources that passed their checks. -/
def Obligations.ChannelDestinationErrors : Prop :=
  ∀ (bd : BitVec 1) (i : Instr) (s : State) (ob : Nat), s.op.source.valid s.platform = true →
    ((i = .extl bd ∨ i = .extr bd) ∧ 1 ≤ s.channels ∧
        (s.channels = 1 ∨ s.srcBytes % (s.channels * bytesPerSample bd) = 0) ∧ ob = s.srcBytes / s.channels ∨
      i = .red2 bd ∧ s.channels ≤ 2 ∧ ob = s.srcBytes ∨
      i = .red2 bd ∧ 3 ≤ s.channels ∧ s.srcBytes % (s.channels * bytesPerSample bd) = 0 ∧
        ob = s.srcBytes / s.channels * 2 ∨
      i = .m2s bd ∧ s.srcBytes % bytesPerSample bd = 0 ∧ ob = 2 * s.srcBytes) →
    let fails := fun c => ∃ t, exec i s = .next t ∧ s.Failed t c
    (s.op.dstCap.toNat < ob → fails .capacity) ∧
    (ob ≤ s.op.dstCap.toNat → Region.valid ⟨s.op.dstAddr.toNat, ob⟩ s.platform = false → fails .range) ∧
    (ob ≤ s.op.dstCap.toNat → Region.valid ⟨s.op.dstAddr.toNat, ob⟩ s.platform = true →
      Region.overlaps ⟨s.op.dstAddr.toNat, ob⟩ s.op.source = true → fails .overlap)

/-- Widening then extracting gives the mono samples back, left or right, at both depths (the spec's own inference, R105):
EXTL or EXTR with two channels on the bytes an M2S wrote writes the bytes the M2S read. -/
def Obligations.ExtractAfterWidenIsIdentity : Prop :=
  ∀ (bd : BitVec 1) (i : Instr) (s t u : State), (i = .extl bd ∨ i = .extr bd) → DoubleReady bd s →
    exec (.m2s bd) s = .next t → u.mem = t.mem → u.op.source = ⟨s.op.dstAddr.toNat, 2 * s.srcBytes⟩ →
    u.channels = 2 → ExtractReady bd u →
    ∃ v, exec i u = .next v ∧ v.errCode = .ok ∧ v.result0 = s.op.srcLen ∧
      ∀ k < s.srcBytes, v.mem.read (u.op.dstAddr.toNat + k) = s.mem.read (s.op.srcAddr.toNat + k)

/-! ### Mixer (spec/42_mixer.md) -/

/-- MIXADD: every output sample is the tracks' sum, its low 16 bits read as a signed sample (R124). -/
def Obligations.MixaddSumsAndWraps : Prop :=
  ∀ s : State, MixReady s →
    ∃ t, exec .mixadd s = .next t ∧
      s.Wrote t ⟨s.op.dstAddr.toNat, (s.track 0).region.len⟩ (BitVec.ofNat 32 (s.track 0).region.len)
        (BitVec.ofNat 32 ((s.track 0).region.len / 2)) ∧
      ∀ k < (s.track 0).region.len / 2,
        sampleAt t.mem (s.op.dstAddr.toNat + 2 * k) =
          wrap16 ((List.range s.rows).map fun r => sampleAt s.mem ((s.track r).region.addr + 2 * k)).sum

/-- MIXEXT: every output sample is the greatest plus the least track sample, wrapped, or the sample itself where all are
equal (R123). -/
def Obligations.MixextAddsExtremes : Prop :=
  ∀ s : State, MixReady s →
    ∃ t, exec .mixext s = .next t ∧
      s.Wrote t ⟨s.op.dstAddr.toNat, (s.track 0).region.len⟩ (BitVec.ofNat 32 (s.track 0).region.len)
        (BitVec.ofNat 32 ((s.track 0).region.len / 2)) ∧
      ∀ k < (s.track 0).region.len / 2, ∀ mx mn : Int,
        let xs := (List.range s.rows).map fun r => sampleAt s.mem ((s.track r).region.addr + 2 * k)
        mx ∈ xs → mn ∈ xs → (∀ x ∈ xs, mn ≤ x ∧ x ≤ mx) →
        sampleAt t.mem (s.op.dstAddr.toNat + 2 * k) = if mx ≠ mn then wrap16 (mx + mn) else mx

/-- MIXAVG: every output sample is the tracks' sum over their count, truncated toward zero (R125). -/
def Obligations.MixavgDividesTowardZero : Prop :=
  ∀ s : State, MixReady s →
    ∃ t, exec .mixavg s = .next t ∧
      s.Wrote t ⟨s.op.dstAddr.toNat, (s.track 0).region.len⟩ (BitVec.ofNat 32 (s.track 0).region.len)
        (BitVec.ofNat 32 ((s.track 0).region.len / 2)) ∧
      ∀ k < (s.track 0).region.len / 2,
        sampleAt t.mem (s.op.dstAddr.toNat + 2 * k) =
          ((List.range s.rows).map fun r => sampleAt s.mem ((s.track r).region.addr + 2 * k)).sum.tdiv s.rows

/-- MIXWGT: every output sample is the sum of sample times weight, over 65536 toward zero, then wrapped (R126). -/
def Obligations.MixwgtWeighsInFixedPoint : Prop :=
  ∀ s : State, MixReady s →
    ∃ t, exec .mixwgt s = .next t ∧
      s.Wrote t ⟨s.op.dstAddr.toNat, (s.track 0).region.len⟩ (BitVec.ofNat 32 (s.track 0).region.len)
        (BitVec.ofNat 32 ((s.track 0).region.len / 2)) ∧
      ∀ k < (s.track 0).region.len / 2,
        sampleAt t.mem (s.op.dstAddr.toNat + 2 * k) =
          wrap16 (((List.range s.rows).map fun r =>
            sampleAt s.mem ((s.track r).region.addr + 2 * k) * (s.track r).weight).sum.tdiv 65536)

/-- The mixer's errors in their order, for every strategy (R120). -/
def Obligations.MixerErrors : Prop :=
  ∀ (i : Instr) (s : State), (i = .mixext ∨ i = .mixadd ∨ i = .mixavg ∨ i = .mixwgt) →
    let fails := fun c => ∃ t, exec i s = .next t ∧ s.Failed t c
    let n0 := (s.track 0).region.len
    let same := ∀ r < s.rows, (s.track r).region.len = n0
    let dst : Region := ⟨s.op.dstAddr.toNat, n0⟩
    (s.rows = 0 ∨ 256 < s.rows → fails .badParam) ∧
    (1 ≤ s.rows → s.rows ≤ 256 → (tableRegion s.op).valid s.platform = false → fails .range) ∧
    (1 ≤ s.rows → s.rows ≤ 256 → (tableRegion s.op).valid s.platform = true →
      (∃ r < s.rows, (s.track r).region.valid s.platform = false) → fails .range) ∧
    (MixSources s →
      (¬ same → fails .shape) ∧ (same → n0 % 2 = 1 → fails .shape) ∧
      (same → n0 % 2 = 0 →
        (s.op.dstCap.toNat < n0 → fails .capacity) ∧
        (n0 ≤ s.op.dstCap.toNat → dst.valid s.platform = false → fails .range) ∧
        (n0 ≤ s.op.dstCap.toNat → dst.valid s.platform = true →
          (dst.overlaps (tableRegion s.op) = true ∨ ∃ r < s.rows, dst.overlaps (s.track r).region = true) →
          fails .overlap)))

/-- The track table's layout: 12-byte entries, little-endian, address, length, signed weight (R121, spec/00_scope.md R4). -/
def Obligations.TrackTableIsLittleEndian : Prop :=
  ∀ (m : Memory) (tbl r : Nat),
    let e := tbl + 12 * r
    let word := fun a => (m.read a).toNat + 2 ^ 8 * (m.read (a + 1)).toNat + 2 ^ 16 * (m.read (a + 2)).toNat +
      2 ^ 24 * (m.read (a + 3)).toNat
    (trackEntry m tbl r).region.addr = word e ∧ (trackEntry m tbl r).region.len = word (e + 4) ∧
      (trackEntry m tbl r).weight =
        if word (e + 8) < 2 ^ 31 then (word (e + 8) : Int) else (word (e + 8) : Int) - 2 ^ 32

/-- The sample codec and its inverse: `le16` reads the signed little-endian value of two bytes, and writing a value and
reading it back gives `wrap16` of it, the value itself where it is a 16-bit sample (spec/00_scope.md R1, R3). -/
def Obligations.SampleCodecRoundTrip : Prop :=
  (∀ b0 b1 : Byte, le16 b0 b1 = if b0.toNat + 256 * b1.toNat < 32768 then (b0.toNat + 256 * b1.toNat : Int)
    else (b0.toNat + 256 * b1.toNat : Int) - 65536) ∧
  (∀ v : Int, wrap16 v = if v % 65536 < 32768 then v % 65536 else v % 65536 - 65536) ∧
  (∀ seq : List Int, samples16 (bytes16 seq) = seq.map wrap16) ∧
  (∀ v : Int, -32768 ≤ v → v ≤ 32767 → wrap16 v = v)

/-! ### ADTS framer (spec/43_adts.md) -/

/-- ADTSENC writes the seven header bytes with the snapshot's MPEG id and answers the frame length; profile 3, an index
above 12 or a frame length above 8191 is BAD_PARAM, and then the destination is checked, CAPACITY before RANGE (R140; the
bytes are those R144 derives from the wire format of spec/30_encoding.md R85). -/
def Obligations.AdtsencWritesHeaderOrFails : Prop :=
  ∀ (prof : BitVec 2) (sfi : BitVec 4) (cc : BitVec 3) (s : State),
    let fl := s.op.param0.toNat + 7
    let fails := fun c => ∃ t, exec (.adtsenc prof sfi cc) s = .next t ∧ s.Failed t c
    (AdtsencReady prof sfi s →
      ∃ t, exec (.adtsenc prof sfi cc) s = .next t ∧ s.Wrote t ⟨s.op.dstAddr.toNat, 7⟩ (BitVec.ofNat 32 fl) 0 ∧
        let b := fun k : Nat => (t.mem.read (s.op.dstAddr.toNat + k)).toNat
        b 0 = 0xFF ∧ b 1 = 0xF0 ||| s.op.adtsId.toNat <<< 3 ||| 0x01 ∧
          b 2 = prof.toNat <<< 6 ||| sfi.toNat <<< 2 ||| cc.toNat >>> 2 ∧ b 3 = (cc.toNat &&& 3) <<< 6 ||| fl >>> 11 ∧
          b 4 = (fl >>> 3) &&& 0xFF ∧ b 5 = (fl &&& 7) <<< 5 ||| 0x1F ∧ b 6 = 0xFC) ∧
    (prof = 3 ∨ 12 < sfi.toNat ∨ 8191 < fl → fails .badParam) ∧
    (prof ≠ 3 → sfi.toNat ≤ 12 → fl ≤ 8191 →
      (s.op.dstCap.toNat < 7 → fails .capacity) ∧
      (7 ≤ s.op.dstCap.toNat → Region.valid ⟨s.op.dstAddr.toNat, 7⟩ s.platform = false → fails .range))

/-- The header's bytes, most significant bit first, are the fields of the wire format in its order: 12-bit syncword, id,
layer, protection_absent, profile, index, private bit, channel configuration, four zero bits, frame length, fullness,
blocks (spec/30_encoding.md R85). -/
def Obligations.HeaderFollowsWireFormat : Prop :=
  ∀ (id : BitVec 1) (prof : BitVec 2) (sfi : BitVec 4) (cc : BitVec 3) (fl : BitVec 13) (k : Nat), k < 56 →
    ((adtsHeader id prof sfi cc fl).getD (k / 8) 0).getLsbD (7 - k % 8) =
      ((0xFFF : BitVec 12) ++ id ++ (0 : BitVec 2) ++ (1 : BitVec 1) ++ prof ++ sfi ++ (0 : BitVec 1) ++ cc ++
        (0 : BitVec 4) ++ fl ++ (0x7FF : BitVec 11) ++ (0 : BitVec 2) : BitVec 56).getLsbD (55 - k)

/-- ADTSPARSE refuses a short or invalid source, and otherwise reads the seven bytes: BAD_SYNC without syncword, with a
layer or with a CRC, and else the frame length and the packed fields (R141). -/
def Obligations.AdtsparseReadsHeader : Prop :=
  ∀ s : State,
    let h := fun k : Nat => (s.mem.read (s.op.srcAddr.toNat + k)).toNat
    let source : Region := ⟨s.op.srcAddr.toNat, 7⟩
    let fails := fun c => ∃ t, exec .adtsparse s = .next t ∧ s.Failed t c
    (s.srcBytes < 7 → fails .shape) ∧
    (7 ≤ s.srcBytes → source.valid s.platform = false → fails .range) ∧
    (7 ≤ s.srcBytes → source.valid s.platform = true →
      (h 0 = 0xFF ∧ h 1 / 16 = 0xF ∧ h 1 / 2 % 4 = 0 ∧ h 1 % 2 = 1 →
        ∃ t, exec .adtsparse s = .next t ∧
          t = { s with errCode := .ok, result0 := t.result0, result1 := t.result1, pending := none } ∧
          t.result0.toNat = h 3 % 4 * 2048 + h 4 * 8 + h 5 / 32 ∧
          t.result1.toNat = h 2 / 4 % 16 + h 2 / 64 * 16 + (h 2 % 2 * 4 + h 3 / 64) * 256 + h 1 / 8 % 2 * 4096) ∧
      (¬ (h 0 = 0xFF ∧ h 1 / 16 = 0xF ∧ h 1 / 2 % 4 = 0 ∧ h 1 % 2 = 1) → fails .badSync))

/-- Round trip on the machine: an ADTSPARSE of the bytes a successful ADTSENC wrote, in any later state with that memory,
answers the frame length and the fields that went in (the spec's own inference, R143). -/
def Obligations.ParseInvertsEncode : Prop :=
  ∀ (prof : BitVec 2) (sfi : BitVec 4) (cc : BitVec 3) (s t u : State), exec (.adtsenc prof sfi cc) s = .next t →
    t.errCode = .ok → u.mem = t.mem → u.platform = s.platform → u.op.srcAddr = s.op.dstAddr → 7 ≤ u.srcBytes →
    ∃ v, exec .adtsparse u = .next v ∧ v.errCode = .ok ∧ v.result0.toNat = s.op.param0.toNat + 7 ∧
      v.result1.toNat = sfi.toNat ||| prof.toNat <<< 4 ||| cc.toNat <<< 8 ||| s.op.adtsId.toNat <<< 12

/-- SFILOOKUP answers the index of a rate of the table with flag 0, and index 4 with flag 1 for every other rate
(R142, spec/30_encoding.md R86). -/
def Obligations.SfilookupFollowsTable : Prop :=
  ∀ s : State,
    let table : List (Nat × Nat) :=
      [(0, 96000), (1, 88200), (2, 64000), (3, 48000), (4, 44100), (5, 32000), (6, 24000), (7, 22050), (8, 16000),
       (9, 12000), (10, 11025), (11, 8000), (12, 7350)]
    let answers := fun r0 r1 : Word =>
      exec .sfilookup s = .next { s with errCode := .ok, result0 := r0, result1 := r1, pending := none }
    (∀ e ∈ table, s.op.param0.toNat = e.2 → answers (BitVec.ofNat 32 e.1) 0) ∧
      ((∀ e ∈ table, s.op.param0.toNat ≠ e.2) → answers 4 1)

/-! ### Session commands (spec/44_session_queue.md) -/

/-- SPREPARE in Idle or Released with a valid configuration asks the codec device. Where it accepts (its settled answer, or
a free one), the configuration is latched and the session is Prepared, or, with AUTOSTART, started in the same step;
where it refuses, the failure is reported and the session is as it was (R160, R161). -/
def Obligations.SprepareLatchesConfiguration : Prop :=
  ∀ (s : State) (c : BitVec 3), (s.sess.state = .idle ∨ s.sess.state = .released) → ConfigValid s.op c →
    let o := s.op
    let req : ConfigRequest :=
      { dir := if o.scfgMode.getLsbD 0 then .decode else .encode, rate := o.scfgRate, ch := o.scfgCh,
        profile := o.scfgMode.extractLsb' 1 2, sfi := (sfiOf o.scfgRate).1, bitrate := o.scfgBitrate }
    let asked : State := { s with codecCalls := s.codecCalls ++ [.configure req], codecAnswer := none,
                                  draws := s.draws + 1, result0 := 0, result1 := 0, pending := none }
    let latched : Session :=
      { s.sess with state := .prepared, dir := req.dir, rate := o.scfgRate, ch := o.scfgCh, profile := req.profile,
                    sfi := (sfiOf o.scfgRate).1, sfiFallback := (sfiOf o.scfgRate).2, chcfg := c,
                    bitrate := o.scfgBitrate, adtsId := o.adtsId }
    (s.configureAnswer req = true → o.scfgMode.getLsbD 3 = false →
      exec .sprepare s = .next { asked with errCode := .ok, sess := latched }) ∧
    (s.configureAnswer req = true → o.scfgMode.getLsbD 3 = true →
      exec .sprepare s = .next { asked with
        errCode := .ok, queue := [], codecIn := [], codecOut := [],
        codecCalls := s.codecCalls ++ [.configure req, .start],
        sess := { latched with state := .running, stopReq := false, inDone := false, outDone := false,
                               released := false, bytesFed := 0, pts := 0, fedCount := 0, emitCount := 0 } }) ∧
    (s.configureAnswer req = false →
      exec .sprepare s = .next { asked with
        errCode := .configFail, serr := .configFail, outLog := s.outLog ++ [.error .configFail] })

/-- SPREPARE with rate 0, profile 3 or a channel count without configuration reports CONFIG_FAIL without asking the device:
ERRCODE, SERR and one ERROR message, the session as it was; in any other state it is BAD_STATE (R160). -/
def Obligations.SprepareRefusals : Prop :=
  ∀ s : State,
    ((s.sess.state = .idle ∨ s.sess.state = .released) → ConfigInvalid s.op →
      exec .sprepare s = .next { s with
        errCode := .configFail, serr := .configFail, outLog := s.outLog ++ [.error .configFail], result0 := 0,
        result1 := 0, pending := none }) ∧
    (s.sess.state = .prepared ∨ s.sess.state = .running ∨ s.sess.state = .draining →
      ∃ t, exec .sprepare s = .next t ∧ s.Failed t .badState)

/-- SSTART: from Prepared it starts the session with cleared flags, counters, queue and codec ports; in Running and
Draining it has no effect and succeeds; elsewhere it is BAD_STATE (R161). That the device is notified is said in the
model's own record of calls (log 7). -/
def Obligations.SstartFollowsState : Prop :=
  ∀ s : State,
    (s.sess.state = .prepared →
      exec .sstart s = .next { s with
        errCode := .ok, result0 := 0, result1 := 0, pending := none, queue := [], codecIn := [], codecOut := [],
        codecCalls := s.codecCalls ++ [.start],
        sess := { s.sess with state := .running, stopReq := false, inDone := false, outDone := false,
                              released := false, bytesFed := 0, pts := 0, fedCount := 0, emitCount := 0 } }) ∧
    (s.sess.state = .running ∨ s.sess.state = .draining →
      exec .sstart s = .next { s with errCode := .ok, result0 := 0, result1 := 0, pending := none }) ∧
    (s.sess.state = .idle ∨ s.sess.state = .released → ∃ t, exec .sstart s = .next t ∧ s.Failed t .badState)

/-- SSUBMIT in Running with a whole, non-empty, valid chunk and room in the queue appends its descriptor at the tail,
answers the new length and changes nothing else; otherwise it is, in this order, SUBMIT_AFTER_STOP, BAD_STATE, SHAPE,
RANGE or QUEUE_FULL, and the queue is unchanged (R162). -/
def Obligations.SsubmitAppendsOrFails : Prop :=
  ∀ s : State,
    let fails := fun c => ∃ t, exec .ssubmit s = .next t ∧ s.Failed t c
    let whole := s.srcBytes ≠ 0 ∧ (s.sess.dir = .encode → s.srcBytes % (2 * s.sess.ch.toNat) = 0)
    (s.sess.state = .draining → fails .submitAfterStop) ∧
    (s.sess.state = .idle ∨ s.sess.state = .prepared ∨ s.sess.state = .released → fails .badState) ∧
    (s.sess.state = .running → ¬ whole → fails .shape) ∧
    (s.sess.state = .running → whole → s.op.source.valid s.platform = false → fails .range) ∧
    (s.sess.state = .running → whole → s.op.source.valid s.platform = true → s.queue.length = 16 →
      fails .queueFull) ∧
    (s.sess.state = .running → whole → s.op.source.valid s.platform = true → s.queue.length < 16 →
      exec .ssubmit s = .next { s with
        errCode := .ok, result0 := BitVec.ofNat 32 (s.queue.length + 1), result1 := 0, pending := none,
        queue := s.queue ++ [⟨s.op.srcAddr, s.op.srcLen⟩] })

/-- SSTOP: from Running it sets the stop request and drains, the queue kept; in Draining it has no effect and succeeds;
elsewhere it is BAD_STATE (R163). -/
def Obligations.SstopFollowsState : Prop :=
  ∀ s : State,
    (s.sess.state = .running →
      exec .sstop s = .next { s with
        errCode := .ok, result0 := 0, result1 := 0, pending := none,
        sess := { s.sess with stopReq := true, state := .draining } }) ∧
    (s.sess.state = .draining →
      exec .sstop s = .next { s with errCode := .ok, result0 := 0, result1 := 0, pending := none }) ∧
    (s.sess.state = .idle ∨ s.sess.state = .prepared ∨ s.sess.state = .released →
      ∃ t, exec .sstop s = .next t ∧ s.Failed t .badState)

/-! ### Engines (spec/44_session_queue.md) -/

/-- The feeder: while the session is active and not done, and the device accepts, it feeds the oldest chunk with the bytes
memory holds and the time stamp of its first sample (R171), or the end marker once the queue is empty and a stop is
requested (R172); otherwise it changes nothing (R170, R173). The model notes the fed chunk with its number (log 10). -/
def Obligations.FeederFeedsInOrder : Prop :=
  ∀ (s : State) (accepts : Bool),
    let ready := (s.sess.state = .running ∨ s.sess.state = .draining) ∧ s.sess.inDone = false ∧ accepts = true
    (∀ (d : Chunk) (rest : List Chunk), ready → s.queue = d :: rest →
      let fed := s.sess.bytesFed + d.len.toNat
      runEvent (.feeder accepts) s = .next { s with
        queue := rest, fedUnseen := s.fedUnseen ++ [⟨d, s.sess.fedCount⟩],
        codecIn := s.codecIn ++ [⟨s.mem.readBytes d.addr.toNat d.len.toNat, s.sess.pts, false⟩],
        sess := { s.sess with
          bytesFed := fed, fedCount := s.sess.fedCount + 1,
          pts := BitVec.ofNat 64 (fed * 1000000 / (s.sess.rate.toNat * s.sess.ch.toNat * 2)) } }) ∧
    (ready → s.queue = [] → s.sess.stopReq = true →
      runEvent (.feeder accepts) s = .next { s with
        codecIn := s.codecIn ++ [⟨[], s.sess.pts, true⟩], sess := { s.sess with inDone := true } }) ∧
    (¬ ready ∨ (s.queue = [] ∧ s.sess.stopReq = false) → runEvent (.feeder accepts) s = .next s)

/-- The drainer: while the session is active and not done it takes the oldest buffer; an empty one emits nothing, a payload
goes out framed when encoding and raw when decoding, a payload above 8184 bytes is reported FRAME_TOO_LONG in place of
its message, and the end-of-stream buffer sets OUT_DONE after its data (R175). -/
def Obligations.DrainerEmitsBuffers : Prop :=
  ∀ (s : State) (b : CodecOutput) (rest : List CodecOutput),
    let n := b.bytes.length
    let after := fun (x : Session) => { x with outDone := x.outDone || b.eos }
    let counted := { s.sess with emitCount := s.sess.emitCount + 1 }
    ((s.sess.state = .running ∨ s.sess.state = .draining) → s.sess.outDone = false → s.codecOut = b :: rest →
      (n = 0 → runEvent .drainer s = .next { s with codecOut := rest, sess := after s.sess }) ∧
      (1 ≤ n → n ≤ 8184 → s.sess.dir = .encode →
        runEvent .drainer s = .next { s with
          codecOut := rest, sess := after counted,
          outLog := s.outLog ++ [.data (adtsHeader s.sess.adtsId s.sess.profile s.sess.sfi s.sess.chcfg
            (BitVec.ofNat 13 (n + 7)) ++ b.bytes)] }) ∧
      (8184 < n → s.sess.dir = .encode →
        runEvent .drainer s = .next { s with
          codecOut := rest, sess := after s.sess, serr := .frameTooLong,
          outLog := s.outLog ++ [.error .frameTooLong] }) ∧
      (1 ≤ n → s.sess.dir = .decode →
        runEvent .drainer s = .next { s with
          codecOut := rest, sess := after counted, outLog := s.outLog ++ [.data b.bytes] })) ∧
    (s.sess.active = false ∨ s.sess.outDone = true ∨ s.codecOut = [] → runEvent .drainer s = .next s)

/-- The release logic fires exactly when a draining session has both completion flags and has not been released: it
releases the device, emits END and clears the session, whose status then reads 4; otherwise it changes nothing
(R177). The queue and SERR are left. That a second release step changes nothing, so that the release fires at most once, is
the spec's own inference, marked so in R177. -/
def Obligations.ReleaseFiresOnce : Prop :=
  ∀ s : State,
    let ready := s.sess.state = .draining ∧ s.sess.inDone = true ∧ s.sess.outDone = true ∧ s.sess.released = false
    (ready → ∃ t, runEvent .release s = .next t ∧
      t = { s with codecCalls := s.codecCalls ++ [.release], outLog := s.outLog ++ [.sessionEnd],
                   sess := { Session.reset with state := .released, released := true } } ∧
      t.readReg .sstatus = 4 ∧ runEvent .release t = .next t) ∧
    (¬ ready → runEvent .release s = .next s)

/-- The codec device appends a buffer only while the session is active, its last one only after it accepted the end marker,
and nothing after that (R178 (b), (d), (e)). That a device step outside this contract changes nothing is the model's choice
(log 6): R178 (e) assumes the contract of the device. The device's answer to the next CodecConfigure is settled in a field
of the model's own, and nothing else changes (R178 (a), log 5). -/
def Obligations.CodecDeviceKeepsContract : Prop :=
  ∀ (s : State) (bytes : List Byte) (eos : Bool),
    let active := s.sess.state = .running ∨ s.sess.state = .draining
    let ended := s.sess.outDone = true ∨ ∃ b ∈ s.codecOut, b.eos = true
    let marked := ∃ x ∈ s.codecIn, x.eos = true
    (active → ¬ ended → (eos = true → marked) →
      runEvent (.codecProduce bytes eos) s = .next { s with codecOut := s.codecOut ++ [⟨bytes, eos⟩] }) ∧
    (¬ active ∨ ended ∨ (eos = true ∧ ¬ marked) → runEvent (.codecProduce bytes eos) s = .next s) ∧
    (∀ ok : Bool, runEvent (.codecAnswer ok) s = .next { s with codecAnswer := some ok })

/-! ### Frames and whole-machine rules -/

/-- The frame of every data command: where it delivers an output it writes no byte outside that output's region and changes
nothing but memory, the results, ERRCODE and the latch; where it delivers none it changes only the results, ERRCODE and
the latch (spec/20_memory.md R55, spec/10_state.md R47). -/
def Obligations.DataCommandFrame : Prop :=
  ∀ (i : Instr) (s t : State),
    (i = .resample ∨ (∃ bd, i = .extl bd ∨ i = .extr bd ∨ i = .red2 bd ∨ i = .m2s bd) ∨ i = .mixext ∨ i = .mixadd ∨
      i = .mixavg ∨ i = .mixwgt ∨ ∃ prof sfi cc, i = .adtsenc prof sfi cc) →
    exec i s = .next t →
    (∀ out, dataPlan i s.platform s.mem s.op = some out →
      s.Wrote t out.region out.r0 out.r1 ∧ out.region.addr = s.op.dstAddr.toNat ∧
        out.region.len ≤ s.op.dstCap.toNat ∧ out.region.valid s.platform = true) ∧
    (dataPlan i s.platform s.mem s.op = none → s.Failed t t.errCode ∧ t.errCode ≠ .ok)

/-- The frame of the commands that store nothing: memory, the operand registers, STATUS.OVR, the output port's cursor and
the platform are as before; ADTSPARSE and SFILOOKUP change only the results, ERRCODE and the latch
(spec/10_state.md R22, R47). -/
def Obligations.NonStoringCommandFrame : Prop :=
  ∀ (i : Instr) (s t : State), exec i s = .next t →
    ((i = .adtsparse ∨ i = .sfilookup) →
      t = { s with errCode := t.errCode, result0 := t.result0, result1 := t.result1, pending := none }) ∧
    ((i = .sprepare ∨ i = .sstart ∨ i = .ssubmit ∨ i = .sstop) →
      (∀ a, t.mem.read a = s.mem.read a) ∧
      t = { s with errCode := t.errCode, result0 := t.result0, result1 := 0, pending := none, serr := t.serr,
                   sess := t.sess, queue := t.queue, codecIn := t.codecIn, codecOut := t.codecOut,
                   outLog := t.outLog, codecCalls := t.codecCalls, codecAnswer := t.codecAnswer,
                   draws := t.draws })

/-- A step changes bus memory only where it completes a data command that succeeded, or a host writes memory
(spec/10_state.md R47). -/
def Obligations.OnlyDataCommandsAndHostsWriteMemory : Prop :=
  ∀ s t : State, step s = .next t → t.mem ≠ s.mem →
    (∃ addr bytes, s.nextEvent = .hostWriteMem addr bytes) ∨
      (s.nextEvent = .cu ∧ t.errCode = .ok ∧
        ∃ p i out, s.pending = some p ∧ decode p.word = .ok i ∧ dataPlan i s.platform s.mem p.op = some out)

/-- A step changes the job queue only by one append at the tail by SSUBMIT, one removal at the head by the feeder, or by
emptying it at a session start or at reset (spec/10_state.md R32). -/
def Obligations.QueueIsFifo : Prop :=
  ∀ s t : State, step s = .next t →
    t.queue = s.queue ∨
    (∃ p c, s.nextEvent = .cu ∧ s.pending = some p ∧ decode p.word = .ok .ssubmit ∧ t.queue = s.queue ++ [c] ∧
      c = ⟨p.op.srcAddr, p.op.srcLen⟩) ∨
    (∃ d accepts, s.nextEvent = .feeder accepts ∧ s.queue = d :: t.queue) ∨
    (t.queue = [] ∧ (s.nextEvent = .reset ∨
      ∃ p i, s.nextEvent = .cu ∧ s.pending = some p ∧ decode p.word = .ok i ∧ (i = .sstart ∨ i = .sprepare)))

/-- The output port is append-only: no step but reset removes or changes a message, and takes never pass its end
(spec/10_state.md R44). END goes out exactly with the release: a step other than reset adds one END where it moves the
session from Draining to Released, and none otherwise (spec/44_session_queue.md R177). A take answers the message at the
cursor and moves the cursor by one, or answers that there is none; nothing else moves it (R44; the cursor and the answer
are the model's own, log 13). -/
def Obligations.OutputPortAppendsAndEndsOnce : Prop :=
  ∀ s t : State, step s = .next t → s.nextEvent ≠ .reset →
    s.outLog <+: t.outLog ∧ (s.TakenInv → t.TakenInv) ∧
    (s.sess.state = .draining ∧ t.sess.state = .released →
      t.outLog.count .sessionEnd = s.outLog.count .sessionEnd + 1) ∧
    (¬ (s.sess.state = .draining ∧ t.sess.state = .released) →
      t.outLog.count .sessionEnd = s.outLog.count .sessionEnd) ∧
    (s.nextEvent = .hostTake →
      (∀ msg, s.outLog[s.taken]? = some msg → t = { s.started with taken := s.taken + 1, reply := .message msg }) ∧
      (s.outLog[s.taken]? = none → t = { s.started with reply := .noMessage })) ∧
    (s.nextEvent ≠ .hostTake → t.taken = s.taken)

/-- The session state machine: a step other than reset keeps the session state or makes one of the transitions of the
state table (spec/44_session_queue.md, R160, R161, R163, R177). -/
def Obligations.SessionTransitions : Prop :=
  ∀ s t : State, step s = .next t → s.nextEvent ≠ .reset →
    (s.sess.state, t.sess.state) ∈
      [(SessState.idle, SessState.idle), (.idle, .prepared), (.idle, .running), (.prepared, .prepared),
       (.prepared, .running), (.running, .running), (.running, .draining), (.draining, .draining),
       (.draining, .released), (.released, .released), (.released, .prepared), (.released, .running)]

/-- No command stops the machine, and only a host's access faults: every event of another agent answers a next state
(spec/60_exceptions.md R191, R193). -/
def Obligations.OnlyHostsFault : Prop :=
  (∀ (i : Instr) (s : State), ∃ t, exec i s = .next t ∧ t.pending = none) ∧
    (∀ (s : State) (f : Fault), step s = .fault f →
      (∃ addr width asResult, s.nextEvent = .hostReadReg addr width asResult) ∨
      (∃ addr width data, s.nextEvent = .hostWriteReg addr width data) ∨
      (∃ addr len, s.nextEvent = .hostReadMem addr len) ∨ ∃ addr bytes, s.nextEvent = .hostWriteMem addr bytes)

/-! ### Invariants -/

/-- Every step keeps memory in its canonical form and inside MEM_BYTES, and leaves its power-on contents as they are
(log 4, spec/10_state.md R46). -/
def Obligations.StepKeepsMemoryForm : Prop :=
  ∀ s t : State, s.MemInv → step s = .next t → t.MemInv ∧ t.mem.powerOn = s.mem.powerOn

/-- Every step keeps the session unit's invariant: the queue bounded and valid, the configuration one SPREPARE accepts, the
stop request and completion flags fitting the state, the codec port fitting the device's contract, and the time stamp
the one of the bytes fed (R160 to R178). That outDone implies inDone, and all it says of the codec port, hold because the
model's device step enforces the contract that R178 (e) assumes of the device (log 6, the model's choice). -/
def Obligations.StepKeepsSessionInvariant : Prop :=
  ∀ s t : State, s.SessionInv → step s = .next t → t.SessionInv

/-- The invariants hold right after reset (spec/70_reset_and_hazards.md R210). That memory lists nothing beside its free
power-on contents is the model's choice (log 4), and the cursor of the output port is the model's own field (log 13). -/
def Obligations.ResetMeetsInvariants : Prop :=
  State.reset.MemInv ∧ State.reset.SessionInv ∧ State.reset.TakenInv

/-! ### Who writes the registers -/

/-- Which steps write the status and result registers, reset aside: OVR is set by a CMD write while BUSY and cleared by a
STATUS write with bit 2 set (spec/10_state.md R27); ERRCODE, RESULT0 and RESULT1 are written where the command unit
completes a latched command (R23, R29); SERR by an SPREPARE that reports CONFIG_FAIL and by the drainer
(spec/60_exceptions.md R189); the operand registers by a host's register write (R22); the latch is filled by a CMD write
while not BUSY and emptied by the command unit (spec/30_encoding.md R72). -/
def Obligations.StatusRegistersWrittenOnlyByTheirWriters : Prop :=
  ∀ s t : State, step s = .next t → s.nextEvent ≠ .reset →
    let writes := fun (r : Reg) (w : Word) => s.nextEvent = wr s.platform r w
    (t.ovr ≠ s.ovr →
      (t.ovr = true ∧ s.busy = true ∧ ∃ w, writes .cmd w) ∨ (t.ovr = false ∧ ∃ w, writes .status w ∧ w.getLsbD 2 = true)) ∧
    (t.errCode ≠ s.errCode ∨ t.result0 ≠ s.result0 ∨ t.result1 ≠ s.result1 →
      s.nextEvent = .cu ∧ s.busy = true ∧ t.busy = false) ∧
    (t.serr ≠ s.serr →
      (s.nextEvent = .cu ∧ t.serr = .configFail ∧ t.errCode = .configFail ∧
        ∃ p, s.pending = some p ∧ decode p.word = .ok .sprepare) ∨
      (s.nextEvent = .drainer ∧ t.serr = .frameTooLong)) ∧
    (t.regs ≠ s.regs → ∃ r w, writes r w) ∧
    (t.pending ≠ s.pending →
      (s.nextEvent = .cu ∧ t.pending = none) ∨
      (s.pending = none ∧ ∃ w, writes .cmd w ∧ t.pending = some ⟨w, s.regs⟩))
end

