-- ==== Sys2Proof/Laws/Memory.lean ====
section
/-! SUPPORT. The laws of bus memory: a read after a write, and that every memory operation keeps the canonical form. -/

namespace Sys2Proof.Machine

/-! ### The listed bytes -/

theorem cellAt_dropCell_same (l : List Host.Cell) (b : Byte) (a : Nat) : cellAt (dropCell l a) b a = b := by
  induction l with
  | nil => rfl
  | cons c l ih =>
    simp only [dropCell, List.filter_cons] at ih ⊢
    by_cases h : c.1 = a
    · simpa [h] using ih
    · simpa [h, cellAt] using ih

theorem cellAt_dropCell_other (l : List Host.Cell) (b : Byte) {a x : Nat} (h : x ≠ a) :
    cellAt (dropCell l a) b x = cellAt l b x := by
  induction l with
  | nil => rfl
  | cons c l ih =>
    simp only [dropCell, List.filter_cons] at ih ⊢
    by_cases hc : c.1 = a
    · have : ¬ c.1 = x := fun e => h (e ▸ hc)
      simpa [hc, cellAt, Ne.symm h] using ih
    · simp [hc, cellAt, ih]

theorem cellAt_placeCell (l : List Host.Cell) (a x : Nat) (b d : Byte) (h : ∀ c ∈ l, c.1 ≠ a) :
    cellAt (placeCell l a b) d x = if a = x then b else cellAt l d x := by
  induction l with
  | nil => simp [placeCell, cellAt]
  | cons c l ih =>
    have hc : c.1 ≠ a := h c (by simp)
    have ih := ih fun d hd => h d (by simp [hd])
    simp only [placeCell]
    split
    · simp [cellAt]
    · simp only [cellAt, ih]
      by_cases e : c.1 = x
      · have : ¬ a = x := fun e' => hc (e.trans e'.symm)
        simp [e, this]
      · simp [e]

theorem dropCell_keys (l : List Host.Cell) (a : Nat) : ∀ c ∈ dropCell l a, c.1 ≠ a := by
  intro c hc
  simpa using (List.mem_filter.mp hc).2

theorem mem_placeCell {l : List Host.Cell} {a : Nat} {b : Byte} {c : Host.Cell} (h : c ∈ placeCell l a b) :
    c = (a, b) ∨ c ∈ l := by
  induction l with
  | nil => simpa [placeCell] using h
  | cons d l ih =>
    simp only [placeCell] at h
    split at h
    · simpa using h
    · rcases List.mem_cons.mp h with h | h
      · exact .inr (by simp [h])
      · rcases ih h with h | h
        · exact .inl h
        · exact .inr (by simp [h])

/-- Placing a new address keeps the addresses strictly rising. -/
theorem pairwise_placeCell {l : List Host.Cell} (hp : l.Pairwise fun c d => c.1 < d.1) {a : Nat} {b : Byte}
    (ha : ∀ c ∈ l, c.1 ≠ a) : (placeCell l a b).Pairwise fun c d => c.1 < d.1 := by
  induction l with
  | nil => simp [placeCell]
  | cons d l ih =>
    have hd := ha d (by simp)
    obtain ⟨h1, h2⟩ := List.pairwise_cons.mp hp
    simp only [placeCell]
    split
    · next hlt =>
      refine List.pairwise_cons.mpr ⟨fun e he => ?_, hp⟩
      rcases List.mem_cons.mp he with he | he
      · simpa [he] using hlt
      · exact Nat.lt_trans hlt (h1 e he)
    · next hlt =>
      refine List.pairwise_cons.mpr ⟨fun e he => ?_, ih h2 fun c hc => ha c (by simp [hc])⟩
      rcases mem_placeCell he with he | he
      · simp only [he]; simp only [ne_eq] at hd; omega
      · exact h1 e he

/-! ### Power-on contents -/

@[simp] theorem Memory.powerOn_write (m : Memory) (a : Nat) (b : Byte) : (m.write a b).powerOn = m.powerOn := rfl

@[simp] theorem Memory.unlisted_write (m : Memory) (a x : Nat) (b : Byte) : (m.write a b).unlisted x = m.unlisted x := rfl

@[simp] theorem Memory.powerOn_writeBytes (m : Memory) (a : Nat) (bs : List Byte) :
    (m.writeBytes a bs).powerOn = m.powerOn := by
  induction bs generalizing a m with
  | nil => rfl
  | cons b bs ih => simp [Memory.writeBytes, ih]

/-- An address that lists nothing reads as it did at power-on. -/
theorem Memory.read_eq_unlisted {m : Memory} {a : Nat} (h : ∀ c ∈ m.cells, c.1 ≠ a) : m.read a = m.unlisted a := by
  unfold Memory.read
  generalize m.unlisted a = d
  generalize m.cells = l at h
  induction l with
  | nil => rfl
  | cons c l ih => simpa [cellAt, h c (by simp)] using ih fun e he => h e (by simp [he])

/-! ### Reads after writes -/

/-- A read after a write of one byte. -/
theorem Memory.read_write (m : Memory) (a x : Nat) (b : Byte) :
    (m.write a b).read x = if a = x then b else m.read x := by
  show cellAt (if b = m.unlisted a then dropCell m.cells a else placeCell (dropCell m.cells a) a b) (m.unlisted x) x =
    if a = x then b else cellAt m.cells (m.unlisted x) x
  split
  · next hb =>
    split
    · next e => rw [← e, cellAt_dropCell_same, hb]
    · next e => exact cellAt_dropCell_other _ _ (Ne.symm e)
  · rw [cellAt_placeCell _ _ _ _ _ (dropCell_keys m.cells a)]
    split
    · rfl
    · next e => exact cellAt_dropCell_other _ _ (Ne.symm e)

@[simp] theorem Memory.length_readBytes (m : Memory) (a n : Nat) : (m.readBytes a n).length = n := by
  induction n generalizing a with
  | zero => rfl
  | succ n ih => simp [Memory.readBytes, ih]

/-- The bytes a region reads, one by one. -/
theorem Memory.getElem?_readBytes (m : Memory) (a n k : Nat) (h : k < n) :
    (m.readBytes a n)[k]? = some (m.read (a + k)) := by
  induction n generalizing a k with
  | zero => omega
  | succ n ih =>
    cases k with
    | zero => rfl
    | succ k => simpa [Memory.readBytes, Nat.add_assoc, Nat.add_comm 1 k] using ih (a + 1) k (by omega)

/-- A read after a write of several bytes. -/
theorem Memory.read_writeBytes (m : Memory) (a x : Nat) (bs : List Byte) :
    (m.writeBytes a bs).read x = if a ≤ x ∧ x < a + bs.length then bs.getD (x - a) 0 else m.read x := by
  induction bs generalizing a m with
  | nil => simp [Memory.writeBytes]
  | cons b bs ih =>
    rw [Memory.writeBytes, ih, Memory.read_write]
    by_cases h : a = x
    · subst h; simp
    · by_cases h1 : a + 1 ≤ x ∧ x < a + 1 + bs.length
      · have h2 : a ≤ x ∧ x < a + (b :: bs).length := by simp; omega
        have h3 : x - a = (x - (a + 1)) + 1 := by omega
        rw [if_pos h1, if_pos h2, h3, List.getD_cons_succ]
      · have h2 : ¬ (a ≤ x ∧ x < a + (b :: bs).length) := by simp; omega
        rw [if_neg h1, if_neg h2, if_neg h]

theorem Memory.read_writeBytes_outside (m : Memory) {a x : Nat} {bs : List Byte}
    (h : ¬ (a ≤ x ∧ x < a + bs.length)) : (m.writeBytes a bs).read x = m.read x := by
  rw [Memory.read_writeBytes, if_neg h]

/-! ### The canonical form -/

/-- Writing a byte keeps the canonical form. -/
theorem Memory.WF.write {m : Memory} (h : m.WF) (a : Nat) (b : Byte) : Memory.WF (m.write a b) := by
  have hp : (dropCell m.cells a).Pairwise fun c d => c.1 < d.1 := h.1.sublist List.filter_sublist
  have hv : ∀ c ∈ dropCell m.cells a, c.2 ≠ m.unlisted c.1 := fun c hc => h.2 c (List.mem_of_mem_filter hc)
  by_cases e : b = m.unlisted a
  · have : (m.write a b).cells = dropCell m.cells a := if_pos e
    exact ⟨by rw [this]; exact hp, by rw [this]; exact hv⟩
  · have : (m.write a b).cells = placeCell (dropCell m.cells a) a b := if_neg e
    refine ⟨by rw [this]; exact pairwise_placeCell hp (dropCell_keys m.cells a), fun c hc => ?_⟩
    rw [this] at hc
    rcases mem_placeCell hc with hc | hc
    · simpa [hc] using e
    · exact hv c hc

/-- Writing bytes keeps the canonical form. -/
theorem Memory.WF.writeBytes {m : Memory} (h : m.WF) (a : Nat) (bs : List Byte) : Memory.WF (m.writeBytes a bs) := by
  induction bs generalizing a m with
  | nil => exact h
  | cons b bs ih => exact ih (h.write a b) (a + 1)

/-- Memory at reset has the canonical form, whatever it held at power-on. -/
theorem Memory.wf_reset : State.reset.mem.WF := by simp [State.reset, State.resetOn, Memory.WF]

theorem Memory.mem_write {m : Memory} {a : Nat} {b : Byte} {c : Host.Cell} (h : c ∈ (m.write a b).cells) :
    c.1 = a ∨ c ∈ m.cells := by
  unfold Memory.write at h
  dsimp only at h
  split at h
  · exact .inr (List.mem_of_mem_filter h)
  · rcases mem_placeCell h with h | h
    · exact .inl (by rw [h])
    · exact .inr (List.mem_of_mem_filter h)

/-- What is listed after a write was listed before or lies in the written bytes. -/
theorem Memory.mem_writeBytes {m : Memory} {a : Nat} {bs : List Byte} {c : Host.Cell}
    (h : c ∈ (m.writeBytes a bs).cells) : (a ≤ c.1 ∧ c.1 < a + bs.length) ∨ c ∈ m.cells := by
  induction bs generalizing a m with
  | nil => exact .inr h
  | cons b bs ih =>
    rcases ih h with h | h
    · left; simp; omega
    · rcases Memory.mem_write h with h | h
      · left; simp; omega
      · exact .inr h

end Sys2Proof.Machine
end

