-- ==== Sys2Proof/Laws/State.lean ====
section
/-! SUPPORT. What each named update of the state does to each field, one lemma a field, so that no proof unfolds a record
update. -/

namespace Sys2Proof.Machine

variable (s : State)

@[simp] theorem State.complete_platform (code : ErrCode) (r0 r1 : Word) :
    (s.complete code r0 r1).platform = s.platform := rfl
@[simp] theorem State.complete_regs (code : ErrCode) (r0 r1 : Word) : (s.complete code r0 r1).regs = s.regs := rfl
@[simp] theorem State.complete_ovr (code : ErrCode) (r0 r1 : Word) : (s.complete code r0 r1).ovr = s.ovr := rfl
@[simp] theorem State.complete_errCode (code : ErrCode) (r0 r1 : Word) : (s.complete code r0 r1).errCode = code := rfl
@[simp] theorem State.complete_serr (code : ErrCode) (r0 r1 : Word) : (s.complete code r0 r1).serr = s.serr := rfl
@[simp] theorem State.complete_result0 (code : ErrCode) (r0 r1 : Word) : (s.complete code r0 r1).result0 = r0 := rfl
@[simp] theorem State.complete_result1 (code : ErrCode) (r0 r1 : Word) : (s.complete code r0 r1).result1 = r1 := rfl
@[simp] theorem State.complete_pending (code : ErrCode) (r0 r1 : Word) : (s.complete code r0 r1).pending = none := rfl
@[simp] theorem State.complete_queue (code : ErrCode) (r0 r1 : Word) : (s.complete code r0 r1).queue = s.queue := rfl
@[simp] theorem State.complete_sess (code : ErrCode) (r0 r1 : Word) : (s.complete code r0 r1).sess = s.sess := rfl
@[simp] theorem State.complete_codecIn (code : ErrCode) (r0 r1 : Word) :
    (s.complete code r0 r1).codecIn = s.codecIn := rfl
@[simp] theorem State.complete_codecOut (code : ErrCode) (r0 r1 : Word) :
    (s.complete code r0 r1).codecOut = s.codecOut := rfl
@[simp] theorem State.complete_outLog (code : ErrCode) (r0 r1 : Word) :
    (s.complete code r0 r1).outLog = s.outLog := rfl
@[simp] theorem State.complete_mem (code : ErrCode) (r0 r1 : Word) : (s.complete code r0 r1).mem = s.mem := rfl
@[simp] theorem State.complete_codecCalls (code : ErrCode) (r0 r1 : Word) :
    (s.complete code r0 r1).codecCalls = s.codecCalls := rfl
@[simp] theorem State.complete_codecAnswer (code : ErrCode) (r0 r1 : Word) :
    (s.complete code r0 r1).codecAnswer = s.codecAnswer := rfl
@[simp] theorem State.complete_taken (code : ErrCode) (r0 r1 : Word) : (s.complete code r0 r1).taken = s.taken := rfl
@[simp] theorem State.complete_fedUnseen (code : ErrCode) (r0 r1 : Word) :
    (s.complete code r0 r1).fedUnseen = s.fedUnseen := rfl
@[simp] theorem State.complete_reply (code : ErrCode) (r0 r1 : Word) : (s.complete code r0 r1).reply = s.reply := rfl
@[simp] theorem State.complete_agenda (code : ErrCode) (r0 r1 : Word) :
    (s.complete code r0 r1).agenda = s.agenda := rfl
@[simp] theorem State.complete_draws (code : ErrCode) (r0 r1 : Word) : (s.complete code r0 r1).draws = s.draws := rfl

@[simp] theorem State.fail_platform (code : ErrCode) : (s.fail code).platform = s.platform := rfl
@[simp] theorem State.fail_regs (code : ErrCode) : (s.fail code).regs = s.regs := rfl
@[simp] theorem State.fail_ovr (code : ErrCode) : (s.fail code).ovr = s.ovr := rfl
@[simp] theorem State.fail_errCode (code : ErrCode) : (s.fail code).errCode = code := rfl
@[simp] theorem State.fail_serr (code : ErrCode) : (s.fail code).serr = s.serr := rfl
@[simp] theorem State.fail_result0 (code : ErrCode) : (s.fail code).result0 = 0 := rfl
@[simp] theorem State.fail_result1 (code : ErrCode) : (s.fail code).result1 = 0 := rfl
@[simp] theorem State.fail_pending (code : ErrCode) : (s.fail code).pending = none := rfl
@[simp] theorem State.fail_queue (code : ErrCode) : (s.fail code).queue = s.queue := rfl
@[simp] theorem State.fail_sess (code : ErrCode) : (s.fail code).sess = s.sess := rfl
@[simp] theorem State.fail_codecIn (code : ErrCode) : (s.fail code).codecIn = s.codecIn := rfl
@[simp] theorem State.fail_codecOut (code : ErrCode) : (s.fail code).codecOut = s.codecOut := rfl
@[simp] theorem State.fail_outLog (code : ErrCode) : (s.fail code).outLog = s.outLog := rfl
@[simp] theorem State.fail_mem (code : ErrCode) : (s.fail code).mem = s.mem := rfl
@[simp] theorem State.fail_codecCalls (code : ErrCode) : (s.fail code).codecCalls = s.codecCalls := rfl
@[simp] theorem State.fail_codecAnswer (code : ErrCode) : (s.fail code).codecAnswer = s.codecAnswer := rfl
@[simp] theorem State.fail_taken (code : ErrCode) : (s.fail code).taken = s.taken := rfl
@[simp] theorem State.fail_fedUnseen (code : ErrCode) : (s.fail code).fedUnseen = s.fedUnseen := rfl
@[simp] theorem State.fail_reply (code : ErrCode) : (s.fail code).reply = s.reply := rfl
@[simp] theorem State.fail_agenda (code : ErrCode) : (s.fail code).agenda = s.agenda := rfl
@[simp] theorem State.fail_draws (code : ErrCode) : (s.fail code).draws = s.draws := rfl

@[simp] theorem State.emit_platform (msg : Message) : (s.emit msg).platform = s.platform := rfl
@[simp] theorem State.emit_regs (msg : Message) : (s.emit msg).regs = s.regs := rfl
@[simp] theorem State.emit_ovr (msg : Message) : (s.emit msg).ovr = s.ovr := rfl
@[simp] theorem State.emit_errCode (msg : Message) : (s.emit msg).errCode = s.errCode := rfl
@[simp] theorem State.emit_serr (msg : Message) : (s.emit msg).serr = s.serr := rfl
@[simp] theorem State.emit_result0 (msg : Message) : (s.emit msg).result0 = s.result0 := rfl
@[simp] theorem State.emit_result1 (msg : Message) : (s.emit msg).result1 = s.result1 := rfl
@[simp] theorem State.emit_pending (msg : Message) : (s.emit msg).pending = s.pending := rfl
@[simp] theorem State.emit_queue (msg : Message) : (s.emit msg).queue = s.queue := rfl
@[simp] theorem State.emit_sess (msg : Message) : (s.emit msg).sess = s.sess := rfl
@[simp] theorem State.emit_codecIn (msg : Message) : (s.emit msg).codecIn = s.codecIn := rfl
@[simp] theorem State.emit_codecOut (msg : Message) : (s.emit msg).codecOut = s.codecOut := rfl
@[simp] theorem State.emit_outLog (msg : Message) : (s.emit msg).outLog = s.outLog ++ [msg] := rfl
@[simp] theorem State.emit_mem (msg : Message) : (s.emit msg).mem = s.mem := rfl
@[simp] theorem State.emit_codecCalls (msg : Message) : (s.emit msg).codecCalls = s.codecCalls := rfl
@[simp] theorem State.emit_codecAnswer (msg : Message) : (s.emit msg).codecAnswer = s.codecAnswer := rfl
@[simp] theorem State.emit_taken (msg : Message) : (s.emit msg).taken = s.taken := rfl
@[simp] theorem State.emit_fedUnseen (msg : Message) : (s.emit msg).fedUnseen = s.fedUnseen := rfl
@[simp] theorem State.emit_reply (msg : Message) : (s.emit msg).reply = s.reply := rfl
@[simp] theorem State.emit_agenda (msg : Message) : (s.emit msg).agenda = s.agenda := rfl
@[simp] theorem State.emit_draws (msg : Message) : (s.emit msg).draws = s.draws := rfl

@[simp] theorem State.askedConfigure_platform (req : ConfigRequest) :
    (s.askedConfigure req).platform = s.platform := rfl
@[simp] theorem State.askedConfigure_regs (req : ConfigRequest) : (s.askedConfigure req).regs = s.regs := rfl
@[simp] theorem State.askedConfigure_ovr (req : ConfigRequest) : (s.askedConfigure req).ovr = s.ovr := rfl
@[simp] theorem State.askedConfigure_errCode (req : ConfigRequest) : (s.askedConfigure req).errCode = s.errCode := rfl
@[simp] theorem State.askedConfigure_serr (req : ConfigRequest) : (s.askedConfigure req).serr = s.serr := rfl
@[simp] theorem State.askedConfigure_result0 (req : ConfigRequest) : (s.askedConfigure req).result0 = s.result0 := rfl
@[simp] theorem State.askedConfigure_result1 (req : ConfigRequest) : (s.askedConfigure req).result1 = s.result1 := rfl
@[simp] theorem State.askedConfigure_pending (req : ConfigRequest) : (s.askedConfigure req).pending = s.pending := rfl
@[simp] theorem State.askedConfigure_queue (req : ConfigRequest) : (s.askedConfigure req).queue = s.queue := rfl
@[simp] theorem State.askedConfigure_sess (req : ConfigRequest) : (s.askedConfigure req).sess = s.sess := rfl
@[simp] theorem State.askedConfigure_codecIn (req : ConfigRequest) : (s.askedConfigure req).codecIn = s.codecIn := rfl
@[simp] theorem State.askedConfigure_codecOut (req : ConfigRequest) :
    (s.askedConfigure req).codecOut = s.codecOut := rfl
@[simp] theorem State.askedConfigure_outLog (req : ConfigRequest) : (s.askedConfigure req).outLog = s.outLog := rfl
@[simp] theorem State.askedConfigure_mem (req : ConfigRequest) : (s.askedConfigure req).mem = s.mem := rfl
@[simp] theorem State.askedConfigure_codecCalls (req : ConfigRequest) :
    (s.askedConfigure req).codecCalls = s.codecCalls ++ [.configure req] := rfl
@[simp] theorem State.askedConfigure_codecAnswer (req : ConfigRequest) :
    (s.askedConfigure req).codecAnswer = none := rfl
@[simp] theorem State.askedConfigure_taken (req : ConfigRequest) : (s.askedConfigure req).taken = s.taken := rfl
@[simp] theorem State.askedConfigure_fedUnseen (req : ConfigRequest) :
    (s.askedConfigure req).fedUnseen = s.fedUnseen := rfl
@[simp] theorem State.askedConfigure_reply (req : ConfigRequest) : (s.askedConfigure req).reply = s.reply := rfl
@[simp] theorem State.askedConfigure_agenda (req : ConfigRequest) : (s.askedConfigure req).agenda = s.agenda := rfl
@[simp] theorem State.askedConfigure_draws (req : ConfigRequest) : (s.askedConfigure req).draws = s.draws + 1 := rfl

@[simp] theorem State.configFailed_platform : (s.configFailed).platform = s.platform := rfl
@[simp] theorem State.configFailed_regs : (s.configFailed).regs = s.regs := rfl
@[simp] theorem State.configFailed_ovr : (s.configFailed).ovr = s.ovr := rfl
@[simp] theorem State.configFailed_errCode : (s.configFailed).errCode = .configFail := rfl
@[simp] theorem State.configFailed_serr : (s.configFailed).serr = .configFail := rfl
@[simp] theorem State.configFailed_result0 : (s.configFailed).result0 = 0 := rfl
@[simp] theorem State.configFailed_result1 : (s.configFailed).result1 = 0 := rfl
@[simp] theorem State.configFailed_pending : (s.configFailed).pending = none := rfl
@[simp] theorem State.configFailed_queue : (s.configFailed).queue = s.queue := rfl
@[simp] theorem State.configFailed_sess : (s.configFailed).sess = s.sess := rfl
@[simp] theorem State.configFailed_codecIn : (s.configFailed).codecIn = s.codecIn := rfl
@[simp] theorem State.configFailed_codecOut : (s.configFailed).codecOut = s.codecOut := rfl
@[simp] theorem State.configFailed_outLog : (s.configFailed).outLog = s.outLog ++ [.error .configFail] := rfl
@[simp] theorem State.configFailed_mem : (s.configFailed).mem = s.mem := rfl
@[simp] theorem State.configFailed_codecCalls : (s.configFailed).codecCalls = s.codecCalls := rfl
@[simp] theorem State.configFailed_codecAnswer : (s.configFailed).codecAnswer = s.codecAnswer := rfl
@[simp] theorem State.configFailed_taken : (s.configFailed).taken = s.taken := rfl
@[simp] theorem State.configFailed_fedUnseen : (s.configFailed).fedUnseen = s.fedUnseen := rfl
@[simp] theorem State.configFailed_reply : (s.configFailed).reply = s.reply := rfl
@[simp] theorem State.configFailed_agenda : (s.configFailed).agenda = s.agenda := rfl
@[simp] theorem State.configFailed_draws : (s.configFailed).draws = s.draws := rfl

@[simp] theorem State.latchConfig_platform (o : OperandRegs) (c : BitVec 3) :
    (s.latchConfig o c).platform = s.platform := rfl
@[simp] theorem State.latchConfig_regs (o : OperandRegs) (c : BitVec 3) : (s.latchConfig o c).regs = s.regs := rfl
@[simp] theorem State.latchConfig_ovr (o : OperandRegs) (c : BitVec 3) : (s.latchConfig o c).ovr = s.ovr := rfl
@[simp] theorem State.latchConfig_errCode (o : OperandRegs) (c : BitVec 3) :
    (s.latchConfig o c).errCode = s.errCode := rfl
@[simp] theorem State.latchConfig_serr (o : OperandRegs) (c : BitVec 3) : (s.latchConfig o c).serr = s.serr := rfl
@[simp] theorem State.latchConfig_result0 (o : OperandRegs) (c : BitVec 3) :
    (s.latchConfig o c).result0 = s.result0 := rfl
@[simp] theorem State.latchConfig_result1 (o : OperandRegs) (c : BitVec 3) :
    (s.latchConfig o c).result1 = s.result1 := rfl
@[simp] theorem State.latchConfig_pending (o : OperandRegs) (c : BitVec 3) :
    (s.latchConfig o c).pending = s.pending := rfl
@[simp] theorem State.latchConfig_queue (o : OperandRegs) (c : BitVec 3) : (s.latchConfig o c).queue = s.queue := rfl
@[simp] theorem State.latchConfig_sess (o : OperandRegs) (c : BitVec 3) : (s.latchConfig o c).sess = { s.sess with
      dir := modeDir o.scfgMode, rate := o.scfgRate, ch := o.scfgCh, profile := modeProfile o.scfgMode,
      sfi := (sfiOf o.scfgRate).1, sfiFallback := (sfiOf o.scfgRate).2, chcfg := c, bitrate := o.scfgBitrate,
      adtsId := o.adtsId, state := .prepared } := rfl
@[simp] theorem State.latchConfig_codecIn (o : OperandRegs) (c : BitVec 3) :
    (s.latchConfig o c).codecIn = s.codecIn := rfl
@[simp] theorem State.latchConfig_codecOut (o : OperandRegs) (c : BitVec 3) :
    (s.latchConfig o c).codecOut = s.codecOut := rfl
@[simp] theorem State.latchConfig_outLog (o : OperandRegs) (c : BitVec 3) :
    (s.latchConfig o c).outLog = s.outLog := rfl
@[simp] theorem State.latchConfig_mem (o : OperandRegs) (c : BitVec 3) : (s.latchConfig o c).mem = s.mem := rfl
@[simp] theorem State.latchConfig_codecCalls (o : OperandRegs) (c : BitVec 3) :
    (s.latchConfig o c).codecCalls = s.codecCalls := rfl
@[simp] theorem State.latchConfig_codecAnswer (o : OperandRegs) (c : BitVec 3) :
    (s.latchConfig o c).codecAnswer = s.codecAnswer := rfl
@[simp] theorem State.latchConfig_taken (o : OperandRegs) (c : BitVec 3) : (s.latchConfig o c).taken = s.taken := rfl
@[simp] theorem State.latchConfig_fedUnseen (o : OperandRegs) (c : BitVec 3) :
    (s.latchConfig o c).fedUnseen = s.fedUnseen := rfl
@[simp] theorem State.latchConfig_reply (o : OperandRegs) (c : BitVec 3) : (s.latchConfig o c).reply = s.reply := rfl
@[simp] theorem State.latchConfig_agenda (o : OperandRegs) (c : BitVec 3) :
    (s.latchConfig o c).agenda = s.agenda := rfl
@[simp] theorem State.latchConfig_draws (o : OperandRegs) (c : BitVec 3) : (s.latchConfig o c).draws = s.draws := rfl

@[simp] theorem State.startBody_platform : (s.startBody).platform = s.platform := rfl
@[simp] theorem State.startBody_regs : (s.startBody).regs = s.regs := rfl
@[simp] theorem State.startBody_ovr : (s.startBody).ovr = s.ovr := rfl
@[simp] theorem State.startBody_errCode : (s.startBody).errCode = s.errCode := rfl
@[simp] theorem State.startBody_serr : (s.startBody).serr = s.serr := rfl
@[simp] theorem State.startBody_result0 : (s.startBody).result0 = s.result0 := rfl
@[simp] theorem State.startBody_result1 : (s.startBody).result1 = s.result1 := rfl
@[simp] theorem State.startBody_pending : (s.startBody).pending = s.pending := rfl
@[simp] theorem State.startBody_queue : (s.startBody).queue = [] := rfl
@[simp] theorem State.startBody_sess : (s.startBody).sess = { s.sess with
      stopReq := false, inDone := false, outDone := false, released := false, bytesFed := 0, pts := 0, fedCount := 0,
      emitCount := 0, state := .running } := rfl
@[simp] theorem State.startBody_codecIn : (s.startBody).codecIn = [] := rfl
@[simp] theorem State.startBody_codecOut : (s.startBody).codecOut = [] := rfl
@[simp] theorem State.startBody_outLog : (s.startBody).outLog = s.outLog := rfl
@[simp] theorem State.startBody_mem : (s.startBody).mem = s.mem := rfl
@[simp] theorem State.startBody_codecCalls : (s.startBody).codecCalls = s.codecCalls ++ [.start] := rfl
@[simp] theorem State.startBody_codecAnswer : (s.startBody).codecAnswer = s.codecAnswer := rfl
@[simp] theorem State.startBody_taken : (s.startBody).taken = s.taken := rfl
@[simp] theorem State.startBody_fedUnseen : (s.startBody).fedUnseen = s.fedUnseen := rfl
@[simp] theorem State.startBody_reply : (s.startBody).reply = s.reply := rfl
@[simp] theorem State.startBody_agenda : (s.startBody).agenda = s.agenda := rfl
@[simp] theorem State.startBody_draws : (s.startBody).draws = s.draws := rfl

@[simp] theorem State.enqueue_platform (c : Chunk) : (s.enqueue c).platform = s.platform := rfl
@[simp] theorem State.enqueue_regs (c : Chunk) : (s.enqueue c).regs = s.regs := rfl
@[simp] theorem State.enqueue_ovr (c : Chunk) : (s.enqueue c).ovr = s.ovr := rfl
@[simp] theorem State.enqueue_errCode (c : Chunk) : (s.enqueue c).errCode = s.errCode := rfl
@[simp] theorem State.enqueue_serr (c : Chunk) : (s.enqueue c).serr = s.serr := rfl
@[simp] theorem State.enqueue_result0 (c : Chunk) : (s.enqueue c).result0 = s.result0 := rfl
@[simp] theorem State.enqueue_result1 (c : Chunk) : (s.enqueue c).result1 = s.result1 := rfl
@[simp] theorem State.enqueue_pending (c : Chunk) : (s.enqueue c).pending = s.pending := rfl
@[simp] theorem State.enqueue_queue (c : Chunk) : (s.enqueue c).queue = s.queue ++ [c] := rfl
@[simp] theorem State.enqueue_sess (c : Chunk) : (s.enqueue c).sess = s.sess := rfl
@[simp] theorem State.enqueue_codecIn (c : Chunk) : (s.enqueue c).codecIn = s.codecIn := rfl
@[simp] theorem State.enqueue_codecOut (c : Chunk) : (s.enqueue c).codecOut = s.codecOut := rfl
@[simp] theorem State.enqueue_outLog (c : Chunk) : (s.enqueue c).outLog = s.outLog := rfl
@[simp] theorem State.enqueue_mem (c : Chunk) : (s.enqueue c).mem = s.mem := rfl
@[simp] theorem State.enqueue_codecCalls (c : Chunk) : (s.enqueue c).codecCalls = s.codecCalls := rfl
@[simp] theorem State.enqueue_codecAnswer (c : Chunk) : (s.enqueue c).codecAnswer = s.codecAnswer := rfl
@[simp] theorem State.enqueue_taken (c : Chunk) : (s.enqueue c).taken = s.taken := rfl
@[simp] theorem State.enqueue_fedUnseen (c : Chunk) : (s.enqueue c).fedUnseen = s.fedUnseen := rfl
@[simp] theorem State.enqueue_reply (c : Chunk) : (s.enqueue c).reply = s.reply := rfl
@[simp] theorem State.enqueue_agenda (c : Chunk) : (s.enqueue c).agenda = s.agenda := rfl
@[simp] theorem State.enqueue_draws (c : Chunk) : (s.enqueue c).draws = s.draws := rfl

@[simp] theorem State.requestStop_platform : (s.requestStop).platform = s.platform := rfl
@[simp] theorem State.requestStop_regs : (s.requestStop).regs = s.regs := rfl
@[simp] theorem State.requestStop_ovr : (s.requestStop).ovr = s.ovr := rfl
@[simp] theorem State.requestStop_errCode : (s.requestStop).errCode = s.errCode := rfl
@[simp] theorem State.requestStop_serr : (s.requestStop).serr = s.serr := rfl
@[simp] theorem State.requestStop_result0 : (s.requestStop).result0 = s.result0 := rfl
@[simp] theorem State.requestStop_result1 : (s.requestStop).result1 = s.result1 := rfl
@[simp] theorem State.requestStop_pending : (s.requestStop).pending = s.pending := rfl
@[simp] theorem State.requestStop_queue : (s.requestStop).queue = s.queue := rfl
@[simp] theorem State.requestStop_sess :
    (s.requestStop).sess = { s.sess with stopReq := true, state := .draining } := rfl
@[simp] theorem State.requestStop_codecIn : (s.requestStop).codecIn = s.codecIn := rfl
@[simp] theorem State.requestStop_codecOut : (s.requestStop).codecOut = s.codecOut := rfl
@[simp] theorem State.requestStop_outLog : (s.requestStop).outLog = s.outLog := rfl
@[simp] theorem State.requestStop_mem : (s.requestStop).mem = s.mem := rfl
@[simp] theorem State.requestStop_codecCalls : (s.requestStop).codecCalls = s.codecCalls := rfl
@[simp] theorem State.requestStop_codecAnswer : (s.requestStop).codecAnswer = s.codecAnswer := rfl
@[simp] theorem State.requestStop_taken : (s.requestStop).taken = s.taken := rfl
@[simp] theorem State.requestStop_fedUnseen : (s.requestStop).fedUnseen = s.fedUnseen := rfl
@[simp] theorem State.requestStop_reply : (s.requestStop).reply = s.reply := rfl
@[simp] theorem State.requestStop_agenda : (s.requestStop).agenda = s.agenda := rfl
@[simp] theorem State.requestStop_draws : (s.requestStop).draws = s.draws := rfl

@[simp] theorem State.feed_platform (d : Chunk) (rest : List Chunk) : (s.feed d rest).platform = s.platform := rfl
@[simp] theorem State.feed_regs (d : Chunk) (rest : List Chunk) : (s.feed d rest).regs = s.regs := rfl
@[simp] theorem State.feed_ovr (d : Chunk) (rest : List Chunk) : (s.feed d rest).ovr = s.ovr := rfl
@[simp] theorem State.feed_errCode (d : Chunk) (rest : List Chunk) : (s.feed d rest).errCode = s.errCode := rfl
@[simp] theorem State.feed_serr (d : Chunk) (rest : List Chunk) : (s.feed d rest).serr = s.serr := rfl
@[simp] theorem State.feed_result0 (d : Chunk) (rest : List Chunk) : (s.feed d rest).result0 = s.result0 := rfl
@[simp] theorem State.feed_result1 (d : Chunk) (rest : List Chunk) : (s.feed d rest).result1 = s.result1 := rfl
@[simp] theorem State.feed_pending (d : Chunk) (rest : List Chunk) : (s.feed d rest).pending = s.pending := rfl
@[simp] theorem State.feed_queue (d : Chunk) (rest : List Chunk) : (s.feed d rest).queue = rest := rfl
@[simp] theorem State.feed_sess (d : Chunk) (rest : List Chunk) : (s.feed d rest).sess = s.sess.fed d.len.toNat := rfl
@[simp] theorem State.feed_codecIn (d : Chunk) (rest : List Chunk) : (s.feed d rest).codecIn = s.codecIn ++
      [{ bytes := s.mem.readBytes d.addr.toNat d.len.toNat, pts := s.sess.pts, eos := false }] := rfl
@[simp] theorem State.feed_codecOut (d : Chunk) (rest : List Chunk) : (s.feed d rest).codecOut = s.codecOut := rfl
@[simp] theorem State.feed_outLog (d : Chunk) (rest : List Chunk) : (s.feed d rest).outLog = s.outLog := rfl
@[simp] theorem State.feed_mem (d : Chunk) (rest : List Chunk) : (s.feed d rest).mem = s.mem := rfl
@[simp] theorem State.feed_codecCalls (d : Chunk) (rest : List Chunk) :
    (s.feed d rest).codecCalls = s.codecCalls := rfl
@[simp] theorem State.feed_codecAnswer (d : Chunk) (rest : List Chunk) :
    (s.feed d rest).codecAnswer = s.codecAnswer := rfl
@[simp] theorem State.feed_taken (d : Chunk) (rest : List Chunk) : (s.feed d rest).taken = s.taken := rfl
@[simp] theorem State.feed_fedUnseen (d : Chunk) (rest : List Chunk) :
    (s.feed d rest).fedUnseen = s.fedUnseen ++ [{ chunk := d, index := s.sess.fedCount }] := rfl
@[simp] theorem State.feed_reply (d : Chunk) (rest : List Chunk) : (s.feed d rest).reply = s.reply := rfl
@[simp] theorem State.feed_agenda (d : Chunk) (rest : List Chunk) : (s.feed d rest).agenda = s.agenda := rfl
@[simp] theorem State.feed_draws (d : Chunk) (rest : List Chunk) : (s.feed d rest).draws = s.draws := rfl

@[simp] theorem State.feedEnd_platform : (s.feedEnd).platform = s.platform := rfl
@[simp] theorem State.feedEnd_regs : (s.feedEnd).regs = s.regs := rfl
@[simp] theorem State.feedEnd_ovr : (s.feedEnd).ovr = s.ovr := rfl
@[simp] theorem State.feedEnd_errCode : (s.feedEnd).errCode = s.errCode := rfl
@[simp] theorem State.feedEnd_serr : (s.feedEnd).serr = s.serr := rfl
@[simp] theorem State.feedEnd_result0 : (s.feedEnd).result0 = s.result0 := rfl
@[simp] theorem State.feedEnd_result1 : (s.feedEnd).result1 = s.result1 := rfl
@[simp] theorem State.feedEnd_pending : (s.feedEnd).pending = s.pending := rfl
@[simp] theorem State.feedEnd_queue : (s.feedEnd).queue = s.queue := rfl
@[simp] theorem State.feedEnd_sess : (s.feedEnd).sess = { s.sess with inDone := true } := rfl
@[simp] theorem State.feedEnd_codecIn :
    (s.feedEnd).codecIn = s.codecIn ++ [{ bytes := [], pts := s.sess.pts, eos := true }] := rfl
@[simp] theorem State.feedEnd_codecOut : (s.feedEnd).codecOut = s.codecOut := rfl
@[simp] theorem State.feedEnd_outLog : (s.feedEnd).outLog = s.outLog := rfl
@[simp] theorem State.feedEnd_mem : (s.feedEnd).mem = s.mem := rfl
@[simp] theorem State.feedEnd_codecCalls : (s.feedEnd).codecCalls = s.codecCalls := rfl
@[simp] theorem State.feedEnd_codecAnswer : (s.feedEnd).codecAnswer = s.codecAnswer := rfl
@[simp] theorem State.feedEnd_taken : (s.feedEnd).taken = s.taken := rfl
@[simp] theorem State.feedEnd_fedUnseen : (s.feedEnd).fedUnseen = s.fedUnseen := rfl
@[simp] theorem State.feedEnd_reply : (s.feedEnd).reply = s.reply := rfl
@[simp] theorem State.feedEnd_agenda : (s.feedEnd).agenda = s.agenda := rfl
@[simp] theorem State.feedEnd_draws : (s.feedEnd).draws = s.draws := rfl

@[simp] theorem State.emitData_platform (bytes : List Byte) : (s.emitData bytes).platform = s.platform := rfl
@[simp] theorem State.emitData_regs (bytes : List Byte) : (s.emitData bytes).regs = s.regs := rfl
@[simp] theorem State.emitData_ovr (bytes : List Byte) : (s.emitData bytes).ovr = s.ovr := rfl
@[simp] theorem State.emitData_errCode (bytes : List Byte) : (s.emitData bytes).errCode = s.errCode := rfl
@[simp] theorem State.emitData_serr (bytes : List Byte) : (s.emitData bytes).serr = s.serr := rfl
@[simp] theorem State.emitData_result0 (bytes : List Byte) : (s.emitData bytes).result0 = s.result0 := rfl
@[simp] theorem State.emitData_result1 (bytes : List Byte) : (s.emitData bytes).result1 = s.result1 := rfl
@[simp] theorem State.emitData_pending (bytes : List Byte) : (s.emitData bytes).pending = s.pending := rfl
@[simp] theorem State.emitData_queue (bytes : List Byte) : (s.emitData bytes).queue = s.queue := rfl
@[simp] theorem State.emitData_sess (bytes : List Byte) :
    (s.emitData bytes).sess = { s.sess with emitCount := s.sess.emitCount + 1 } := rfl
@[simp] theorem State.emitData_codecIn (bytes : List Byte) : (s.emitData bytes).codecIn = s.codecIn := rfl
@[simp] theorem State.emitData_codecOut (bytes : List Byte) : (s.emitData bytes).codecOut = s.codecOut := rfl
@[simp] theorem State.emitData_outLog (bytes : List Byte) :
    (s.emitData bytes).outLog = s.outLog ++ [.data bytes] := rfl
@[simp] theorem State.emitData_mem (bytes : List Byte) : (s.emitData bytes).mem = s.mem := rfl
@[simp] theorem State.emitData_codecCalls (bytes : List Byte) : (s.emitData bytes).codecCalls = s.codecCalls := rfl
@[simp] theorem State.emitData_codecAnswer (bytes : List Byte) : (s.emitData bytes).codecAnswer = s.codecAnswer := rfl
@[simp] theorem State.emitData_taken (bytes : List Byte) : (s.emitData bytes).taken = s.taken := rfl
@[simp] theorem State.emitData_fedUnseen (bytes : List Byte) : (s.emitData bytes).fedUnseen = s.fedUnseen := rfl
@[simp] theorem State.emitData_reply (bytes : List Byte) : (s.emitData bytes).reply = s.reply := rfl
@[simp] theorem State.emitData_agenda (bytes : List Byte) : (s.emitData bytes).agenda = s.agenda := rfl
@[simp] theorem State.emitData_draws (bytes : List Byte) : (s.emitData bytes).draws = s.draws := rfl

end Sys2Proof.Machine
end

