-- ==== Sys2Proof/Laws/Ops.lean ====
section
/-! SUPPORT. One lemma for each shared operation that says everything it can do. -/

namespace Sys2Proof.Machine

/-! ### Lengths -/

@[simp] theorem length_le16bytes (v : Int) : (le16bytes v).length = 2 := rfl

@[simp] theorem length_bytes16 (seq : List Int) : (bytes16 seq).length = 2 * seq.length := by
  induction seq with
  | nil => rfl
  | cons v seq ih =>
    simp only [bytes16, List.flatMap_cons, List.length_append, length_le16bytes, List.length_cons] at ih ⊢
    omega

theorem length_samples16 : (bytes : List Byte) → (samples16 bytes).length = bytes.length / 2
  | [] => rfl
  | [_] => by simp [samples16]
  | _ :: _ :: rest => by
    simp only [samples16, List.length_cons, length_samples16 rest]
    omega

theorem length_slice (bytes : List Byte) (a n : Nat) : (slice bytes a n).length = min n (bytes.length - a) := by
  simp [slice]

/-- Pieces of one length, one after the other. -/
theorem length_flatMap_range {f : Nat → List Byte} {n : Nat} (k : Nat) (h : ∀ i < k, (f i).length = n) :
    ((List.range k).flatMap f).length = k * n := by
  induction k with
  | zero => simp
  | succ k ih =>
    rw [List.range_succ, List.flatMap_append, List.length_append, ih fun i hi => h i (by omega)]
    simp [h k (by omega), Nat.add_mul]

/-- Byte `j` of piece `f` where all pieces have one length. -/
theorem getElem?_flatMap_range {f : Nat → List Byte} {n : Nat} (k : Nat) (h : ∀ i < k, (f i).length = n) {i j : Nat}
    (hi : i < k) (hj : j < n) : ((List.range k).flatMap f)[i * n + j]? = (f i)[j]? := by
  induction k with
  | zero => omega
  | succ k ih =>
    have hk := length_flatMap_range k fun i hi => h i (Nat.lt_succ_of_lt hi)
    rw [List.range_succ, List.flatMap_append]
    by_cases e : i = k
    · subst e
      rw [List.getElem?_append_right (by omega), hk]
      simp
    · have hlt : i * n + j < k * n :=
        calc i * n + j < i * n + n := by omega
          _ = (i + 1) * n := by rw [Nat.add_mul]; simp
          _ ≤ k * n := Nat.mul_le_mul_right n (by omega)
      rw [List.getElem?_append_left (by omega)]
      exact ih (fun i hi => h i (Nat.lt_succ_of_lt hi)) (by omega)

/-- A whole piece lies in the bytes it is cut from. -/
theorem piece_fits {nb fs off n i : Nat} (hfs : off + n ≤ fs) (hi : i < nb / fs) : i * fs + off + n ≤ nb :=
  calc i * fs + off + n ≤ i * fs + fs := by omega
    _ = (i + 1) * fs := by rw [Nat.add_mul]; simp
    _ ≤ nb / fs * fs := Nat.mul_le_mul_right fs (by omega)
    _ ≤ nb := Nat.div_mul_le_self nb fs

theorem length_pickFrames {bytes : List Byte} {fs off n : Nat} (hfs : off + n ≤ fs) :
    (pickFrames bytes fs off n (bytes.length / fs)).length = bytes.length / fs * n :=
  length_flatMap_range _ fun i hi => by
    have := piece_fits hfs hi
    rw [length_slice]
    omega

theorem length_doubleSamples {bytes : List Byte} {bps : Nat} (h : bytes.length % bps = 0) :
    (doubleSamples bytes bps (bytes.length / bps)).length = 2 * bytes.length := by
  have e : bytes.length / bps * bps = bytes.length := Nat.div_mul_cancel (Nat.dvd_of_mod_eq_zero h)
  have := length_flatMap_range (f := fun i => slice bytes (i * bps) bps ++ slice bytes (i * bps) bps) (n := 2 * bps)
    (bytes.length / bps) fun i hi => by
      have := piece_fits (off := 0) (n := bps) (by omega) hi
      rw [List.length_append, length_slice]
      omega
  rw [doubleSamples, this]
  calc bytes.length / bps * (2 * bps) = 2 * (bytes.length / bps * bps) := by ring
    _ = 2 * bytes.length := by rw [e]

@[simp] theorem length_resampled (x : List Int) (len outLen : Nat) : (resampled x len outLen).length = outLen := by
  simp [resampled]

@[simp] theorem length_mixed (f : Strategy) (ts : List (List Int)) (ws : List Int) (column : Nat) :
    (mixed f ts ws column).length = column := by
  simp [mixed]

@[simp] theorem length_adtsHeader (id : BitVec 1) (prof : BitVec 2) (sfi : BitVec 4) (cc : BitVec 3) (fl : BitVec 13) :
    (adtsHeader id prof sfi cc fl).length = adtsHeaderBytes := rfl

/-! ### The destination checks -/

/-- `store` answers an output exactly where the checks pass, and then the one it was given. -/
theorem store_eq_ok {p : Platform} {o : OperandRegs} {reads : List Region} {ob : Nat} {bytes : List Byte} {r0 r1 : Word}
    {out : Output} :
    store p o reads ob bytes r0 r1 = .ok out ↔
      Storable p o reads ob ∧ out = ⟨⟨o.dstAddr.toNat, ob⟩, bytes, r0, r1⟩ := by
  unfold store Storable
  by_cases h1 : ob > o.dstCap.toNat
  · simp [h1]
  · by_cases h2 : Region.valid ⟨o.dstAddr.toNat, ob⟩ p = true
    · by_cases h3 : reads.any (Region.overlaps ⟨o.dstAddr.toNat, ob⟩) = true
      · obtain ⟨r, hr, ho⟩ := List.any_eq_true.mp h3
        simp only [gt_iff_lt, h1, h2, h3, Bool.not_true, Bool.false_eq_true, if_false, if_true, reduceCtorEq, true_and,
          false_iff, not_and]
        intro hc
        have := hc.2 r hr
        simp [ho] at this
      · have h3' : ∀ r ∈ reads, Region.overlaps ⟨o.dstAddr.toNat, ob⟩ r = false := by simpa using h3
        simp only [gt_iff_lt, h1, h2, h3, Bool.not_true, Bool.false_eq_true, if_false, Except.ok.injEq, true_and]
        constructor
        · rintro rfl; exact ⟨⟨by omega, h3'⟩, rfl⟩
        · rintro ⟨-, rfl⟩; rfl
    · simp [h1, h2]

theorem store_of_storable {p : Platform} {o : OperandRegs} {reads : List Region} {ob : Nat}
    (h : Storable p o reads ob) (bytes : List Byte) (r0 r1 : Word) :
    store p o reads ob bytes r0 r1 = .ok ⟨⟨o.dstAddr.toNat, ob⟩, bytes, r0, r1⟩ :=
  store_eq_ok.mpr ⟨h, rfl⟩

/-- Every error of `store` is one of the three destination errors. -/
theorem store_eq_error {p : Platform} {o : OperandRegs} {reads : List Region} {ob : Nat} {bytes : List Byte}
    {r0 r1 : Word} {e : ErrCode} (h : store p o reads ob bytes r0 r1 = .error e) :
    e = .capacity ∨ e = .range ∨ e = .overlap := by
  simp only [store] at h
  split at h
  · simp_all
  · split at h
    · simp_all
    · split at h <;> simp_all

/-! ### Every data command's output -/

/-- An output that its destination checks allow: it lies at DST_ADDR, fits DST_CAP and MEM_BYTES, and its bytes fill its
region exactly. -/
structure Output.Fits (p : Platform) (o : OperandRegs) (out : Output) : Prop where
  addr     : out.region.addr = o.dstAddr.toNat
  capacity : out.region.len ≤ o.dstCap.toNat
  valid    : out.region.valid p = true
  filled   : out.bytes.length = out.region.len

/-- A draft's bytes are as many as its output byte count. -/
def Draft.Filled (d : Draft) : Prop := d.bytes.length = d.ob

/-- `finish` answers an output exactly where the draft stands and its destination checks pass. -/
theorem finish_eq_ok {p : Platform} {o : OperandRegs} {x : Except ErrCode Draft} {out : Output} :
    finish p o x = .ok out ↔
      ∃ d, x = .ok d ∧ Storable p o d.reads d.ob ∧ out = ⟨⟨o.dstAddr.toNat, d.ob⟩, d.bytes, d.r0, d.r1⟩ := by
  cases x with
  | error e => simp [finish]
  | ok d => simp [finish, store_eq_ok]

theorem resampleDraft_filled {p : Platform} {m : Memory} {o : OperandRegs} {d : Draft}
    (h : resampleDraft p m o = .ok d) : d.Filled := by
  simp only [resampleDraft] at h
  split at h
  · split at h <;> cases h
    simp [Draft.Filled]
  · iterate 4 (split at h; · cases h)
    cases h
    simp [Draft.Filled]

theorem channelCopy_filled {m : Memory} {o : OperandRegs} {d : Draft} (h : channelCopy m o = .ok d) : d.Filled := by
  cases h; simp [Draft.Filled]

theorem channelPick_filled {m : Memory} {o : OperandRegs} {d : Draft} {fs off n : Nat} (hfs : off + n ≤ fs)
    (h : channelPick m o fs off n = .ok d) : d.Filled := by
  simp only [channelPick] at h
  split at h <;> cases h
  have := length_pickFrames (bytes := m.readBytes o.source.addr o.source.len) hfs
  simpa [Draft.Filled] using this

theorem extractDraft_filled {p : Platform} {m : Memory} {o : OperandRegs} {d : Draft} {bps off : Nat}
    (hoff : off ≤ bps) (h : extractDraft bps off p m o = .ok d) : d.Filled := by
  simp only [extractDraft] at h
  iterate 2 (split at h; · cases h)
  split at h
  · exact channelCopy_filled h
  · refine channelPick_filled ?_ h
    calc off + bps ≤ 2 * bps := by omega
      _ ≤ o.param0.toNat * bps := Nat.mul_le_mul_right bps (by omega)

theorem red2Draft_filled {bd : BitVec 1} {p : Platform} {m : Memory} {o : OperandRegs} {d : Draft}
    (h : red2Draft bd p m o = .ok d) : d.Filled := by
  simp only [red2Draft] at h
  split at h
  · cases h
  · split at h
    · exact channelCopy_filled h
    · refine channelPick_filled ?_ h
      rw [Nat.zero_add]
      exact Nat.mul_le_mul_right _ (by omega)

theorem m2sDraft_filled {bd : BitVec 1} {p : Platform} {m : Memory} {o : OperandRegs} {d : Draft}
    (h : m2sDraft bd p m o = .ok d) : d.Filled := by
  simp only [m2sDraft] at h
  split at h
  · cases h
  · split at h
    · cases h
    · next hs =>
      cases h
      have := length_doubleSamples (bytes := m.readBytes o.source.addr o.source.len) (bps := bytesPerSample bd)
        (by simpa using hs)
      simpa [Draft.Filled] using this

theorem mixDraft_filled {f : Strategy} {p : Platform} {m : Memory} {o : OperandRegs} {d : Draft}
    (h : mixDraft f p m o = .ok d) : d.Filled := by
  simp only [mixDraft] at h
  iterate 5 (split at h; · cases h)
  cases h
  simp [Draft.Filled]
  omega

theorem adtsencDraft_filled {prof : BitVec 2} {sfi : BitVec 4} {cc : BitVec 3} {o : OperandRegs} {d : Draft}
    (h : adtsencDraft prof sfi cc o = .ok d) : d.Filled := by
  simp only [adtsencDraft] at h
  iterate 3 (split at h; · cases h)
  cases h
  simp [Draft.Filled]

/-- Every draft of a data command is filled. -/
theorem dataDraft_filled {i : Instr} {p : Platform} {m : Memory} {o : OperandRegs} {d : Draft}
    (h : dataDraft i p m o = some (.ok d)) : d.Filled := by
  cases i with
  | resample => exact resampleDraft_filled (Option.some.inj h)
  | extl bd => exact extractDraft_filled (by omega) (Option.some.inj h)
  | extr bd => exact extractDraft_filled (by omega) (Option.some.inj h)
  | red2 bd => exact red2Draft_filled (Option.some.inj h)
  | m2s bd => exact m2sDraft_filled (Option.some.inj h)
  | mixext | mixadd | mixavg | mixwgt => exact mixDraft_filled (Option.some.inj h)
  | adtsenc prof sfi cc => exact adtsencDraft_filled (Option.some.inj h)
  | adtsparse | sfilookup | sprepare | sstart | ssubmit | sstop => cases h

/-- A data command delivers an output exactly where its draft stands and its destination checks pass. -/
theorem dataPlan_eq_some {i : Instr} {p : Platform} {m : Memory} {o : OperandRegs} {out : Output} :
    dataPlan i p m o = some out ↔
      ∃ d, dataDraft i p m o = some (.ok d) ∧ Storable p o d.reads d.ob ∧
        out = ⟨⟨o.dstAddr.toNat, d.ob⟩, d.bytes, d.r0, d.r1⟩ := by
  unfold dataPlan
  cases hx : dataDraft i p m o with
  | none => simp
  | some x =>
    cases hf : finish p o x with
    | error e =>
      have := fun out => (not_congr (finish_eq_ok (p := p) (o := o) (x := x) (out := out))).mp (by simp [hf])
      simpa [hf, Except.toOption] using this out
    | ok out' =>
      obtain ⟨d, rfl, hs, rfl⟩ := finish_eq_ok.mp hf
      simp only [hf, Except.toOption, Option.some.injEq, Except.ok.injEq]
      constructor
      · rintro rfl; exact ⟨d, rfl, hs, rfl⟩
      · rintro ⟨_, rfl, -, rfl⟩; rfl

/-- Every output a data command delivers fits its destination. -/
theorem dataPlan_fits {i : Instr} {p : Platform} {m : Memory} {o : OperandRegs} {out : Output}
    (h : dataPlan i p m o = some out) : out.Fits p o := by
  obtain ⟨d, hd, ⟨h1, h2, -⟩, rfl⟩ := dataPlan_eq_some.mp h
  exact ⟨rfl, h1, h2, dataDraft_filled hd⟩

/-! ### Completion -/

/-- Everything `deliver` can do. -/
theorem deliver_cases {s t : State} {x : Except ErrCode Output} (h : s.deliver x = .next t) :
    (∃ e, x = .error e ∧ t = s.fail e) ∨
      ∃ out, x = .ok out ∧
        t = { s.complete .ok out.r0 out.r1 with mem := s.mem.writeBytes out.region.addr out.bytes } := by
  cases x with
  | error e => exact .inl ⟨e, rfl, by simpa [State.deliver] using h.symm⟩
  | ok out => exact .inr ⟨out, rfl, by simpa [State.deliver, State.complete] using h.symm⟩

/-- Everything `answer` can do. -/
theorem answer_cases {s t : State} {x : Except ErrCode (Word × Word)} (h : s.answer x = .next t) :
    (∃ e, x = .error e ∧ t = s.fail e) ∨ ∃ r, x = .ok r ∧ t = s.complete .ok r.1 r.2 := by
  cases x with
  | error e => exact .inl ⟨e, rfl, by simpa [State.answer] using h.symm⟩
  | ok r => exact .inr ⟨r, rfl, by simpa [State.answer] using h.symm⟩

/-- Everything the configuration part of SPREPARE can do. -/
theorem prepare_cases (s : State) (o : OperandRegs) :
    s.prepare o = s.configFailed ∨
      s.prepare o = (s.askedConfigure (configRequest o)).configFailed ∨
      ∃ c, chcfgOf o.scfgCh = some c ∧ o.scfgRate ≠ 0 ∧ modeProfile o.scfgMode ≠ 3 ∧
        (s.prepare o = (((s.askedConfigure (configRequest o)).latchConfig o c)).complete .ok 0 0 ∨
          s.prepare o = (((s.askedConfigure (configRequest o)).latchConfig o c).startBody).complete .ok 0 0) := by
  unfold State.prepare
  cases hc : chcfgOf o.scfgCh with
  | none => exact .inl rfl
  | some c =>
    simp only
    split
    · exact .inl rfl
    · next hn =>
      obtain ⟨hr, hp⟩ := not_or.mp hn
      split
      · split
        · exact .inr (.inr ⟨c, rfl, hr, hp, .inr rfl⟩)
        · exact .inr (.inr ⟨c, rfl, hr, hp, .inl rfl⟩)
      · exact .inr (.inl rfl)

/-- Everything SSUBMIT can do in Running. -/
theorem submit_cases (s : State) (c : Chunk) :
    (∃ e, s.submit c = s.fail e) ∨
      (s.sess.chunkShape c.len.toNat = true ∧ c.region.valid s.platform = true ∧ s.queue.length < Config.queueDepth ∧
        s.submit c = (s.enqueue c).complete .ok (BitVec.ofNat 32 (s.queue.length + 1)) 0) := by
  unfold State.submit
  split
  · exact .inl ⟨_, rfl⟩
  · next h1 =>
    split
    · exact .inl ⟨_, rfl⟩
    · next h2 =>
      split
      · exact .inl ⟨_, rfl⟩
      · next h3 => exact .inr ⟨by simpa using h1, by simpa using h2, by omega, rfl⟩

/-! ### Engines -/

/-- Everything the feeder can do. -/
theorem feederStep_cases (accepts : Bool) (s : State) :
    feederStep accepts s = s ∨
      (s.sess.active = true ∧ s.sess.inDone = false ∧ accepts = true ∧
        ((∃ d rest, s.queue = d :: rest ∧ feederStep accepts s = s.feed d rest) ∨
          (s.queue = [] ∧ s.sess.stopReq = true ∧ feederStep accepts s = s.feedEnd))) := by
  unfold feederStep
  split
  · next h =>
    simp only [Bool.and_eq_true, Bool.not_eq_true'] at h
    split
    · next d rest hq => exact .inr ⟨h.1.1, h.1.2, h.2, .inl ⟨d, rest, hq, rfl⟩⟩
    · next hq =>
      split
      · next hs => exact .inr ⟨h.1.1, h.1.2, h.2, .inr ⟨hq, hs, rfl⟩⟩
      · exact .inl rfl
  · exact .inl rfl

/-- What the drainer's emission leaves alone. -/
theorem emitBuffer_frame (s : State) (p : List Byte) :
    ∃ log n code, s.emitBuffer p =
      { s with outLog := s.outLog ++ log, sess := { s.sess with emitCount := n }, serr := code } := by
  unfold State.emitBuffer
  split
  · exact ⟨[], s.sess.emitCount, s.serr, by simp⟩
  · split
    · split
      · exact ⟨_, s.sess.emitCount, .frameTooLong, rfl⟩
      · exact ⟨_, _, s.serr, rfl⟩
    · exact ⟨_, _, s.serr, rfl⟩

/-- Everything the drainer can do. -/
theorem drainerStep_cases (s : State) :
    drainerStep s = s ∨
      ∃ b rest, s.codecOut = b :: rest ∧ s.sess.active = true ∧ s.sess.outDone = false ∧
        drainerStep s = (({ s with codecOut := rest } : State).emitBuffer b.bytes).markOutDone b.eos := by
  unfold drainerStep
  split
  · next h =>
    simp only [Bool.and_eq_true, Bool.not_eq_true'] at h
    split
    · next b rest hq => exact .inr ⟨b, rest, hq, h.1, h.2, rfl⟩
    · exact .inl rfl
  · exact .inl rfl

/-- Everything the release logic can do. -/
theorem releaseStep_cases (s : State) :
    releaseStep s = s ∨
      (s.sess.state = .draining ∧ s.sess.inDone = true ∧ s.sess.outDone = true ∧ s.sess.released = false ∧
        releaseStep s = { s with sess := .cleared, codecCalls := s.codecCalls ++ [.release],
                                 outLog := s.outLog ++ [.sessionEnd] }) := by
  unfold releaseStep
  split
  · next h => exact .inr ⟨h.1, h.2.1, h.2.2.1, h.2.2.2, rfl⟩
  · exact .inl rfl

/-- Everything the codec device's step can do. -/
theorem codecProduceStep_cases (bytes : List Byte) (eos : Bool) (s : State) :
    codecProduceStep bytes eos s = s ∨
      (s.sess.active = true ∧ s.lastProduced = false ∧ (eos = true → s.endMarkerAccepted = true) ∧
        codecProduceStep bytes eos s = { s with codecOut := s.codecOut ++ [{ bytes := bytes, eos := eos }] }) := by
  unfold codecProduceStep
  split
  · next h =>
    simp only [Bool.and_eq_true, Bool.not_eq_true', Bool.or_eq_true] at h
    exact .inr ⟨h.1.1, h.1.2, fun he => by simpa [he] using h.2, rfl⟩
  · exact .inl rfl

/-! ### Host accesses -/

/-- Everything a host's register read can do. -/
theorem hostReadReg_cases {addr : Word} {width : Width} {asResult : Bool} {s t : State}
    (h : hostReadReg addr width asResult s = .next t) :
    ∃ off, windowOffset s.platform addr width = some off ∧
      (asResult = true → s.busy = true → isResultOffset off = false) ∧ t = s.afterRead off := by
  unfold hostReadReg at h
  split at h
  · cases h
  · next off ho =>
    split at h
    · cases h
    · next hb =>
      refine ⟨off, ho, fun ha hbusy => by simpa [ha, hbusy] using hb, ?_⟩
      cases h; rfl

/-- Everything a host's register write can do. -/
theorem hostWriteReg_cases {addr : Word} {width : Width} {data : Word} {s t : State}
    (h : hostWriteReg addr width data s = .next t) :
    ∃ off, windowOffset s.platform addr width = some off ∧ t = s.writeOffset off data := by
  unfold hostWriteReg at h
  split at h
  · cases h
  · next off ho => cases h; exact ⟨off, ho, rfl⟩

/-- Everything a host's memory read can do. -/
theorem hostReadMem_cases {addr len : Word} {s t : State} (h : hostReadMem addr len s = .next t) :
    Region.valid ⟨addr.toNat, len.toNat⟩ s.platform = true ∧
      s.pendingDest.any (Region.overlaps ⟨addr.toNat, len.toNat⟩) = false ∧
      t = { s with reply := .bytes (s.mem.readBytes addr.toNat len.toNat) } := by
  simp only [hostReadMem] at h
  split at h
  · cases h
  · next h1 =>
    split at h
    · cases h
    · next h2 => cases h; exact ⟨by simpa using h1, by simpa using h2, rfl⟩

/-- Everything a host's memory write can do. -/
theorem hostWriteMem_cases {addr : Word} {bytes : List Byte} {s t : State} (h : hostWriteMem addr bytes s = .next t) :
    Region.valid ⟨addr.toNat, bytes.length⟩ s.platform = true ∧
      (s.pendingReads ++ s.pendingDest).any (Region.overlaps ⟨addr.toNat, bytes.length⟩) = false ∧
      s.lentRegions.any (Region.overlaps ⟨addr.toNat, bytes.length⟩) = false ∧
      t = { s with mem := s.mem.writeBytes addr.toNat bytes } := by
  simp only [hostWriteMem] at h
  split at h
  · cases h
  · next h1 =>
    split at h
    · cases h
    · next h2 =>
      split at h
      · cases h
      · next h3 => cases h; exact ⟨by simpa using h1, by simpa using h2, by simpa using h3, rfl⟩

/-- Everything taking a message can do. -/
theorem hostTake_cases (s : State) :
    (∃ msg, s.outLog[s.taken]? = some msg ∧ hostTake s = { s with taken := s.taken + 1, reply := .message msg }) ∨
      (s.outLog.length ≤ s.taken ∧ hostTake s = { s with reply := .noMessage }) := by
  unfold hostTake
  split
  · next msg hm => exact .inl ⟨msg, hm, rfl⟩
  · next hm => exact .inr ⟨by simpa using hm, rfl⟩

/-- A register access that has a meaning is a 32-bit access at its offset from REG_BASE. -/
theorem windowOffset_eq_some {p : Platform} {addr : Word} {width : Width} {off : Nat}
    (h : windowOffset p addr width = some off) : width = .word ∧ addr = p.regBase + BitVec.ofNat 32 off := by
  simp only [windowOffset] at h
  split at h
  · next hc =>
    cases h
    exact ⟨hc.1, by rw [BitVec.ofNat_toNat]; simp⟩
  · cases h

/-- A register found at an offset has that offset. -/
theorem Reg.atOffset_eq_some {off : Nat} {r : Reg} (h : Reg.atOffset off = some r) : off = r.offset := by
  unfold Reg.atOffset at h
  have found := List.find?_some h
  exact (beq_iff_eq.mp found).symm

/-- The register at each register's own offset is that register (spec/10_state.md section 4). -/
@[simp] theorem Reg.atOffset_offset (r : Reg) : Reg.atOffset r.offset = some r := by cases r <;> rfl

end Sys2Proof.Machine
end

