-- ==== Sys2Proof/Laws/Hazards.lean ====
section
/-! SUPPORT. The regions a pending command names: its destination is that of the output it names, whether or not its
destination checks pass. -/

namespace Sys2Proof.Machine

/-- The draft stands and counts `ob` output bytes. -/
def DraftsBytes (x : Except ErrCode Draft) (ob : Nat) : Prop := ∃ d, x = .ok d ∧ d.ob = ob

theorem draftsBytes_ok {d : Draft} {ob : Nat} : DraftsBytes (.ok d) ob ↔ ob = d.ob := by
  simp [DraftsBytes, eq_comm]

theorem draftsBytes_error {e : ErrCode} {ob : Nat} : ¬ DraftsBytes (.error e) ob := by simp [DraftsBytes]

/-- Past a check the draft is that of the rest. -/
theorem draftsBytes_check {c : Prop} [Decidable c] {e : ErrCode} {x : Except ErrCode Draft} {ob : Nat} :
    DraftsBytes (if c then .error e else x) ob ↔ ¬ c ∧ DraftsBytes x ob := by
  split <;> simp_all [draftsBytes_error]

theorem draftsBytes_ite {c : Prop} [Decidable c] {x y : Except ErrCode Draft} {ob : Nat} :
    DraftsBytes (if c then x else y) ob ↔ (c ∧ DraftsBytes x ob) ∨ (¬ c ∧ DraftsBytes y ob) := by
  split <;> simp_all

/-- Frames of `k` channels of `b` bytes, `b` bytes of each. -/
theorem frames_mul {n k b : Nat} (h : n % (k * b) = 0) (hk : 0 < k) (hb : 0 < b) : n / (k * b) * b = n / k := by
  obtain ⟨c, rfl⟩ := Nat.dvd_of_mod_eq_zero h
  rw [Nat.mul_div_cancel_left _ (Nat.mul_pos hk hb), Nat.mul_assoc, Nat.mul_div_cancel_left _ hk, Nat.mul_comm]

theorem bytesPerSample_pos (bd : BitVec 1) : 0 < bytesPerSample bd := by
  unfold bytesPerSample; split <;> omega

theorem resampleDraft_bytes {s : State} {ob : Nat} :
    DraftsBytes (resampleDraft s.platform s.mem s.op) ob ↔ s.NamesOutput .resample ob := by
  have e1 : s.op.source.len = s.srcBytes := rfl
  have e2 : outLength (s.srcBytes / 2) s.op.param0.toNat s.op.param1.toNat = s.outSamples := rfl
  simp only [resampleDraft, draftsBytes_ite (c := _ = _) (x := ite _ _ _), draftsBytes_check, draftsBytes_ok, e1, e2,
    State.NamesOutput, Bool.not_eq_true', Bool.not_eq_false, ← BitVec.toNat_inj, ne_eq]
  have : s.outSamples = 0 ↔ ¬ 1 ≤ s.outSamples := by omega
  tauto

theorem extractDraft_bytes {bd : BitVec 1} {off : Nat} {s : State} {ob : Nat} :
    DraftsBytes (extractDraft (bytesPerSample bd) off s.platform s.mem s.op) ob ↔ s.NamesOutput (.extl bd) ob := by
  have e0 : s.op.param0.toNat = s.channels := rfl
  have e1 : s.op.source.len = s.srcBytes := rfl
  simp only [extractDraft, channelCopy, channelPick, channelDraft, draftsBytes_ite (c := _ = 1), draftsBytes_check,
    draftsBytes_ok, e0, e1, State.NamesOutput, Bool.not_eq_true', Bool.not_eq_false, ne_eq, not_not]
  constructor
  · rintro ⟨h0, hv, ⟨h1, h⟩ | ⟨h1, hm, h⟩⟩
    · exact ⟨hv, .inl ⟨h1, h⟩⟩
    · exact ⟨hv, .inr ⟨by omega, hm, by rw [h, frames_mul hm (by omega) (bytesPerSample_pos bd)]⟩⟩
  · rintro ⟨hv, ⟨h1, h⟩ | ⟨h1, hm, h⟩⟩
    · exact ⟨by omega, hv, .inl ⟨h1, h⟩⟩
    · exact ⟨by omega, hv, .inr ⟨by omega, hm, by rw [h, frames_mul hm (by omega) (bytesPerSample_pos bd)]⟩⟩

theorem red2Draft_bytes {bd : BitVec 1} {s : State} {ob : Nat} :
    DraftsBytes (red2Draft bd s.platform s.mem s.op) ob ↔ s.NamesOutput (.red2 bd) ob := by
  have e0 : s.op.param0.toNat = s.channels := rfl
  have e1 : s.op.source.len = s.srcBytes := rfl
  simp only [red2Draft, channelCopy, channelPick, channelDraft, draftsBytes_ite (c := _ ≤ 2), draftsBytes_check,
    draftsBytes_ok, e0, e1, State.NamesOutput, Bool.not_eq_true', Bool.not_eq_false, ne_eq, not_not]
  refine and_congr_right fun _ => or_congr_right ?_
  rw [Nat.not_le]
  refine and_congr_right fun h3 => and_congr_right fun hm => ?_
  rw [Nat.mul_comm 2, ← Nat.mul_assoc, frames_mul hm (by omega) (bytesPerSample_pos bd)]

theorem mixDraft_bytes {f : Strategy} {s : State} {ob : Nat} :
    DraftsBytes (mixDraft f s.platform s.mem s.op) ob ↔ s.NamesOutput .mixadd ob := by
  have e0 : s.op.param0.toNat = s.rows := rfl
  have e1 : ∀ r, trackEntry s.mem (tableRegion s.op).addr r = s.track r := fun _ => rfl
  simp only [mixDraft, draftsBytes_check, draftsBytes_ok, e0, e1, State.NamesOutput, MixSources, trackTable,
    Config.maxTracks, Bool.not_eq_true', Bool.not_eq_false, List.any_map, List.any_eq_true, Function.comp, bne_iff_ne,
    ne_eq, not_not, not_exists, not_and]
  have : (¬ (s.rows = 0 ∨ s.rows > 256)) ↔ (1 ≤ s.rows ∧ s.rows ≤ 256) := by omega
  rw [this]
  tauto

theorem m2sDraft_bytes {bd : BitVec 1} {s : State} {ob : Nat} :
    DraftsBytes (m2sDraft bd s.platform s.mem s.op) ob ↔ s.NamesOutput (.m2s bd) ob := by
  have e : s.op.source.len = s.srcBytes := rfl
  simp only [m2sDraft, channelDraft, draftsBytes_check, draftsBytes_ok, e, State.NamesOutput, Bool.not_eq_true',
    Bool.not_eq_false, ne_eq, not_not]

theorem adtsencDraft_bytes {prof : BitVec 2} {sfi : BitVec 4} {cc : BitVec 3} {s : State} {ob : Nat} :
    DraftsBytes (adtsencDraft prof sfi cc s.op) ob ↔ s.NamesOutput (.adtsenc prof sfi cc) ob := by
  simp only [adtsencDraft, draftsBytes_check, draftsBytes_ok, State.NamesOutput, adtsHeaderBytes, maxFrameLength,
    Nat.not_lt, gt_iff_lt, ne_eq]

/-- The draft of a data command stands exactly where the command names its output, and counts its bytes. -/
theorem dataDraft_names {i : Instr} {s : State} {ob : Nat} :
    (∃ d, dataDraft i s.platform s.mem s.op = some (.ok d) ∧ d.ob = ob) ↔ s.NamesOutput i ob := by
  have drafts : ∀ {x : Except ErrCode Draft}, (∃ d, some x = some (.ok d) ∧ d.ob = ob) ↔ DraftsBytes x ob := by
    simp [DraftsBytes]
  cases i with
  | resample => exact drafts.trans resampleDraft_bytes
  | extl bd => exact drafts.trans extractDraft_bytes
  | extr bd => exact drafts.trans extractDraft_bytes
  | red2 bd => exact drafts.trans red2Draft_bytes
  | m2s bd => exact drafts.trans m2sDraft_bytes
  | mixext | mixadd | mixavg | mixwgt => exact drafts.trans mixDraft_bytes
  | adtsenc prof sfi cc => exact drafts.trans adtsencDraft_bytes
  | adtsparse | sfilookup | sprepare | sstart | ssubmit | sstop => simp [dataDraft, State.NamesOutput]

/-- The destination regions of a command are those of the outputs it names. -/
theorem mem_destRegions {i : Instr} {s : State} {r : Region} :
    r ∈ destRegions i s.platform s.mem s.op ↔ ∃ ob, s.NamesOutput i ob ∧ r = ⟨s.op.dstAddr.toNat, ob⟩ := by
  simp only [← dataDraft_names, destRegions]
  cases dataDraft i s.platform s.mem s.op with
  | none => simp
  | some x => cases x <;> simp

/-- The regions of the pending command. -/
theorem pendingRegions_of {s : State} {pd : Pending} {i : Instr} (hp : s.pending = some pd)
    (hd : decode pd.word = .ok i) (f : Instr → Platform → Memory → OperandRegs → List Region) :
    s.pendingRegions f = f i s.platform s.mem pd.op := by
  simp [State.pendingRegions, hp, hd]

end Sys2Proof.Machine
end

