-- ==== Sys2Proof/Laws/PerInstr.lean ====
section
/-! SUPPORT. Statements about every command as syntax, one lemma per constructor. -/

namespace Sys2Proof.Laws.EncodingFitsTable

/-- The word the encoder gives a command fits a row of spec/opcode_table.json. -/
def Statement (i : Instr) : Prop := wellFormedWord (encode i) = true

theorem resample : Statement .resample := by unfold Statement; decide
theorem extl (bd : BitVec 1) : Statement (.extl bd) := by unfold Statement; revert bd; decide
theorem extr (bd : BitVec 1) : Statement (.extr bd) := by unfold Statement; revert bd; decide
theorem red2 (bd : BitVec 1) : Statement (.red2 bd) := by unfold Statement; revert bd; decide
theorem m2s (bd : BitVec 1) : Statement (.m2s bd) := by unfold Statement; revert bd; decide
theorem mixext : Statement .mixext := by unfold Statement; decide
theorem mixadd : Statement .mixadd := by unfold Statement; decide
theorem mixavg : Statement .mixavg := by unfold Statement; decide
theorem mixwgt : Statement .mixwgt := by unfold Statement; decide
theorem adtsenc (prof : BitVec 2) (sfi : BitVec 4) (cc : BitVec 3) : Statement (.adtsenc prof sfi cc) := by
  unfold Statement; revert prof sfi cc; decide +kernel
theorem adtsparse : Statement .adtsparse := by unfold Statement; decide
theorem sfilookup : Statement .sfilookup := by unfold Statement; decide
theorem sprepare : Statement .sprepare := by unfold Statement; decide
theorem sstart : Statement .sstart := by unfold Statement; decide
theorem ssubmit : Statement .ssubmit := by unfold Statement; decide
theorem sstop : Statement .sstop := by unfold Statement; decide

end Sys2Proof.Laws.EncodingFitsTable
end

