-- ==== Sys2Proof/Laws/Samples.lean ====
section
/-! SUPPORT. Samples and bytes written to memory and read back, position by position. -/

namespace Sys2Proof.Machine

/-- What a data command that succeeded leaves, where its bytes fill its region. -/
theorem wrote_of {s : State} {a n : Nat} {bytes : List Byte} {r0 r1 : Word} (h : bytes.length = n) :
    s.Wrote ({ s with mem := s.mem.writeBytes a bytes }.complete .ok r0 r1) ⟨a, n⟩ r0 r1 := by
  refine ⟨rfl, fun x hx => ?_⟩
  simp only [Region.holds, decide_eq_false_iff_not] at hx
  exact Memory.read_writeBytes_outside _ (by rw [h]; exact hx)

/-- Byte `k` of what was written. -/
theorem Memory.read_writeBytes_inside (m : Memory) (a : Nat) {k : Nat} {bytes : List Byte} {b : Byte}
    (h : bytes[k]? = some b) : (m.writeBytes a bytes).read (a + k) = b := by
  obtain ⟨hk, hb⟩ := List.getElem?_eq_some_iff.mp h
  rw [Memory.read_writeBytes, if_pos (by omega)]
  simp [List.getD_eq_getElem?_getD, hk, hb]

/-- Sample `k` of `n` samples in memory. -/
theorem samples16_readBytes (m : Memory) (a n k : Nat) (h : k < n) :
    (samples16 (m.readBytes a (2 * n)))[k]? = some (sampleAt m (a + 2 * k)) := by
  induction n generalizing a k with
  | zero => omega
  | succ n ih =>
    rw [show 2 * (n + 1) = 2 * n + 1 + 1 by ring]
    simp only [Memory.readBytes, samples16]
    cases k with
    | zero => simp [sampleAt]
    | succ k =>
      rw [List.getElem?_cons_succ, ih (a + 1 + 1) k (by omega)]
      congr 2
      omega

/-- The two bytes of sample `k`. -/
theorem getElem?_bytes16 {seq : List Int} {k : Nat} {v : Int} (h : seq[k]? = some v) :
    (bytes16 seq)[2 * k]? = some ((BitVec.ofInt 16 v).extractLsb' 0 8) ∧
      (bytes16 seq)[2 * k + 1]? = some ((BitVec.ofInt 16 v).extractLsb' 8 8) := by
  induction seq generalizing k with
  | nil => simp at h
  | cons u seq ih =>
    simp only [bytes16, List.flatMap_cons, le16bytes] at ih ⊢
    cases k with
    | zero => simp at h; subst h; simp
    | succ k =>
      rw [show 2 * (k + 1) = 2 * k + 2 by ring]
      simpa using ih (k := k) (by simpa using h)

/-- The two bytes of a 16-bit value read back as it. -/
theorem le16_extract (v : BitVec 16) : le16 (v.extractLsb' 0 8) (v.extractLsb' 8 8) = v.toInt := by
  unfold le16
  congr 1
  apply BitVec.eq_of_toNat_eq
  have := v.isLt
  rw [BitVec.toNat_append, BitVec.extractLsb'_toNat, BitVec.extractLsb'_toNat,
    ← Nat.shiftLeft_add_eq_or_of_lt (by omega), Nat.shiftLeft_eq, Nat.shiftRight_eq_div_pow,
    Nat.shiftRight_eq_div_pow]
  omega

/-- Sample `k` of what was written, wrapped to 16 bits. -/
theorem sampleAt_writeBytes (m : Memory) (a : Nat) {k : Nat} {seq : List Int} {v : Int} (h : seq[k]? = some v) :
    sampleAt (m.writeBytes a (bytes16 seq)) (a + 2 * k) = wrap16 v := by
  obtain ⟨h0, h1⟩ := getElem?_bytes16 h
  rw [sampleAt, Nat.add_assoc, Memory.read_writeBytes_inside m a h0, Memory.read_writeBytes_inside m a h1, le16_extract]
  rfl

/-- A sample in memory is a 16-bit number. -/
theorem sampleAt_range (m : Memory) (a : Nat) : -32768 ≤ sampleAt m a ∧ sampleAt m a ≤ 32767 := by
  have lo := BitVec.le_toInt (m.read (a + 1) ++ m.read a : BitVec 16)
  have hi := BitVec.toInt_lt (x := (m.read (a + 1) ++ m.read a : BitVec 16))
  unfold sampleAt le16
  omega

/-- Wrapping twice wraps once. -/
theorem wrap16_wrap16 (v : Int) : wrap16 (wrap16 v) = wrap16 v := by simp [wrap16]

/-- Byte `j` of a slice. -/
theorem getElem?_slice (bytes : List Byte) (a : Nat) {n j : Nat} (hj : j < n) :
    (slice bytes a n)[j]? = bytes[a + j]? := by
  simp [slice, hj]

/-- Byte `j` of what is taken from frame `f` of a source in memory. -/
theorem getElem?_pickFrames (m : Memory) (a : Nat) {nb fs off n f j : Nat} (hfs : off + n ≤ fs) (hf : f < nb / fs)
    (hj : j < n) :
    (pickFrames (m.readBytes a nb) fs off n (nb / fs))[f * n + j]? = some (m.read (a + (f * fs + off + j))) := by
  have hl : ∀ i < nb / fs, (slice (m.readBytes a nb) (i * fs + off) n).length = n := fun i hi => by
    have := piece_fits hfs hi
    rw [length_slice, Memory.length_readBytes]
    omega
  have := piece_fits hfs hf
  rw [pickFrames, getElem?_flatMap_range _ hl hf hj, getElem?_slice _ _ hj, Memory.getElem?_readBytes _ _ _ _ (by omega)]

/-- Byte `j` of both copies of sample `k` of a source in memory. -/
theorem getElem?_doubleSamples (m : Memory) (a : Nat) {nb bps k j : Nat} (hk : k < nb / bps) (hj : j < bps) :
    (doubleSamples (m.readBytes a nb) bps (nb / bps))[2 * k * bps + j]? = some (m.read (a + (k * bps + j))) ∧
      (doubleSamples (m.readBytes a nb) bps (nb / bps))[(2 * k + 1) * bps + j]? =
        some (m.read (a + (k * bps + j))) := by
  have hl : ∀ i < nb / bps, (slice (m.readBytes a nb) (i * bps) bps).length = bps := fun i hi => by
    have := piece_fits (off := 0) (n := bps) (by omega) hi
    rw [length_slice, Memory.length_readBytes]
    omega
  have hl2 : ∀ i < nb / bps,
      (slice (m.readBytes a nb) (i * bps) bps ++ slice (m.readBytes a nb) (i * bps) bps).length = 2 * bps :=
    fun i hi => by rw [List.length_append, hl i hi]; omega
  have hfit := piece_fits (off := 0) (n := bps) (by omega) hk
  have first : 2 * k * bps + j = k * (2 * bps) + j := by ring
  have second : (2 * k + 1) * bps + j = k * (2 * bps) + (bps + j) := by ring
  constructor
  · rw [doubleSamples, first, getElem?_flatMap_range _ hl2 hk (by omega),
      List.getElem?_append_left (by rw [hl k hk]; exact hj), getElem?_slice _ _ hj,
      Memory.getElem?_readBytes _ _ _ _ (by omega)]
  · rw [doubleSamples, second, getElem?_flatMap_range _ hl2 hk (by omega),
      List.getElem?_append_right (by rw [hl k hk]; omega), hl k hk, Nat.add_sub_cancel_left, getElem?_slice _ _ hj,
      Memory.getElem?_readBytes _ _ _ _ (by omega)]

/-- The plan of a mixer command whose checks pass. -/
theorem mixPlan_of_ready (f : Strategy) {s : State} (h : MixReady s) :
    mixPlan f s.platform s.mem s.op = .ok
      ⟨⟨s.op.dstAddr.toNat, (s.track 0).region.len⟩,
        bytes16 (mixed f ((List.range s.rows).map fun r => trackSamples s.mem (s.track r))
          ((List.range s.rows).map fun r => (s.track r).weight) ((s.track 0).region.len / 2)),
        BitVec.ofNat 32 (s.track 0).region.len, BitVec.ofNat 32 ((s.track 0).region.len / 2)⟩ := by
  obtain ⟨⟨h1, h2, h3, h4⟩, h5, h6, h7⟩ := h
  have rows : s.rows = s.op.param0.toNat := rfl
  rw [mixPlan, finish_eq_ok]
  simp only [mixDraft]
  rw [if_neg (by simp only [Config.maxTracks]; omega), if_neg (by simp [h3]), if_neg, if_neg, if_neg]
  · simp only [trackTable, List.map_map]
    exact ⟨_, rfl, h7, rfl⟩
  · exact not_not.mpr h6
  · simp only [trackTable, List.any_eq_true, List.mem_map, not_exists, not_and]
    rintro e ⟨r, hr, rfl⟩
    rw [bne_iff_ne]
    exact not_not.mpr (h5 r hr)
  · simp only [trackTable, List.any_eq_true, List.mem_map, not_exists, not_and]
    rintro e ⟨r, hr, rfl⟩
    rw [Bool.not_eq_true', Bool.not_eq_false]
    exact h4 r hr

/-- Sample `k` of what a mixing strategy computes from tracks of one even length. -/
theorem getElem?_mixed (f : Strategy) {s : State} (h : MixReady s) {k : Nat} (hk : k < (s.track 0).region.len / 2) :
    (mixed f ((List.range s.rows).map fun r => trackSamples s.mem (s.track r))
        ((List.range s.rows).map fun r => (s.track r).weight) ((s.track 0).region.len / 2))[k]? =
      some (f ((List.range s.rows).map fun r => sampleAt s.mem ((s.track r).region.addr + 2 * k))
        ((List.range s.rows).map fun r => (s.track r).weight)) := by
  obtain ⟨-, h5, h6, -⟩ := h
  simp only [mixed, List.getElem?_map, List.getElem?_range hk, Option.map_some, List.map_map]
  congr 2
  refine List.map_congr_left fun r hr => ?_
  have e : (s.track r).region.len = 2 * ((s.track 0).region.len / 2) := by rw [h5 r hr]; omega
  simp only [Function.comp, trackSamples]
  rw [e, List.getD_eq_getElem?_getD, samples16_readBytes _ _ _ _ hk, Option.getD_some]

end Sys2Proof.Machine
end

