-- ==== Sys2Proof/Laws/Steps.lean ====
section
/-! SUPPORT. What one command and one event can do, said once: later proofs take these apart and unfold no step. -/

namespace Sys2Proof.Machine

/-- Everything a data command can do. -/
theorem exec_of_deliver {i : Instr} {s t : State} {x : Except ErrCode Output} (h : s.deliver x = .next t)
    (hx : dataPlan i s.platform s.mem s.op = x.toOption) :
    (∃ e, t = s.fail e) ∨
      ∃ out, dataPlan i s.platform s.mem s.op = some out ∧
        t = { s.complete .ok out.r0 out.r1 with mem := s.mem.writeBytes out.region.addr out.bytes } := by
  rcases deliver_cases h with ⟨e, -, rfl⟩ | ⟨out, rfl, rfl⟩
  · exact .inl ⟨e, rfl⟩
  · exact .inr ⟨out, hx, rfl⟩

/-- Everything a command can do: fail, only complete, deliver an output, or one of the four session effects. -/
theorem exec_cases {i : Instr} {s t : State} (h : exec i s = .next t) :
    (∃ e, t = s.fail e) ∨ (∃ r0 r1, t = s.complete .ok r0 r1) ∨
      (∃ out, dataPlan i s.platform s.mem s.op = some out ∧
        t = { s.complete .ok out.r0 out.r1 with mem := s.mem.writeBytes out.region.addr out.bytes }) ∨
      (i = .sprepare ∧ (s.sess.state = .idle ∨ s.sess.state = .released) ∧ t = s.prepare s.op) ∨
      (i = .sstart ∧ s.sess.state = .prepared ∧ t = s.startBody.complete .ok 0 0) ∨
      (i = .ssubmit ∧ s.sess.state = .running ∧ t = s.submit ⟨s.op.srcAddr, s.op.srcLen⟩) ∨
      (i = .sstop ∧ s.sess.state = .running ∧ t = s.requestStop.complete .ok 0 0) := by
  have delivers := fun {x} => exec_of_deliver (i := i) (s := s) (t := t) (x := x)
  have answers : ∀ {x : Except ErrCode (Word × Word)}, s.answer x = .next t →
      (∃ e, t = s.fail e) ∨ ∃ r0 r1, t = s.complete .ok r0 r1 := fun hx => by
    rcases answer_cases hx with ⟨e, -, rfl⟩ | ⟨r, -, rfl⟩
    · exact .inl ⟨e, rfl⟩
    · exact .inr ⟨_, _, rfl⟩
  cases i with
  | resample | extl | extr | red2 | m2s | mixext | mixadd | mixavg | mixwgt | adtsenc =>
    rcases delivers h rfl with h | h
    · exact .inl h
    · exact .inr (.inr (.inl h))
  | adtsparse =>
    rcases answers (x := adtsparsePlan s.platform s.mem s.op) h with h | h
    · exact .inl h
    · exact .inr (.inl h)
  | sfilookup =>
    rcases answers (x := sfilookupPlan s.op) h with h | h
    · exact .inl h
    · exact .inr (.inl h)
  | sprepare =>
    simp only [exec, execSprepare] at h
    split at h <;> simp only [Host.Outcome.next.injEq] at h <;> subst h <;> simp_all
  | sstart =>
    simp only [exec, execSstart] at h
    split at h <;> simp only [Host.Outcome.next.injEq] at h <;> subst h <;> simp_all
  | ssubmit =>
    simp only [exec, execSsubmit] at h
    split at h <;> simp only [Host.Outcome.next.injEq] at h <;> subst h <;> simp_all
  | sstop =>
    simp only [exec, execSstop] at h
    split at h <;> simp only [Host.Outcome.next.injEq] at h <;> subst h <;> simp_all

/-- The states agree in the session unit, its queue and its ports, and on the platform. -/
structure SameSession (s t : State) : Prop where
  sess     : t.sess = s.sess
  queue    : t.queue = s.queue
  codecIn  : t.codecIn = s.codecIn
  codecOut : t.codecOut = s.codecOut
  outLog   : t.outLog = s.outLog
  platform : t.platform = s.platform

/-- A host's register write touches neither the session unit nor memory nor the port's cursor. -/
theorem writeOffset_frame (s : State) (off : Nat) (w : Word) :
    SameSession s (s.writeOffset off w) ∧ (s.writeOffset off w).mem = s.mem ∧ (s.writeOffset off w).taken = s.taken := by
  unfold State.writeOffset
  split
  · next r _ =>
    cases r <;> dsimp only [State.writeReg, State.writeCmd] <;> (try split) <;>
      exact ⟨⟨rfl, rfl, rfl, rfl, rfl, rfl⟩, rfl, rfl⟩
  · exact ⟨⟨rfl, rfl, rfl, rfl, rfl, rfl⟩, rfl, rfl⟩

/-- Everything an event can do to the session unit: nothing, or what the event of one agent says. -/
theorem runEvent_cases {e : Event} {s t : State} (h : runEvent e s = .next t) :
    SameSession s t ∨
      (e = .cu ∧ ∃ p i, s.pending = some p ∧ decode p.word = .ok i ∧ exec i s = .next t) ∨
      (∃ a, e = .feeder a ∧ t = feederStep a s) ∨ (e = .drainer ∧ t = drainerStep s) ∨
      (e = .release ∧ t = releaseStep s) ∨
      (∃ b eos, e = .codecProduce b eos ∧ t = codecProduceStep b eos s) ∨ (e = .reset ∧ t = resetStep s) := by
  cases e with
  | hostReadReg a w r =>
    obtain ⟨off, -, -, rfl⟩ := hostReadReg_cases h
    exact .inl ⟨rfl, rfl, rfl, rfl, rfl, rfl⟩
  | hostWriteReg a w d =>
    obtain ⟨off, -, rfl⟩ := hostWriteReg_cases h
    exact .inl (writeOffset_frame s off d).1
  | hostReadMem a l =>
    obtain ⟨-, -, rfl⟩ := hostReadMem_cases h
    exact .inl ⟨rfl, rfl, rfl, rfl, rfl, rfl⟩
  | hostWriteMem a b =>
    obtain ⟨-, -, -, rfl⟩ := hostWriteMem_cases h
    exact .inl ⟨rfl, rfl, rfl, rfl, rfl, rfl⟩
  | hostTake =>
    cases h
    rcases hostTake_cases s with ⟨msg, -, he⟩ | ⟨-, he⟩ <;> rw [he] <;> exact .inl ⟨rfl, rfl, rfl, rfl, rfl, rfl⟩
  | cu =>
    simp only [runEvent, cuStep] at h
    split at h
    · cases h; exact .inl ⟨rfl, rfl, rfl, rfl, rfl, rfl⟩
    · next p hp =>
      split at h
      · cases h; exact .inl ⟨rfl, rfl, rfl, rfl, rfl, rfl⟩
      · next i hi => exact .inr (.inl ⟨rfl, p, i, hp, hi, h⟩)
  | feeder a => cases h; exact .inr (.inr (.inl ⟨a, rfl, rfl⟩))
  | drainer => cases h; exact .inr (.inr (.inr (.inl ⟨rfl, rfl⟩)))
  | release => cases h; exact .inr (.inr (.inr (.inr (.inl ⟨rfl, rfl⟩))))
  | codecProduce b eos => cases h; exact .inr (.inr (.inr (.inr (.inr (.inl ⟨b, eos, rfl, rfl⟩)))))
  | codecAnswer ok => cases h; exact .inl ⟨rfl, rfl, rfl, rfl, rfl, rfl⟩
  | reset => cases h; exact .inr (.inr (.inr (.inr (.inr (.inr ⟨rfl, rfl⟩)))))

/-- Before an event happens nothing but the agenda or the count of draws changes. -/
theorem started_frame (s : State) :
    SameSession s s.started ∧ s.started.pending = s.pending ∧ s.started.mem = s.mem ∧ s.started.taken = s.taken ∧
      s.started.regs = s.regs := by
  unfold State.started
  split <;> exact ⟨⟨rfl, rfl, rfl, rfl, rfl, rfl⟩, rfl, rfl, rfl, rfl⟩

end Sys2Proof.Machine
end

