-- ==== Sys2Proof/Tests/Slice0.lean ====
section
/-! SUPPORT. Tests of the model against the spec's worked examples and vectors (spec/95_test_vectors.md, whose ids the
names carry), and one witness for the hypotheses of every statement. -/

namespace Sys2Proof.Tests

open Sys2Proof.Machine

-- One test after the other: the kernel evaluations below would else each hold a thread.
set_option Elab.async false

/-! ### Small states -/

/-- The platform of the vectors: 0x10000 bytes of memory, the register window far above it. -/
def plat : Platform := { topAddr := 0xFFFF, regBase := 0x40000000 }

/-- A memory of zeros: its power-on contents are fixed here so that a test can read them. -/
def noBytes : Memory := { powerOn := [], cells := [] }

/-- The block right after reset on that platform, with that memory. -/
def blank : State := { State.resetOn plat with mem := noBytes }

/-- Operand registers with these values, the rest as after reset. -/
def ops (src len dst cap p0 p1 : Word) : OperandRegs :=
  { OperandRegs.reset with srcAddr := src, srcLen := len, dstAddr := dst, dstCap := cap, param0 := p0, param1 := p1 }

/-- Bytes written into memory at an address. -/
def bytesAt (a : Nat) (bytes : List Byte) (m : Memory) : Memory := m.writeBytes a bytes

/-- A block with a command of these operands latched. -/
def latched (w : Word) (o : OperandRegs) (m : Memory) : State :=
  { blank with pending := some ⟨w, o⟩, mem := m, agenda := [.cu] }

/-- The outcome is a next state of which `P` holds. -/
def holdsAfter (o : Host.Outcome State Fault Refusal) (P : State → Bool) : Bool :=
  match o with
  | .next t => P t
  | .fault _ => false
  | .refused _ => false

/-- The outcome is this fault. -/
def faults (o : Host.Outcome State Fault Refusal) (f : Fault) : Bool :=
  match o with
  | .next _ => false
  | .fault g => g == f
  | .refused _ => false

/-- The command word `w` on these operands and this memory succeeds with these results and leaves these bytes at `a`. -/
def gives (w : Word) (o : OperandRegs) (m : Memory) (r0 r1 : Word) (a : Nat) (bytes : List Byte) : Bool :=
  holdsAfter (step (latched w o m)) fun t =>
    t.errCode == .ok && t.result0 == r0 && t.result1 == r1 && t.pending == none &&
      t.mem.readBytes a bytes.length == bytes

/-- The command word `w` on these operands and this memory reports `code`, with results 0 and memory as it was. -/
def reports (w : Word) (o : OperandRegs) (m : Memory) (code : ErrCode) : Bool :=
  holdsAfter (step (latched w o m)) fun t =>
    t.errCode == code && t.result0 == 0 && t.result1 == 0 && t.pending == none && t.mem == m

/-! ### Integers and samples (spec/00_scope.md R1, R3) -/

theorem test_integer_primitives : tdiv (-3) 2 = -1 ∧ fdiv (-3) 2 = -2 ∧ fmod (-3) 2 = 1 := by decide

theorem test_wrap16 : wrap16 40000 = -25536 ∧ wrap16 (-32769) = 32767 := by decide

theorem test_le16 : le16 0x18 0xFC = -1000 ∧ le16bytes (-1000) = [0x18, 0xFC] := by decide

/-! ### Decoding (spec/30_encoding.md R71, R77; spec/95_test_vectors.md 2.1) -/

theorem test_decode_resample : decode 0b00000000000000000000000000010000 = .ok .resample := by rfl
theorem test_decode_extl_16 : decode 0b00000000000000000000000100100000 = .ok (.extl 1) := by rfl
theorem test_decode_extr_8 : decode 0b00000000000000000000000000100001 = .ok (.extr 0) := by rfl
theorem test_decode_red2_16 : decode 0b00000000000000000000000100100010 = .ok (.red2 1) := by rfl
theorem test_decode_m2s_16 : decode 0b00000000000000000000000100100011 = .ok (.m2s 1) := by rfl
theorem test_decode_mixext : decode 0b00000000000000000000000000110000 = .ok .mixext := by rfl
theorem test_decode_mixadd : decode 0b00000000000000000000000000110001 = .ok .mixadd := by rfl
theorem test_decode_mixavg : decode 0b00000000000000000000000000110010 = .ok .mixavg := by rfl
theorem test_decode_mixwgt : decode 0b00000000000000000000000000110011 = .ok .mixwgt := by rfl
/-- CC 010 in bits 16:14, SFI 0100 in bits 13:10, PROF 01 in bits 9:8 (DEC6). -/
theorem test_decode_adtsenc : decode 0b00000000000000001001000101000000 = .ok (.adtsenc 1 4 2) := by rfl
theorem test_decode_adtsparse : decode 0b00000000000000000000000001000001 = .ok .adtsparse := by rfl
theorem test_decode_sfilookup : decode 0b00000000000000000000000001000010 = .ok .sfilookup := by rfl
theorem test_decode_sprepare : decode 0b00000000000000000000000001010000 = .ok .sprepare := by rfl
theorem test_decode_sstart : decode 0b00000000000000000000000001010001 = .ok .sstart := by rfl
theorem test_decode_ssubmit : decode 0b00000000000000000000000001010010 = .ok .ssubmit := by rfl
theorem test_decode_sstop : decode 0b00000000000000000000000001010011 = .ok .sstop := by rfl

/-- Words the check of the table refuses, one for each kind of fixed bit: DEC4, DEC5, DEC7, DEC8, DEC9, DEC12. -/
theorem test_ill_formed_words_refused :
    wellFormedWord 0x00000220 = false ∧ wellFormedWord 0x00000130 = false ∧ wellFormedWord 0x00020040 = false ∧
      wellFormedWord 0x00000000 = false ∧ wellFormedWord 0x00000054 = false ∧ wellFormedWord 0x80000053 = false := by
  decide

theorem test_well_formed_words_accepted :
    wellFormedWord 0x00000010 = true ∧ wellFormedWord 0x00000120 = true ∧ wellFormedWord 0x00009140 = true := by decide

/-- DEC4 and DEC8 on the machine: an illegal word is reported and changes nothing else. -/
theorem test_illegal_words_reported :
    reports 0x00000220 (ops 0x100 4 0x200 0x100 2 0) noBytes .illegalCmd = true ∧
      reports 0x00000000 (ops 0 0 0 0 0 0) noBytes .illegalCmd = true := by decide

theorem test_decode_table_word : decodeTableWord 32 0x9140 = some (.adtsenc 1 4 2) := by rfl

theorem test_fetch_word_runs : holdsAfter (step (State.reset.withFetchWord 32 0x42)) (fun t => t.result0 == 4) = true := by
  decide

/-- The assembler's examples of spec/30_encoding.md R81, and a missing suffix. -/
theorem test_assembler :
    (assemble "EXTR.16" []).map encode = some 0x00000121 ∧
      (assemble "ADTSENC" [("cc", 2), ("p", 1), ("sfi", 4)]).map encode = some 0x00009140 ∧
      assemble "EXTR" [] = none ∧ assemble "ADTSENC" [("p", 1), ("sfi", 16), ("cc", 2)] = none := by decide

/-- The expansion of `sfilookup` runs to its answer: AD5 as a script, one poll of STATUS after completion. -/
theorem test_pseudo_sfilookup :
    pseudoSfilookup plat 1 44101 =
      [.hostWriteReg 0x40000020 .word 44101, .hostWriteReg 0x4000000C .word 0x42, .hostReadReg 0x40000004 .word false] := by
  decide

/-! ### Resampler (spec/95_test_vectors.md 2.2) -/

theorem test_rs3 :
    gives 0x10 (ops 0x100 8 0x200 0x100 4 6) (bytesAt 0x100 [0x00, 0x00, 0xE8, 0x03, 0x18, 0xFC, 0xFF, 0x7F] noBytes)
      12 6 0x200 [0x00, 0x00, 0x58, 0x02, 0x58, 0x02, 0xA8, 0xFD, 0xDA, 0x30, 0xFF, 0x7F] = true := by decide +kernel

theorem test_rs8 :
    gives 0x10 (ops 0x100 4 0x200 0x100 1 2) (bytesAt 0x100 (bytes16 [-32768, 32767]) noBytes) 8 4 0x200
      (bytes16 [-32768, -10923, 10922, 32767]) = true := by decide +kernel

/-! ### Channel multiplexer (spec/95_test_vectors.md 2.3) -/

theorem test_ch1 :
    gives 0x120 (ops 0x100 8 0x200 0x100 2 0) (bytesAt 0x100 [0x01, 0x00, 0x02, 0x00, 0x03, 0x00, 0x04, 0x00] noBytes)
      4 0 0x200 [0x01, 0x00, 0x03, 0x00] = true := by decide +kernel

theorem test_ch14 :
    reports 0x120 (ops 0x100 6 0x200 0x100 2 0) (bytesAt 0x100 [0x01, 0x00, 0x02, 0x00, 0x03, 0x00] noBytes) .shape = true := by
  decide +kernel

theorem test_ch3 :
    gives 0x121 (ops 0x100 16 0x200 0x100 2 0)
      (bytesAt 0x100 [0x11, 0x11, 0x21, 0x21, 0x12, 0x12, 0x22, 0x22, 0x13, 0x13, 0x23, 0x23, 0x14, 0x14, 0x24, 0x24] noBytes)
      8 0 0x200 [0x21, 0x21, 0x22, 0x22, 0x23, 0x23, 0x24, 0x24] = true := by decide +kernel

theorem test_ch11 :
    gives 0x21 (ops 0x100 6 0x200 0x100 3 0) (bytesAt 0x100 [0x01, 0x02, 0x03, 0x04, 0x05, 0x06] noBytes) 2 0 0x200
      [0x02, 0x05] = true := by decide +kernel

theorem test_ch4 :
    gives 0x22 (ops 0x100 6 0x200 0x100 3 0) (bytesAt 0x100 [0x0A, 0x0B, 0x0C, 0x1A, 0x1B, 0x1C] noBytes) 4 0 0x200
      [0x0A, 0x0B, 0x1A, 0x1B] = true := by decide +kernel

theorem test_ch18 :
    reports 0x22 (ops 0x100 6 0x100 0x100 3 0) (bytesAt 0x100 [0x0A, 0x0B, 0x0C, 0x1A, 0x1B, 0x1C] noBytes) .overlap = true := by
  decide +kernel

theorem test_ch6 :
    gives 0x123 (ops 0x100 4 0x200 0x100 0 0) (bytesAt 0x100 [0x34, 0x12, 0xCD, 0xAB] noBytes) 8 0 0x200
      [0x34, 0x12, 0x34, 0x12, 0xCD, 0xAB, 0xCD, 0xAB] = true := by decide +kernel

theorem test_ch16 :
    gives 0x23 (ops 0x100 3 0x200 0x100 0 0) (bytesAt 0x100 [0x01, 0x02, 0x03] noBytes) 6 0 0x200
      [0x01, 0x01, 0x02, 0x02, 0x03, 0x03] = true := by decide +kernel

/-! ### Mixer (spec/95_test_vectors.md 2.4) -/

/-- A 32-bit word as four bytes, least significant first. -/
def wordBytes (w : Word) : List Byte :=
  [w.extractLsb' 0 8, w.extractLsb' 8 8, w.extractLsb' 16 8, w.extractLsb' 24 8]

/-- One table entry. -/
def entryBytes (addr len weight : Word) : List Byte := wordBytes addr ++ wordBytes len ++ wordBytes weight

/-- Tracks at 0x500 + 0x10 * r, their table at 0x400. -/
def tracks : Nat → List (List Int × Word) → Memory → Memory
  | _, [], m => m
  | r, (xs, w) :: rest, m =>
    tracks (r + 1) rest
      (bytesAt (0x400 + 12 * r)
        (entryBytes (BitVec.ofNat 32 (0x500 + 0x10 * r)) (BitVec.ofNat 32 (2 * xs.length)) w)
        (bytesAt (0x500 + 0x10 * r) (bytes16 xs) m))

/-- The operands of a mixer vector with `row` tracks. -/
def mixOps (row : Word) : OperandRegs := ops 0x400 0 0x600 0x100 row 0

/-- A mixer command on these tracks gives these samples. -/
def mixes (w : Word) (ts : List (List Int × Word)) (out : List Int) : Bool :=
  gives w (mixOps (BitVec.ofNat 32 ts.length)) (tracks 0 ts noBytes) (BitVec.ofNat 32 (2 * out.length))
    (BitVec.ofNat 32 out.length) 0x600 (bytes16 out)

theorem test_m1c :
    mixes 0x30 [([30000, -30000, 5], 0), ([10000, -10000, -3], 0), ([0, 0, 5], 0)] [30000, -30000, 2] = true := by
  decide +kernel

theorem test_m1b : mixes 0x30 [([30000], 0), ([10000], 0)] [-25536] = true := by decide +kernel

theorem test_m2 : mixes 0x31 [([20000, -5], 0), ([20000, 7], 0)] [-25536, 2] = true := by decide +kernel

theorem test_m12 :
    reports 0x31 (ops 0x400 0 0x400 0x100 2 0) (tracks 0 [([1], 0), ([2], 0)] noBytes) .overlap = true := by decide +kernel

theorem test_m3b :
    mixes 0x32 [([-7, 7, -32768], 0), ([0, 0, -32768], 0), ([0, 0, -32768], 0)] [-2, 2, -32768] = true := by
  decide +kernel

theorem test_m10 : reports 0x32 (mixOps 257) noBytes .badParam = true := by decide +kernel

theorem test_m4d : mixes 0x33 [([123, -456], 0xFFFF0000)] [-123, 456] = true := by decide +kernel

theorem test_m4e :
    mixes 0x33 [([1000, -1000], 32768), ([1000, -1000], 19661), ([1000, -1000], 13107)] [1000, -1000] = true := by
  decide +kernel

/-! ### ADTS framer (spec/95_test_vectors.md 2.5) -/

theorem test_ad1 :
    gives 0x9140 (ops 0 0 0x700 7 100 0) noBytes 107 0 0x700 [0xFF, 0xF9, 0x50, 0x80, 0x0D, 0x7F, 0xFC] = true := by
  decide +kernel

theorem test_ad8 : reports 0x9140 (ops 0 0 0x700 7 8185 0) noBytes .badParam = true := by decide +kernel

theorem test_ad15 :
    gives 0x41 (ops 0x700 7 0 0 0 0) (bytesAt 0x700 [0xFF, 0xF9, 0xF0, 0x80, 0x0D, 0x7F, 0xFC] noBytes) 107 0x123C 0x700 [0xFF]
      = true := by decide +kernel

theorem test_ad13 :
    reports 0x41 (ops 0x700 7 0 0 0 0) (bytesAt 0x700 [0xFF, 0xF8, 0x50, 0x80, 0x0D, 0x7F, 0xFC] noBytes) .badSync = true := by
  decide +kernel

theorem test_ad4 : gives 0x42 (ops 0 0 0 0 48000 0) noBytes 3 0 0 [] = true := by decide +kernel

theorem test_ad5 : gives 0x42 (ops 0 0 0 0 44101 0) noBytes 4 1 0 [] = true := by decide +kernel

/-! ### Session commands (spec/95_test_vectors.md 2.6) -/

/-- Session operands. -/
def scfg (rate ch : Word) (mode : BitVec 4) : OperandRegs :=
  { OperandRegs.reset with scfgRate := rate, scfgCh := ch, scfgMode := mode, scfgBitrate := 64000 }

/-- A 48 kHz mono LC session in a state. -/
def session (st : SessState) (dir : Dir) : Session :=
  { Session.reset with state := st, dir := dir, rate := 48000, ch := 1, profile := 1, sfi := 3, chcfg := 1,
                       bitrate := 64000, adtsId := 1, stopReq := st == .draining }

/-- A block with a session, and a latched command. -/
def inSession (w : Word) (o : OperandRegs) (x : Session) (q : List Chunk) : State :=
  { latched w o noBytes with sess := x, queue := q, codecAnswer := some true }

theorem test_q12 :
    holdsAfter (step (inSession 0x50 (scfg 44101 2 2) Session.reset [])) (fun t =>
      t.errCode == .ok && t.readReg .sstatus == 0x00012481) = true := by decide +kernel

theorem test_q10 :
    holdsAfter (step (inSession 0x50 (scfg 48000 7 2) Session.reset [])) (fun t =>
      t.errCode == .configFail && t.readReg .serr == 0x0C && t.outLog == [.error .configFail] &&
        t.sess.state == .idle) = true := by decide +kernel

theorem test_q7 : reports 0x51 OperandRegs.reset noBytes .badState = true := by decide +kernel

theorem test_q19_start :
    holdsAfter (step (inSession 0x51 (scfg 48000 1 2) { session .prepared .encode with fedCount := 7 } [])) (fun t =>
      t.errCode == .ok && t.sess.state == .running && t.readReg .fedCount == 0) = true := by decide +kernel

theorem test_q3 :
    holdsAfter (step (inSession 0x52 (ops 0x100 6 0 0 0 0) { session .running .encode with ch := 2 } [])) (fun t =>
      t.errCode == .shape && t.queue == []) = true := by decide +kernel

theorem test_submit_appends :
    holdsAfter (step (inSession 0x52 (ops 0x2000 4096 0 0 0 0) (session .running .encode) [⟨0x1000, 4096⟩])) (fun t =>
      t.errCode == .ok && t.result0 == 2 && t.queue == [⟨0x1000, 4096⟩, ⟨0x2000, 4096⟩]) = true := by decide +kernel

theorem test_q9 :
    holdsAfter (step (inSession 0x53 OperandRegs.reset (session .draining .encode) [])) (fun t =>
      t.errCode == .ok && t.sess == session .draining .encode) = true := by decide +kernel

theorem test_p4_stop : holdsAfter (step (inSession 0x53 OperandRegs.reset (session .prepared .encode) [])) (fun t =>
    t.readReg .errcode == 0x08) = true := by decide +kernel

/-! ### Engines (spec/95_test_vectors.md 2.6) -/

/-- A session in progress with nothing latched. -/
def playing (x : Session) (q : List Chunk) (out : List CodecOutput) : State :=
  { blank with sess := x, queue := q, codecOut := out }

/-- The time stamp after Q1's first chunk. -/
theorem test_q1_first_feed :
    (feederStep true (playing (session .running .encode) [⟨0x1000, 4⟩, ⟨0x2000, 4096⟩] [])).sess.fedCount = 1 ∧
      (session .running .encode).ptsOf 4096 = 42666 ∧ (session .running .encode).ptsOf 40960 = 426666 := by
  decide +kernel

/-- Q18: the feeder holds on an empty queue without a stop request. -/
theorem test_q18 :
    feederStep true (playing (session .running .encode) [] []) = playing (session .running .encode) [] [] := by
  decide +kernel

theorem test_q15 :
    (drainerStep (playing (session .running .decode) [] [⟨[1, 2, 3, 4], false⟩])).outLog = [.data [1, 2, 3, 4]] := by
  decide +kernel

/-- Q17: the header of a 5-byte payload says 12 bytes, then END. -/
theorem test_q17 :
    (releaseStep (drainerStep (playing { session .draining .encode with inDone := true } []
      [⟨[1, 2, 3, 4, 5], true⟩]))).outLog =
        [.data [0xFF, 0xF9, 0x4C, 0x40, 0x01, 0x9F, 0xFC, 1, 2, 3, 4, 5], .sessionEnd] := by decide +kernel

/-- R179: a run's result ends with its END, and a run without END has none. -/
theorem test_session_run :
    ({ blank with outLog := [.error .configFail, .data [1], .sessionEnd, .data [2]] } : State).sessionRun 1 =
        some [.data [1], .sessionEnd] ∧
      ({ blank with outLog := [.data [1]] } : State).sessionRun 0 = none := by decide

/-- The header of Q1's 371-byte payload. -/
theorem test_q1_header : adtsHeader 1 1 3 1 378 = [0xFF, 0xF9, 0x4C, 0x40, 0x2F, 0x5F, 0xFC] := by decide

/-! ### Registers and reset (spec/95_test_vectors.md 2.7) -/

theorem test_reg1 :
    State.reset.readReg .ctrl = 1 ∧ State.reset.readReg .status = 0 ∧ State.reset.readReg .sstatus = 0 := by decide

/-- REG2, REG3. -/
theorem test_reg2_reg3 :
    (((blank).writeOffset 0x0C 0x10).writeOffset 0x0C 0x10).ovr = true ∧
      ((((blank).writeOffset 0x0C 0x10).writeOffset 0x0C 0x10).writeOffset 0x04 4).ovr = false := by decide

/-- REG4, REG5, REG6. -/
theorem test_reg4_reg5_reg6 :
    ((blank).writeOffset 0x00 0xFFFFFFFF).readOffset 0x00 = 1 ∧
      ((blank).writeOffset 0x28 5).readOffset 0x28 = 0 ∧ (blank).readOffset 0x30 = 0 := by
  decide

/-- REG8. -/
theorem test_reg8 :
    (resetStep (playing (session .running .encode) [⟨1, 2⟩, ⟨3, 4⟩, ⟨5, 6⟩] [])).sess.state = .idle ∧
      (resetStep (playing (session .running .encode) [⟨1, 2⟩, ⟨3, 4⟩, ⟨5, 6⟩] [])).queue = [] ∧
      (resetStep (playing (session .running .encode) [⟨1, 2⟩, ⟨3, 4⟩, ⟨5, 6⟩] [])).outLog = [] := by decide +kernel

/-! ### Witnesses: a concrete state and operands for the hypotheses of each statement -/

/-- The boundaries of R78's reserved ranges, for both ends of each clause of `DecodeRefusesReservedWords`. -/
theorem witness_DecodeRefusesReservedWords :
    ∀ op ∈ [0x00, 0x0F, 0x11, 0x1F, 0x24, 0x2F, 0x34, 0x3F, 0x43, 0x4F, 0x54, 0xFF],
      decode (BitVec.ofNat 32 op) = .error .reservedOpcode := by
  intro op h
  fin_cases h <;> rfl

/-- A latched SFILOOKUP. -/
def asking : State := latched 0x42 (ops 0 0 0 0 44100 0) noBytes

/-- M4: two tracks of one sample. -/
def mixing : State := latched 0x33 (mixOps 2) (tracks 0 [([1000], 0x8000), ([2000], 0x8000)] noBytes)

theorem witness_StepRunsNextEvent :
    asking.agenda = .cu :: [] ∧ (blank).agenda = [] := by decide

theorem witness_StepRunsLatchedCommand :
    asking.agenda = .cu :: [] ∧ asking.pending = some ⟨0x42, ops 0 0 0 0 44100 0⟩ ∧ decode 0x42 = .ok .sfilookup ∧
      (latched 0x220 OperandRegs.reset noBytes).pending = some ⟨0x220, OperandRegs.reset⟩ ∧
      decode 0x220 = .error .reservedBits ∧
      ({ blank with agenda := [.cu] } : State).pending = none :=
  ⟨rfl, rfl, rfl, rfl, rfl, rfl⟩

theorem witness_CmdWriteLatchesOrDrops :
    (blank).busy = false ∧ asking.busy = true := by decide

theorem witness_LatchedCommandIgnoresLiveRegisters :
    asking.pending = some ⟨0x42, ops 0 0 0 0 44100 0⟩ := by decide

/-- A data command that fails, and the configuration failure. -/
theorem witness_FailedCommandLeavesNothing :
    (∃ t, exec (.extl 1) (latched 0x120 (ops 0x100 6 0x200 0x100 2 0) noBytes) = .next t ∧ t.errCode ≠ .ok) ∧
      ∃ t, exec .sprepare (inSession 0x50 (scfg 48000 7 2) Session.reset []) = .next t ∧ t.errCode ≠ .ok :=
  ⟨⟨_, rfl, by decide +kernel⟩, ⟨_, rfl, by decide +kernel⟩⟩

theorem witness_RegistersReadBackOrIgnoreWrites :
    Reg.scfgPoll ∈ [Reg.srcAddr, .srcLen, .dstAddr, .dstCap, .param0, .param1, .scfgRate, .scfgCh, .scfgBitrate,
      .scfgPoll] ∧ Reg.ctrl ≠ Reg.scfgPoll ∧ Reg.scfgMode ∈ [Reg.ctrl, .scfgMode] ∧
      ∀ off ∈ [0x30, 0x3C, 0x70, 0xFC], (0x30 ≤ off ∧ off ≤ 0x3C) ∨ (0x70 ≤ off ∧ off ≤ 0xFC) := by decide

/-- A write with bit 2 set and one without it, and a command that failed. -/
theorem witness_StatusBitsAndOverrunClear :
    (4 : Word).getLsbD 2 = true ∧ (3 : Word).getLsbD 2 = false ∧ (blank.fail .badSync).errCode = .badSync ∧
      blank.configFailed.serr = .configFail := by decide

theorem witness_SessionRegistersAreViews :
    ∀ q ∈ [(SessState.idle, 0), (.prepared, 1), (.running, 2), (.draining, 3), (.released, 4)],
      (session q.1 .encode).state = q.1 := by decide

/-- The first and the last register of the window, a poll of STATUS and an early take of each result while BUSY, a take once
BUSY fell, and each kind of access without a meaning. -/
theorem witness_RegisterWindowAccess :
    (0 < 2 ^ 32 ∧ 0 % 4 = 0 ∧ 0 < 0x100) ∧ (0xFC < 2 ^ 32 ∧ 0xFC % 4 = 0 ∧ 0xFC < 0x100) ∧
      (asking.busy = true ∧ ¬ (0x04 = 0x08 ∨ 0x04 = 0x28 ∨ 0x04 = 0x2C)) ∧
      (∀ off ∈ [0x08, 0x28, 0x2C], off % 4 = 0 ∧ off < 0x100 ∧ (off = 0x08 ∨ off = 0x28 ∨ off = 0x2C)) ∧
      blank.busy = false ∧ Width.half ≠ Width.word ∧ 0x02 % 4 ≠ 0 ∧ 0x100 ≤ 0x100 := by decide

/-- Polling STATUS goes on while BUSY; taking RESULT0 as the pending command's result does not. -/
theorem test_reads_while_busy :
    holdsAfter (runEvent (rd plat .status) asking) (fun t => t.reply == .word 1) = true ∧
      holdsAfter (runEvent (rd plat .result0) asking) (fun t => t.reply == .word 0) = true ∧
      faults (runEvent (rdResult plat .result0) asking) .resultWhileBusy = true := by decide

/-- One byte at the last address of each region a pending command names: the source of M2S, the table and the second track
of a mixer, the seven bytes of an ADTSPARSE and the six of a too short one. -/
theorem witness_PendingRegionsFaultHostAccess_reads :
    ((latched 0x123 (ops 0x100 4 0x200 8 0 0) noBytes).pending = some ⟨0x123, ops 0x100 4 0x200 8 0 0⟩ ∧
      decode 0x123 = .ok (.m2s 1) ∧ Region.valid ⟨0x103, 1⟩ plat = true ∧
      Region.overlaps ⟨0x103, 1⟩ (ops 0x100 4 0x200 8 0 0).source = true) ∧
    (decode 0x33 = .ok .mixwgt ∧ 1 ≤ (latched 0x33 (mixOps 1) noBytes).rows ∧
      (latched 0x33 (mixOps 256) noBytes).rows ≤ 256 ∧
      Region.overlaps ⟨0x40B, 1⟩ (tableRegion (mixOps 1)) = true ∧ (tableRegion mixing.op).valid plat = true ∧
      1 < mixing.rows ∧ Region.overlaps ⟨0x511, 1⟩ (mixing.track 1).region = true) ∧
    (decode 0x41 = .ok .adtsparse ∧ Region.overlaps ⟨0x706, 1⟩ ⟨0x700, min 8 7⟩ = true ∧
      Region.overlaps ⟨0x706, 1⟩ ⟨0x700, min 6 7⟩ = false) := by
  refine ⟨⟨rfl, rfl, ?_⟩, ⟨rfl, ?_⟩, rfl, ?_⟩ <;> decide +kernel

/-- The destination of each kind of data command, that of a command whose CAPACITY check will fail and that
of one whose OVERLAP check will fail. -/
theorem witness_PendingRegionsFaultHostAccess_writes :
    (latched 0x10 (ops 0x100 3 0x200 3 8 8) noBytes).NamesOutput .resample 3 ∧
      (latched 0x10 (ops 0x100 8 0x200 11 4 6) noBytes).NamesOutput .resample 12 ∧
      (latched 0x120 (ops 0x100 3 0x101 3 1 0) noBytes).NamesOutput (.extl 1) 3 ∧
      (latched 0x21 (ops 0x100 6 0x200 0 3 0) noBytes).NamesOutput (.extr 0) 2 ∧
      (latched 0x122 (ops 0x100 3 0x200 3 2 0) noBytes).NamesOutput (.red2 1) 3 ∧
      (latched 0x22 (ops 0x100 6 0x200 4 3 0) noBytes).NamesOutput (.red2 0) 4 ∧
      (latched 0x123 (ops 0x100 4 0x200 7 0 0) noBytes).NamesOutput (.m2s 1) 8 ∧
      mixing.NamesOutput .mixwgt 2 ∧ mixing.NamesOutput .mixext 2 ∧
      (latched 0x9140 (ops 0 0 0x700 6 8184 0) noBytes).NamesOutput (.adtsenc 1 4 2) 7 := by
  refine ⟨?_, ?_, ?_, ?_, ?_, ?_, ?_, ?_, ?_, ?_⟩ <;> simp only [State.NamesOutput] <;> decide +kernel

/-- The last byte of a header to be written, and the byte after it. -/
theorem witness_PendingRegionsFaultHostAccess_edges :
    Region.overlaps ⟨0x706, ([0] : List Byte).length⟩ ⟨0x700, 7⟩ = true ∧
      Region.overlaps ⟨0x707, ([0] : List Byte).length⟩ ⟨0x700, 7⟩ = false ∧
      (1 : Word).toNat = ([0] : List Byte).length := by decide

/-- An M2S that will fail CAPACITY: a host access to its destination while BUSY is a fault, a read of its source is not. -/
theorem test_pending_destination_of_failing_command :
    reports 0x123 (ops 0x100 4 0x200 7 0 0) noBytes .capacity = true ∧
      faults (runEvent (mw 0x207 [0]) (latched 0x123 (ops 0x100 4 0x200 7 0 0) noBytes)) .touchesPending = true ∧
      holdsAfter (runEvent (mr 0x100 4) (latched 0x123 (ops 0x100 4 0x200 7 0 0) noBytes)) (fun t =>
        t.reply == .bytes [0, 0, 0, 0]) = true := by decide +kernel

/-- A queued chunk, and a chunk fed but not yet seen passed. -/
theorem witness_QueuedChunksFaultHostWrites :
    (playing (session .running .encode) [⟨0x1000, 4⟩] []).pending = none ∧
      (⟨0x1000, 4⟩ : Chunk) ∈ (playing (session .running .encode) [⟨0x1000, 4⟩] []).queue ∧
      FedChunk.mk ⟨0x1000, 4⟩ 0 ∈ (feederStep true (playing (session .running .encode) [⟨0x1000, 4⟩] [])).fedUnseen ∧
      Region.valid ⟨0x1003, 1⟩ plat = true ∧
      Region.overlaps ⟨0x1003, 1⟩ (⟨0x1000, 4⟩ : Chunk).region = true := by decide +kernel

/-- A lent chunk while a command is pending on other regions. -/
theorem witness_QueuedChunksFaultHostWrites_busy :
    let s : State := { latched 0x123 (ops 0x100 4 0x200 8 0 0) noBytes with queue := [⟨0x1000, 4⟩] }
    s.busy = true ∧ (⟨0x1000, 4⟩ : Chunk) ∈ s.queue ∧
      (∀ r ∈ s.pendingReads ++ s.pendingDest, Region.overlaps ⟨0x1003, 1⟩ r = false) ∧
      faults (runEvent (mw 0x1003 [0]) s) .touchesQueuedChunk = true := by decide +kernel

/-- R223: a fed chunk is still the block's after the release, until a read of FED_COUNT passed it. -/
theorem test_fed_chunk_survives_release :
    (releaseStep { playing { session .draining .encode with inDone := true, outDone := true, fedCount := 1 } [] [] with
        fedUnseen := [⟨⟨0x1000, 4⟩, 0⟩] }).fedUnseen = [⟨⟨0x1000, 4⟩, 0⟩] ∧
      holdsAfter (runEvent (rd plat .fedCount) { playing { session .running .encode with fedCount := 1 } [] [] with
        fedUnseen := [⟨⟨0x1000, 4⟩, 0⟩, ⟨⟨0x2000, 4⟩, 1⟩] }) (fun t => t.fedUnseen == [⟨⟨0x2000, 4⟩, 1⟩]) = true := by
  decide +kernel

/-- The last two bytes of memory, with nothing pending and with a command pending elsewhere. -/
theorem witness_HostMemoryAccess :
    blank.pending = none ∧ blank.queue = [] ∧ blank.fedUnseen = [] ∧
      Region.valid ⟨(0xFFFE : Word).toNat, ([1, 2] : List Byte).length⟩ plat = true ∧
      (2 : Word).toNat = ([1, 2] : List Byte).length ∧
      (let s := latched 0x123 (ops 0x100 4 0x200 8 0 0) noBytes
       ∀ r ∈ s.pendingReads ++ s.pendingDest ++ s.lentRegions, Region.overlaps ⟨0x208, 2⟩ r = false) := by decide +kernel

/-- RESAMPLE of 3 bytes on equal rates, with exactly the capacity and at the very end of memory. -/
theorem witness_ResampleEqualRatesCopies :
    ResampleCopies (latched 0x10 (ops 0xFFFD 3 0x200 3 8000 8000) noBytes) ∧
      ResampleCopies (latched 0x10 (ops 0x100 4 0xFFFC 4 0 0) noBytes) := by decide +kernel

/-- RS3 with exactly its capacity, RS6 (one source sample) and RS7 (one output sample). -/
theorem witness_ResampleInterpolates :
    ResampleRuns (latched 0x10 (ops 0x100 8 0x200 12 4 6) noBytes) ∧
      ResampleRuns (latched 0x10 (ops 0x100 2 0x200 6 1 3) noBytes) ∧
      ResampleRuns (latched 0x10 (ops 0x100 8 0x200 2 4 1) noBytes) := by decide +kernel

/-- A region that ends at MEM_BYTES and one a byte longer; regions that touch, that share one byte, and an empty one. -/
theorem witness_ResampleErrors_regions :
    Region.valid ⟨0xFFFE, 2⟩ plat = true ∧ Region.valid ⟨0xFFFE, 3⟩ plat = false ∧
      Region.overlaps ⟨0, 4⟩ ⟨4, 4⟩ = false ∧ Region.overlaps ⟨0, 5⟩ ⟨4, 4⟩ = true ∧
      Region.overlaps ⟨5, 0⟩ ⟨4, 4⟩ = false := by decide

/-- The equal rates' clauses: source RANGE, CAPACITY, destination RANGE, OVERLAP, each one byte beyond its limit. -/
theorem witness_ResampleErrors_equal :
    ((ops 0xFFFE 3 0 0 8 8).param0 = (ops 0xFFFE 3 0 0 8 8).param1 ∧ (ops 0xFFFE 3 0 0 8 8).source.valid plat = false) ∧
    ((ops 0x100 3 0x200 2 8 8).source.valid plat = true ∧ (ops 0x100 3 0x200 2 8 8).dstCap.toNat < 3) ∧
    (3 ≤ (ops 0x100 3 0xFFFE 3 8 8).dstCap.toNat ∧ Region.valid ⟨0xFFFE, 3⟩ plat = false) ∧
    (Region.valid ⟨0x102, 3⟩ plat = true ∧ Region.overlaps ⟨0x102, 3⟩ (ops 0x100 3 0x102 3 8 8).source = true) := by
  decide +kernel

/-- The unequal rates' clauses: RS12, RS17, RS13, RS11 and RS14, RS15, destination RANGE, RS16. -/
theorem witness_ResampleErrors_unequal :
    ((ops 0x100 6 0x200 0x100 0 5).param0 ≠ (ops 0x100 6 0x200 0x100 0 5).param1 ∧
      (ops 0x100 6 0x200 0x100 0 5).param0 = 0) ∧
    ((ops 0xFFFFFFFE 4 0x200 0x100 1 2).param0 ≠ 0 ∧ (ops 0xFFFFFFFE 4 0x200 0x100 1 2).source.valid plat = false) ∧
    ((ops 0x100 3 0x200 0x100 1 2).source.valid plat = true ∧
      (latched 0x10 (ops 0x100 3 0x200 0x100 1 2) noBytes).srcBytes % 2 = 1) ∧
    ((latched 0x10 (ops 0x100 6 0x200 0x100 3 0) noBytes).srcBytes % 2 = 0 ∧
      (latched 0x10 (ops 0x100 6 0x200 0x100 3 0) noBytes).outSamples = 0 ∧
      (latched 0x10 (ops 0x100 0 0x200 0x100 1 2) noBytes).outSamples = 0) ∧
    (1 ≤ (latched 0x10 (ops 0x100 8 0x200 11 4 6) noBytes).outSamples ∧
      (ops 0x100 8 0x200 11 4 6).dstCap.toNat < 2 * (latched 0x10 (ops 0x100 8 0x200 11 4 6) noBytes).outSamples) ∧
    (2 * (latched 0x10 (ops 0x100 8 0xFFF5 12 4 6) noBytes).outSamples ≤ 12 ∧ Region.valid ⟨0xFFF5, 12⟩ plat = false) ∧
    (Region.valid ⟨0x104, 12⟩ plat = true ∧ Region.overlaps ⟨0x104, 12⟩ (ops 0x100 8 0x104 12 4 6).source = true) := by
  decide +kernel

theorem witness_InterpolationStaysBetweenSamples :
    1 ≤ ([7] : List Int).length ∧ 2 ≤ 2 ∧ 1 < 2 ∧ 1 ≤ ([0, 1000] : List Int).length ∧ 0 < 2 := by decide

/-- Both depths, with exactly the capacity. -/
theorem witness_ExtractTakesOneChannel :
    ExtractReady 1 (latched 0x120 (ops 0x100 8 0x200 4 2 0) noBytes) ∧
      ExtractReady 0 (latched 0x21 (ops 0x100 6 0x200 2 3 0) noBytes) ∧
      (Instr.extl 1 = .extl 1 ∧ 0 = 0) ∧ Instr.extr 0 = .extr 0 ∧ bytesPerSample 0 = bytesPerSample 0 := by decide +kernel

theorem witness_Red2TakesFirstTwoChannels :
    ReduceReady 0 (latched 0x22 (ops 0x100 6 0x200 4 3 0) noBytes) ∧
      ReduceReady 1 (latched 0x122 (ops 0x100 12 0x200 8 3 0) noBytes) := by decide +kernel

theorem witness_M2sDoublesEverySample :
    DoubleReady 1 (latched 0x123 (ops 0x100 4 0x200 8 0 0) noBytes) ∧
      DoubleReady 0 (latched 0x23 (ops 0x100 3 0x200 6 0 0) noBytes) := by decide +kernel

/-- CH9 (one channel, odd length), CH13 (0 channels) and CH5 (2 channels). -/
theorem witness_ChannelIdentityCopies :
    (CopyReady (latched 0x120 (ops 0x100 3 0x200 3 1 0) noBytes) ∧
      (latched 0x120 (ops 0x100 3 0x200 3 1 0) noBytes).channels = 1) ∧
    (CopyReady (latched 0x122 (ops 0x100 2 0x200 2 0 0) noBytes) ∧
      (latched 0x122 (ops 0x100 2 0x200 2 0 0) noBytes).channels ≤ 2) ∧
    (CopyReady (latched 0x122 (ops 0x100 8 0x200 8 2 0) noBytes) ∧
      (latched 0x122 (ops 0x100 8 0x200 8 2 0) noBytes).channels ≤ 2) := by decide +kernel

/-- CH12, a source one byte too long, CH14 at three channels, CH15. -/
theorem witness_ChannelSourceErrors :
    (latched 0x120 (ops 0x100 2 0x200 2 0 0) noBytes).channels = 0 ∧
    ((ops 0xFFFE 3 0x200 3 1 0).source.valid plat = false ∧
      1 ≤ (latched 0x120 (ops 0xFFFE 3 0x200 3 1 0) noBytes).channels) ∧
    ((ops 0x100 7 0x200 7 3 0).source.valid plat = true ∧
      3 ≤ (latched 0x122 (ops 0x100 7 0x200 7 3 0) noBytes).channels ∧
      (latched 0x122 (ops 0x100 7 0x200 7 3 0) noBytes).srcBytes %
        ((latched 0x122 (ops 0x100 7 0x200 7 3 0) noBytes).channels * bytesPerSample 1) ≠ 0) ∧
    (latched 0x123 (ops 0x100 3 0x200 6 0 0) noBytes).srcBytes % bytesPerSample 1 ≠ 0 := by decide +kernel

/-- The output byte counts of the four forms, and a capacity, a destination and an overlap one byte wrong. -/
theorem witness_ChannelDestinationErrors :
    ((ops 0x100 8 0x200 3 2 0).source.valid plat = true ∧ 1 ≤ (latched 0x120 (ops 0x100 8 0x200 3 2 0) noBytes).channels ∧
      (latched 0x120 (ops 0x100 8 0x200 3 2 0) noBytes).srcBytes %
        ((latched 0x120 (ops 0x100 8 0x200 3 2 0) noBytes).channels * bytesPerSample 1) = 0 ∧
      4 = (latched 0x120 (ops 0x100 8 0x200 3 2 0) noBytes).srcBytes /
        (latched 0x120 (ops 0x100 8 0x200 3 2 0) noBytes).channels ∧ (ops 0x100 8 0x200 3 2 0).dstCap.toNat < 4) ∧
    ((latched 0x122 (ops 0x100 8 0xFFF9 8 2 0) noBytes).channels ≤ 2 ∧
      8 = (latched 0x122 (ops 0x100 8 0xFFF9 8 2 0) noBytes).srcBytes ∧ Region.valid ⟨0xFFF9, 8⟩ plat = false) ∧
    (3 ≤ (latched 0x22 (ops 0x100 6 0x105 4 3 0) noBytes).channels ∧
      4 = (latched 0x22 (ops 0x100 6 0x105 4 3 0) noBytes).srcBytes /
        (latched 0x22 (ops 0x100 6 0x105 4 3 0) noBytes).channels * 2 ∧ Region.valid ⟨0x105, 4⟩ plat = true ∧
      Region.overlaps ⟨0x105, 4⟩ (ops 0x100 6 0x105 4 3 0).source = true) ∧
    (6 = 2 * (latched 0x23 (ops 0x100 3 0x200 5 0 0) noBytes).srcBytes ∧ (ops 0x100 3 0x200 5 0 0).dstCap.toNat < 6) := by
  decide +kernel

/-- CH6's widening, then an extraction of what it wrote to a third place. -/
theorem witness_ExtractAfterWidenIsIdentity :
    ∃ t u, DoubleReady 1 (latched 0x123 (ops 0x100 4 0x200 8 0 0) (bytesAt 0x100 [0x34, 0x12, 0xCD, 0xAB] noBytes)) ∧
      exec (.m2s 1) (latched 0x123 (ops 0x100 4 0x200 8 0 0) (bytesAt 0x100 [0x34, 0x12, 0xCD, 0xAB] noBytes)) = .next t ∧
      u = latched 0x120 (ops 0x200 8 0x300 4 2 0) t.mem ∧ u.mem = t.mem ∧ u.op.source = ⟨0x200, 2 * 4⟩ ∧
      u.channels = 2 ∧ ExtractReady 1 u :=
  ⟨_, _, by decide +kernel, rfl, rfl, rfl, by decide +kernel, by decide +kernel, by decide +kernel⟩

theorem witness_MixaddSumsAndWraps : MixReady mixing ∧ 0 < (mixing.track 0).region.len / 2 := by decide +kernel

/-- The least and the greatest track count. -/
theorem witness_MixavgDividesTowardZero :
    MixReady (latched 0x32 (mixOps 1) (tracks 0 [([5], 0)] noBytes)) ∧ MixReady (latched 0x32 (mixOps 256) noBytes) := by
  decide +kernel

theorem witness_MixwgtWeighsInFixedPoint : MixReady mixing ∧ (mixing.track 0).weight = 0x8000 := by decide +kernel

theorem witness_MixextAddsExtremes :
    MixReady mixing ∧
      (List.range mixing.rows).map (fun r => sampleAt mixing.mem ((mixing.track r).region.addr + 2 * 0)) = [1000, 2000] ∧
      (2000 : Int) ∈ ([1000, 2000] : List Int) ∧ (1000 : Int) ∈ ([1000, 2000] : List Int) ∧
      ∀ x ∈ ([1000, 2000] : List Int), 1000 ≤ x ∧ x ≤ 2000 := by decide +kernel

/-- M9, M10, a table one byte beyond memory, a track beyond memory, M8 and M11. -/
theorem witness_MixerErrors_sources :
    (latched 0x32 (mixOps 0) noBytes).rows = 0 ∧ 256 < (latched 0x32 (mixOps 257) noBytes).rows ∧
    (1 ≤ (latched 0x31 (ops 0xFFF5 0 0x600 0x100 1 0) noBytes).rows ∧
      (tableRegion (ops 0xFFF5 0 0x600 0x100 1 0)).valid plat = false) ∧
    ((tableRegion (mixOps 1)).valid plat = true ∧
      ((latched 0x31 (mixOps 1) (bytesAt 0x400 (entryBytes 0xFFFF 2 0) noBytes)).track 0).region.valid plat = false) ∧
    (MixSources (latched 0x31 (mixOps 2) (tracks 0 [([1, 2], 0), ([1], 0)] noBytes)) ∧
      ((latched 0x31 (mixOps 2) (tracks 0 [([1, 2], 0), ([1], 0)] noBytes)).track 1).region.len ≠
        ((latched 0x31 (mixOps 2) (tracks 0 [([1, 2], 0), ([1], 0)] noBytes)).track 0).region.len) ∧
    (MixSources (latched 0x31 (mixOps 1) (bytesAt 0x400 (entryBytes 0x500 3 0) noBytes)) ∧
      ((latched 0x31 (mixOps 1) (bytesAt 0x400 (entryBytes 0x500 3 0) noBytes)).track 0).region.len % 2 = 1) := by
  decide +kernel

/-- A capacity, a destination, an overlap with the table (M12) and an overlap with a track, each by one byte. -/
theorem witness_MixerErrors_destination :
    (MixSources mixing ∧ (∀ r < mixing.rows, (mixing.track r).region.len = 2) ∧
      (latched 0x33 (ops 0x400 0 0x600 1 2 0) mixing.mem).op.dstCap.toNat < 2) ∧
    Region.valid ⟨0xFFFF, 2⟩ plat = false ∧
    Region.overlaps ⟨0x417, 2⟩ (tableRegion (mixOps 2)) = true ∧
    Region.overlaps ⟨0x4FF, 2⟩ (mixing.track 0).region = true := by decide +kernel

/-- The largest payload, and each refusal at its limit. -/
theorem witness_AdtsencWritesHeaderOrFails :
    AdtsencReady 2 12 (latched 0x40 (ops 0 0 0x700 7 8184 0) noBytes) ∧ (12 : Nat) < (13 : BitVec 4).toNat ∧
      8191 < (ops 0 0 0x700 7 8185 0).param0.toNat + 7 ∧ (ops 0 0 0x700 6 0 0).dstCap.toNat < 7 ∧
      7 ≤ (ops 0 0 0xFFFA 7 0 0).dstCap.toNat ∧ Region.valid ⟨0xFFFA, 7⟩ plat = false := by decide +kernel

theorem witness_HeaderFollowsWireFormat : 0 < 56 ∧ 55 < 56 := by decide

theorem witness_SampleCodecRoundTrip : (-32768 : Int) ≤ -32768 ∧ (32767 : Int) ≤ 32767 := by decide

/-- AD12, a source one byte beyond memory, AD2's bytes and AD13's. -/
theorem witness_AdtsparseReadsHeader :
    (ops 0x700 6 0 0 0 0).srcLen.toNat < 7 ∧
    (7 ≤ (ops 0xFFFA 7 0 0 0 0).srcLen.toNat ∧ Region.valid ⟨0xFFFA, 7⟩ plat = false) ∧
    Region.valid ⟨0x700, 7⟩ plat = true ∧
    (0xFF = 0xFF ∧ 0xF9 / 16 = 0xF ∧ 0xF9 / 2 % 4 = 0 ∧ 0xF9 % 2 = 1) ∧
    ¬ (0xFF = 0xFF ∧ 0xF8 / 16 = 0xF ∧ 0xF8 / 2 % 4 = 0 ∧ 0xF8 % 2 = 1) := by decide +kernel

/-- AD1 then AD2. -/
theorem witness_ParseInvertsEncode :
    ∃ t u, exec (.adtsenc 1 4 2) (latched 0x9140 (ops 0 0 0x700 7 100 0) noBytes) = .next t ∧ t.errCode = .ok ∧
      u = latched 0x41 (ops 0x700 7 0 0 0 0) t.mem ∧ u.mem = t.mem ∧ u.platform = plat ∧ u.op.srcAddr = 0x700 ∧
      7 ≤ u.srcBytes :=
  ⟨_, _, rfl, by decide +kernel, rfl, rfl, rfl, rfl, by decide +kernel⟩

/-- A rate of the table and one next to it. -/
theorem witness_SfilookupFollowsTable :
    (latched 0x42 (ops 0 0 0 0 7350 0) noBytes).op.param0.toNat = 7350 ∧
      (latched 0x42 (ops 0 0 0 0 7351 0) noBytes).op.param0.toNat ∉
        [96000, 88200, 64000, 48000, 44100, 32000, 24000, 22050, 16000, 12000, 11025, 8000, 7350] := by decide +kernel

/-- Both answers, AUTOSTART off and on, and the channel counts 1, 6 and 8. -/
theorem witness_SprepareLatchesConfiguration :
    (inSession 0x50 (scfg 48000 1 2) Session.reset []).sess.state = .idle ∧ ConfigValid (scfg 48000 1 2) 1 ∧
      ConfigValid (scfg 48000 6 2) 6 ∧ ConfigValid (scfg 48000 8 2) 7 ∧ (2 : BitVec 4).getLsbD 3 = false ∧
      (10 : BitVec 4).getLsbD 3 = true ∧
      (∀ req, (inSession 0x50 (scfg 48000 1 2) Session.reset []).configureAnswer req = true) ∧
      ∀ req, ({ inSession 0x50 (scfg 48000 1 2) Session.reset [] with codecAnswer := some false } : State).configureAnswer
        req = false := by
  refine ⟨rfl, ?_, ?_, ?_, ?_, ?_, fun _ => rfl, fun _ => rfl⟩ <;> decide

/-- The channel counts 0, 7 and 9, rate 0, profile 3, and a state that takes no SPREPARE. -/
theorem witness_SprepareRefusals :
    ConfigInvalid (scfg 48000 0 2) ∧ ConfigInvalid (scfg 48000 7 2) ∧ ConfigInvalid (scfg 48000 9 2) ∧
      ConfigInvalid (scfg 0 1 2) ∧ ConfigInvalid (scfg 48000 1 6) ∧
      (inSession 0x50 (scfg 48000 1 2) (session .draining .encode) []).sess.state = .draining := by decide +kernel

theorem witness_SstartFollowsState :
    (inSession 0x51 OperandRegs.reset (session .prepared .encode) []).sess.state = .prepared ∧
      (inSession 0x51 OperandRegs.reset (session .running .encode) []).sess.state = .running ∧
      (inSession 0x51 OperandRegs.reset Session.reset []).sess.state = .idle := by decide

/-- A full queue and a queue with one place, an empty chunk, a chunk beyond memory, a stereo chunk of one frame. -/
theorem witness_SsubmitAppendsOrFails :
    (inSession 0x52 (ops 0x100 2 0 0 0 0) (session .running .encode) (List.replicate 16 ⟨0, 2⟩)).queue.length = 16 ∧
      (inSession 0x52 (ops 0x100 2 0 0 0 0) (session .running .encode) (List.replicate 15 ⟨0, 2⟩)).queue.length < 16 ∧
      (inSession 0x52 (ops 0x100 0 0 0 0 0) (session .running .encode) []).srcBytes = 0 ∧
      (ops 0xFFFF 2 0 0 0 0).source.valid plat = false ∧
      (ops 0xFFFE 2 0 0 0 0).source.valid plat = true ∧
      (2 ≠ 0 ∧ ((session .running .encode).dir = .encode → 2 % (2 * (session .running .encode).ch.toNat) = 0)) ∧
      (inSession 0x52 (ops 0x100 2 0 0 0 0) (session .draining .encode) []).sess.state = .draining := by decide +kernel

theorem witness_SstopFollowsState :
    (inSession 0x53 OperandRegs.reset (session .running .encode) []).sess.state = .running ∧
      (inSession 0x53 OperandRegs.reset (session .draining .encode) []).sess.state = .draining ∧
      (inSession 0x53 OperandRegs.reset (session .released .encode) []).sess.state = .released := by decide

/-- A chunk to feed, an end marker to send, and a feeder that waits. -/
theorem witness_FeederFeedsInOrder :
    (session .running .encode).inDone = false ∧
      (playing (session .running .encode) [⟨0x1000, 4⟩] []).queue = ⟨0x1000, 4⟩ :: [] ∧
      (playing (session .draining .encode) [] []).queue = [] ∧ (session .draining .encode).stopReq = true ∧
      (session .running .encode).stopReq = false ∧ ¬ (session .running .encode).inDone = true := by decide

/-- An empty buffer, the shortest and the longest payload, one byte more, and a decoded buffer. -/
theorem witness_DrainerEmitsBuffers :
    ((session .running .encode).state = .running ∧ (session .running .encode).outDone = false ∧
      (session .running .encode).dir = .encode ∧ (session .running .decode).dir = .decode) ∧
    ([] : List Byte).length = 0 ∧ 1 ≤ ([0] : List Byte).length ∧ (List.replicate 8184 (0 : Byte)).length ≤ 8184 ∧
    8184 < (List.replicate 8185 (0 : Byte)).length ∧
    (playing (session .running .encode) [] [⟨[0], false⟩]).codecOut = ⟨[0], false⟩ :: [] ∧
    (playing (session .prepared .encode) [] []).sess.active = false := by
  simp only [List.length_replicate]
  decide

theorem witness_ReleaseFiresOnce :
    ({ session .draining .encode with inDone := true, outDone := true } : Session).state = .draining ∧
      ({ session .draining .encode with inDone := true, outDone := true } : Session).released = false ∧
      (session .draining .encode).outDone = false := by decide

/-- A buffer in an active session, a last buffer after the end marker, and a last buffer without it. -/
theorem witness_CodecDeviceKeepsContract :
    (playing (session .running .encode) [] []).sess.state = .running ∧
      (playing (session .running .encode) [] []).codecOut = [] ∧
      (∃ x ∈ ({ playing (session .draining .encode) [] [] with codecIn := [⟨[], 0, true⟩] } : State).codecIn, x.eos = true) ∧
      ¬ ∃ x ∈ (playing (session .running .encode) [] []).codecIn, x.eos = true := by decide +kernel

/-- A data command that delivers, and one that delivers nothing. -/
theorem witness_DataCommandFrame :
    (∃ t out, exec (.m2s 1) (latched 0x123 (ops 0x100 4 0x200 8 0 0) noBytes) = .next t ∧
      dataPlan (.m2s 1) plat noBytes (ops 0x100 4 0x200 8 0 0) = some out) ∧
    ∃ t, exec (.m2s 1) (latched 0x123 (ops 0x100 3 0x200 8 0 0) noBytes) = .next t ∧
      dataPlan (.m2s 1) plat noBytes (ops 0x100 3 0x200 8 0 0) = none :=
  ⟨⟨_, _, rfl, rfl⟩, ⟨_, rfl, rfl⟩⟩

theorem witness_NonStoringCommandFrame :
    (∃ t, exec .sfilookup asking = .next t) ∧
      ∃ t, exec .sstop (inSession 0x53 OperandRegs.reset (session .running .encode) []) = .next t :=
  ⟨⟨_, rfl⟩, ⟨_, rfl⟩⟩

/-- A command that stores, and a host that writes. -/
theorem witness_OnlyDataCommandsAndHostsWriteMemory :
    (∃ t, step (latched 0x23 (ops 0x100 1 0x200 2 0 0) (bytesAt 0x100 [7] noBytes)) = .next t ∧
      t.mem ≠ (latched 0x23 (ops 0x100 1 0x200 2 0 0) (bytesAt 0x100 [7] noBytes)).mem) ∧
    ∃ t, step { blank with agenda := [mw 0x100 [7]] } = .next t ∧ t.mem ≠ noBytes :=
  ⟨⟨_, rfl, by decide +kernel⟩, ⟨_, rfl, by decide +kernel⟩⟩

/-- An append, a removal and an emptying. -/
theorem witness_QueueIsFifo :
    (∃ t, step (inSession 0x52 (ops 0x100 2 0 0 0 0) (session .running .encode) []) = .next t ∧
      t.queue = [⟨0x100, 2⟩]) ∧
    (∃ t, step { playing (session .running .encode) [⟨0x1000, 4⟩] [] with agenda := [.feeder true] } = .next t ∧
      t.queue = []) ∧
    ∃ t, step { playing (session .running .encode) [⟨0x1000, 4⟩] [] with agenda := [.reset] } = .next t ∧ t.queue = [] :=
  ⟨⟨_, rfl, by decide +kernel⟩, ⟨_, rfl, by decide +kernel⟩, ⟨_, rfl, by decide +kernel⟩⟩

/-- A draining session whose flags are both set, its release next. -/
def releasing : State :=
  { playing { session .draining .encode with inDone := true, outDone := true } [] [] with agenda := [.release] }

theorem witness_OutputPortAppendsAndEndsOnce :
    (∃ t, step releasing = .next t ∧ releasing.sess.state = .draining ∧ t.sess.state = .released) ∧
      releasing.nextEvent ≠ .reset ∧ releasing.taken ≤ releasing.outLog.length ∧
      ∃ t, step asking = .next t ∧ ¬ (asking.sess.state = .draining ∧ t.sess.state = .released) :=
  ⟨⟨_, rfl, by decide +kernel, by decide +kernel⟩, by decide +kernel, by decide +kernel, ⟨_, rfl, by decide +kernel⟩⟩

/-- A take with a message waiting, and a take at the end of the port. -/
theorem witness_OutputPortAppendsAndEndsOnce_takes :
    (∃ t, step { blank with outLog := [.data [7]], agenda := [.hostTake] } = .next t ∧ t.taken = 1 ∧
      t.reply = .message (.data [7])) ∧
    ∃ t, step { blank with agenda := [.hostTake] } = .next t ∧ t.taken = 0 ∧ t.reply = .noMessage :=
  ⟨⟨_, rfl, rfl, rfl⟩, ⟨_, rfl, rfl, rfl⟩⟩

theorem witness_SessionTransitions : (∃ t, step releasing = .next t) ∧ releasing.nextEvent ≠ .reset :=
  ⟨⟨_, rfl⟩, by decide +kernel⟩

/-- A byte access to the register window. -/
theorem witness_OnlyHostsFault :
    faults (step { blank with agenda := [.hostReadReg 0x40000000 .byte false] }) .badRegisterAccess = true := by
  decide +kernel

theorem witness_StepKeepsMemoryForm :
    (latched 0x23 (ops 0x100 1 0x200 2 0 0) (bytesAt 0x100 [7] noBytes)).MemInv ∧
      ∃ t, step (latched 0x23 (ops 0x100 1 0x200 2 0 0) (bytesAt 0x100 [7] noBytes)) = .next t :=
  ⟨by unfold State.MemInv; decide +kernel, _, rfl⟩

/-- A running session with a chunk queued, and a draining one whose end marker was accepted. -/
theorem witness_StepKeepsSessionInvariant :
    ({ playing (session .running .encode) [⟨0x1000, 4⟩] [] with agenda := [.feeder true] } : State).SessionInv ∧
      ({ playing { session .draining .encode with inDone := true } [] [⟨[1], true⟩] with
         codecIn := [⟨[], 0, true⟩], agenda := [.drainer] } : State).SessionInv ∧
      (∃ t, step { playing (session .running .encode) [⟨0x1000, 4⟩] [] with agenda := [.feeder true] } = .next t) := by
  refine ⟨?_, ?_, _, rfl⟩ <;>
    unfold State.SessionInv State.QueueInv Session.ConfigInv State.FlagInv State.PortInv <;> decide +kernel

/-- Each writer at work: OVR set and cleared, a result, both codes of SERR, an operand register, the latch. -/
theorem witness_StatusRegistersWrittenOnlyByTheirWriters :
    holdsAfter (step { asking with agenda := [wr plat .cmd 0x10] }) (fun t => t.ovr) = true ∧
      holdsAfter (step { blank with ovr := true, agenda := [wr plat .status 4] }) (fun t => !t.ovr) = true ∧
      holdsAfter (step asking) (fun t => t.result0 == 4) = true ∧
      holdsAfter (step (inSession 0x50 (scfg 48000 7 2) Session.reset [])) (fun t => t.serr == .configFail) = true ∧
      holdsAfter (step { playing (session .running .encode) [] [⟨List.replicate 8185 0, false⟩] with
        agenda := [.drainer] }) (fun t => t.serr == .frameTooLong) = true ∧
      holdsAfter (step { blank with agenda := [wr plat .dstCap 9] }) (fun t => t.regs.dstCap == 9) = true ∧
      holdsAfter (step { blank with agenda := [wr plat .cmd 0x42] }) (fun t =>
        t.pending == some ⟨0x42, OperandRegs.reset⟩) = true := by
  refine ⟨?_, ?_, ?_, ?_, ?_, ?_, ?_⟩ <;> decide +kernel

end Sys2Proof.Tests
end

section
/-! PROOFS. The sample codec and the little-endian word of spec/00_scope.md, in plain integers. -/

namespace Sys2Proof.Machine

/-! ### Byte concatenation -/

/-- Appending a low byte multiplies by 256 and adds. -/
theorem toNat_append_byte {w : Nat} (hi : BitVec w) (lo : Byte) :
    (hi ++ lo).toNat = lo.toNat + 256 * hi.toNat := by
  rw [BitVec.toNat_append, ← Nat.shiftLeft_add_eq_or_of_lt lo.isLt, Nat.shiftLeft_eq]
  omega

/-! ### Samples (R1, R3) -/

theorem le16_eq (b0 b1 : Byte) :
    le16 b0 b1 = if b0.toNat + 256 * b1.toNat < 32768 then (b0.toNat + 256 * b1.toNat : Int)
      else (b0.toNat + 256 * b1.toNat : Int) - 65536 := by
  rw [le16, BitVec.toInt_eq_toNat_cond, toNat_append_byte]
  split <;> split <;> omega

/-- The balanced remainder modulo `2 ^ 16` (R1), as the remainder in `0 .. 65535` with the upper half moved down. -/
theorem wrap16_eq (v : Int) : wrap16 v = if v % 65536 < 32768 then v % 65536 else v % 65536 - 65536 := by
  rw [wrap16, BitVec.toInt_ofInt, Int.bmod_def]
  rfl

theorem wrap16_eq_self {v : Int} (lo : -32768 ≤ v) (hi : v ≤ 32767) : wrap16 v = v := by
  rw [wrap16_eq]
  split <;> omega

@[simp] theorem samples16_bytes16 (seq : List Int) : samples16 (bytes16 seq) = seq.map wrap16 := by
  induction seq with
  | nil => rfl
  | cons v seq ih =>
    calc samples16 (bytes16 (v :: seq))
      _ = le16 ((BitVec.ofInt 16 v).extractLsb' 0 8) ((BitVec.ofInt 16 v).extractLsb' 8 8) ::
            samples16 (bytes16 seq) := rfl
      _ = (v :: seq).map wrap16 := by rw [le16_extract, ih]; rfl

/-- Settles O35, from the equations of `le16` and `wrap16` and the round trip by induction on the sequence. -/
theorem sampleCodecRoundTrip : Obligations.SampleCodecRoundTrip :=
  ⟨le16_eq, wrap16_eq, samples16_bytes16, fun _ => wrap16_eq_self⟩

/-! ### Little-endian words (R4) -/

theorem toNat_le32 (b0 b1 b2 b3 : Byte) :
    (le32 b0 b1 b2 b3).toNat =
      b0.toNat + 2 ^ 8 * b1.toNat + 2 ^ 16 * b2.toNat + 2 ^ 24 * b3.toNat := by
  simp only [le32, toNat_append_byte]
  omega

theorem toNat_readWord (m : Memory) (a : Nat) :
    (m.readWord a).toNat = (m.read a).toNat + 2 ^ 8 * (m.read (a + 1)).toNat +
      2 ^ 16 * (m.read (a + 2)).toNat + 2 ^ 24 * (m.read (a + 3)).toNat :=
  toNat_le32 ..

/-- `sext_32` (R4): a word is negative from `2 ^ 31` on. -/
theorem toInt_word (w : Word) :
    w.toInt = if w.toNat < 2 ^ 31 then (w.toNat : Int) else (w.toNat : Int) - 2 ^ 32 := by
  rw [BitVec.toInt_eq_toNat_cond]
  split <;> split <;> omega

/-- Settles O34: the three words of an entry are read by `Memory.readWord`, the last one signed. -/
theorem trackTableIsLittleEndian : Obligations.TrackTableIsLittleEndian := by
  intro m tbl r e word
  have hword (a : Nat) : (m.readWord a).toNat = word a := toNat_readWord m a
  refine ⟨hword e, hword (e + 4), ?_⟩
  rw [← hword (e + 8)]
  exact toInt_word _

end Sys2Proof.Machine
end

section
/-! PROOFS. What a command, an event and a step can do, said once as inductive relations with one constructor per effect:
the proofs about whole steps are case splits over them. -/

namespace Sys2Proof.Machine

/-! ### The effect of a command -/

/-- What a command can leave of the state `s` in which it runs. -/
inductive CommandEffect (s : State) : Instr → State → Prop where
  | failed (i : Instr) (code : ErrCode) : CommandEffect s i (s.fail code)
  | completed (i : Instr) (r0 r1 : Word) : CommandEffect s i (s.complete .ok r0 r1)
  | delivered (i : Instr) (out : Output) (plan : dataPlan i s.platform s.mem s.op = some out) :
      CommandEffect s i
        { s.complete .ok out.r0 out.r1 with mem := s.mem.writeBytes out.region.addr out.bytes }
  | configInvalid : CommandEffect s .sprepare s.configFailed
  | configRefused (req : ConfigRequest) : CommandEffect s .sprepare (s.askedConfigure req).configFailed
  | prepared (req : ConfigRequest) (o : OperandRegs) (c : BitVec 3) :
      CommandEffect s .sprepare (((s.askedConfigure req).latchConfig o c).complete .ok 0 0)
  | autostarted (req : ConfigRequest) (o : OperandRegs) (c : BitVec 3) :
      CommandEffect s .sprepare (((s.askedConfigure req).latchConfig o c).startBody.complete .ok 0 0)
  | started : CommandEffect s .sstart (s.startBody.complete .ok 0 0)
  | submitted (r0 : Word) :
      CommandEffect s .ssubmit ((s.enqueue ⟨s.op.srcAddr, s.op.srcLen⟩).complete .ok r0 0)
  | stopped : CommandEffect s .sstop (s.requestStop.complete .ok 0 0)

theorem prepare_effect (s : State) : CommandEffect s .sprepare (s.prepare s.op) := by
  rcases prepare_cases s s.op with h | h | ⟨c, -, -, -, h | h⟩ <;> rw [h]
  · exact .configInvalid
  · exact .configRefused _
  · exact .prepared _ _ _
  · exact .autostarted _ _ _

theorem submit_effect (s : State) : CommandEffect s .ssubmit (s.submit ⟨s.op.srcAddr, s.op.srcLen⟩) := by
  rcases submit_cases s ⟨s.op.srcAddr, s.op.srcLen⟩ with ⟨code, h⟩ | ⟨-, -, -, h⟩ <;> rw [h]
  · exact .failed _ code
  · exact .submitted _

theorem exec_effect {i : Instr} {s t : State} (h : exec i s = .next t) : CommandEffect s i t := by
  rcases exec_cases h with ⟨code, rfl⟩ | ⟨r0, r1, rfl⟩ | ⟨out, plan, rfl⟩ | ⟨rfl, -, rfl⟩ | ⟨rfl, -, rfl⟩ |
    ⟨rfl, -, rfl⟩ | ⟨rfl, -, rfl⟩
  · exact .failed i code
  · exact .completed i r0 r1
  · exact .delivered i out plan
  · exact prepare_effect s
  · exact .started
  · exact submit_effect s
  · exact .stopped

/-- While a command is latched its operands are those of the snapshot (spec/10_state.md R31). -/
theorem op_of_pending {s : State} {p : Pending} (h : s.pending = some p) : s.op = p.op := by
  simp [State.op, h]

/-! ### The effect of an event -/

/-- A drained buffer adds messages other than END and leaves SERR or sets it to FRAME_TOO_LONG
(spec/44_session_queue.md R175). -/
theorem emitBuffer_effect (s : State) (payload : List Byte) :
    ∃ log n code, Message.sessionEnd ∉ log ∧ (code = s.serr ∨ code = .frameTooLong) ∧
      s.emitBuffer payload =
        { s with outLog := s.outLog ++ log, sess := { s.sess with emitCount := n }, serr := code } := by
  unfold State.emitBuffer
  split
  · exact ⟨[], s.sess.emitCount, s.serr, by simp, .inl rfl, by simp⟩
  · split
    · split
      · exact ⟨[.error .frameTooLong], s.sess.emitCount, .frameTooLong, by simp, .inr rfl, rfl⟩
      · exact ⟨[.data _], _, s.serr, by simp, .inl rfl, rfl⟩
    · exact ⟨[.data payload], _, s.serr, by simp, .inl rfl, rfl⟩

theorem markOutDone_eq (s : State) (eos : Bool) :
    s.markOutDone eos = { s with sess := { s.sess with outDone := eos || s.sess.outDone } } := by
  cases eos <;> rfl

/-- What an event can leave of the state `s` in which it happens, as closely as the rules of whole steps need it. -/
inductive EventEffect (s : State) : Event → State → Prop where
  /-- Only the model's own records of replies, of lent chunks and of the device's answer change. -/
  | noted (e : Event) (reply : Reply) (fedUnseen : List FedChunk) (codecAnswer : Option Bool) :
      EventEffect s e { s with reply := reply, fedUnseen := fedUnseen, codecAnswer := codecAnswer }
  | tookMessage (msg : Message) (there : s.outLog[s.taken]? = some msg) :
      EventEffect s .hostTake { s with taken := s.taken + 1, reply := .message msg }
  | wroteRegs (r : Reg) (w : Word) (regs : OperandRegs) : EventEffect s (wr s.platform r w) { s with regs := regs }
  | latchedCommand (w : Word) (idle : s.pending = none) :
      EventEffect s (wr s.platform .cmd w) { s with pending := some ⟨w, s.regs⟩ }
  | overran (w : Word) (busy : s.busy = true) : EventEffect s (wr s.platform .cmd w) { s with ovr := true }
  | clearedOverrun (w : Word) (bitSet : w.getLsbD 2 = true) :
      EventEffect s (wr s.platform .status w) { s with ovr := false }
  | wroteMem (addr : Word) (bytes : List Byte)
      (valid : Region.valid ⟨addr.toNat, bytes.length⟩ s.platform = true) :
      EventEffect s (.hostWriteMem addr bytes) { s with mem := s.mem.writeBytes addr.toNat bytes }
  | illegal (p : Pending) (latched : s.pending = some p) : EventEffect s .cu (s.fail .illegalCmd)
  | executed {t : State} (p : Pending) (i : Instr) (latched : s.pending = some p) (decoded : decode p.word = .ok i)
      (effect : CommandEffect s i t) : EventEffect s .cu t
  | fed (d : Chunk) (rest : List Chunk) (accepts : Bool) (head : s.queue = d :: rest) :
      EventEffect s (.feeder accepts) (s.feed d rest)
  | fedEnd (accepts : Bool) : EventEffect s (.feeder accepts) s.feedEnd
  | drained (rest : List CodecOutput) (log : List Message) (n : Nat) (done : Bool) (code : ErrCode)
      (noEnd : Message.sessionEnd ∉ log) (serr : code = s.serr ∨ code = .frameTooLong) :
      EventEffect s .drainer
        { s with codecOut := rest, outLog := s.outLog ++ log, serr := code,
                 sess := { s.sess with emitCount := n, outDone := done } }
  | released (draining : s.sess.state = .draining) :
      EventEffect s .release
        { s with sess := .cleared, codecCalls := s.codecCalls ++ [.release], outLog := s.outLog ++ [.sessionEnd] }
  | produced (bytes : List Byte) (eos : Bool) :
      EventEffect s (.codecProduce bytes eos) { s with codecOut := s.codecOut ++ [{ bytes := bytes, eos := eos }] }
  | reset : EventEffect s .reset (resetStep s)

/-- An event may leave the state as it is. -/
theorem EventEffect.unchanged (s : State) (e : Event) : EventEffect s e s :=
  .noted e s.reply s.fedUnseen s.codecAnswer

theorem writeReg_effect (s : State) (r : Reg) (w : Word) : EventEffect s (wr s.platform r w) (s.writeReg r w) := by
  cases r with
  | status =>
    dsimp only [State.writeReg]
    split
    · next bitSet => exact .clearedOverrun w bitSet
    · exact .unchanged s _
  | cmd =>
    dsimp only [State.writeReg, State.writeCmd]
    split
    · next idle => exact .latchedCommand w idle
    · next p latched => exact .overran w (by simp [State.busy, latched])
  | _ => exact .wroteRegs _ w _

theorem hostWriteReg_effect {addr : Word} {width : Width} {data : Word} {s t : State}
    (h : hostWriteReg addr width data s = .next t) : EventEffect s (.hostWriteReg addr width data) t := by
  obtain ⟨off, window, rfl⟩ := hostWriteReg_cases h
  obtain ⟨rfl, rfl⟩ := windowOffset_eq_some window
  unfold State.writeOffset
  split
  · next r found =>
    cases Reg.atOffset_eq_some found
    exact writeReg_effect s r data
  · exact .unchanged s _

theorem hostTake_effect (s : State) : EventEffect s .hostTake (hostTake s) := by
  rcases hostTake_cases s with ⟨msg, there, h⟩ | ⟨-, h⟩ <;> rw [h]
  · exact .tookMessage msg there
  · exact .noted _ .noMessage s.fedUnseen s.codecAnswer

theorem cuStep_effect {s t : State} (h : cuStep s = .next t) : EventEffect s .cu t := by
  unfold cuStep at h
  split at h
  · cases h
    exact .unchanged s _
  · next p latched =>
    split at h
    · cases h
      exact .illegal p latched
    · next i decoded => exact .executed p i latched decoded (exec_effect h)

theorem feederStep_effect (accepts : Bool) (s : State) :
    EventEffect s (.feeder accepts) (feederStep accepts s) := by
  rcases feederStep_cases accepts s with h | ⟨-, -, -, ⟨d, rest, head, h⟩ | ⟨-, -, h⟩⟩ <;> rw [h]
  · exact .unchanged s _
  · exact .fed d rest accepts head
  · exact .fedEnd accepts

theorem drainerStep_effect (s : State) : EventEffect s .drainer (drainerStep s) := by
  rcases drainerStep_cases s with h | ⟨b, rest, -, -, -, h⟩ <;> rw [h]
  · exact .unchanged s _
  · obtain ⟨log, n, code, noEnd, serr, emitted⟩ := emitBuffer_effect { s with codecOut := rest } b.bytes
    rw [emitted, markOutDone_eq]
    exact .drained rest log n _ code noEnd serr

theorem releaseStep_effect (s : State) : EventEffect s .release (releaseStep s) := by
  rcases releaseStep_cases s with h | ⟨draining, -, -, -, h⟩ <;> rw [h]
  · exact .unchanged s _
  · exact .released draining

theorem codecProduceStep_effect (bytes : List Byte) (eos : Bool) (s : State) :
    EventEffect s (.codecProduce bytes eos) (codecProduceStep bytes eos s) := by
  rcases codecProduceStep_cases bytes eos s with h | ⟨-, -, -, h⟩ <;> rw [h]
  · exact .unchanged s _
  · exact .produced bytes eos

theorem runEvent_effect {e : Event} {s t : State} (h : runEvent e s = .next t) : EventEffect s e t := by
  cases e with
  | hostReadReg addr width asResult =>
    obtain ⟨off, -, -, rfl⟩ := hostReadReg_cases h
    exact .noted _ _ _ s.codecAnswer
  | hostWriteReg addr width data => exact hostWriteReg_effect h
  | hostReadMem addr len =>
    obtain ⟨-, -, rfl⟩ := hostReadMem_cases h
    exact .noted _ _ s.fedUnseen s.codecAnswer
  | hostWriteMem addr bytes =>
    obtain ⟨valid, -, -, rfl⟩ := hostWriteMem_cases h
    exact .wroteMem addr bytes valid
  | hostTake => cases h; exact hostTake_effect s
  | cu => exact cuStep_effect h
  | feeder accepts => cases h; exact feederStep_effect accepts s
  | drainer => cases h; exact drainerStep_effect s
  | release => cases h; exact releaseStep_effect s
  | codecProduce bytes eos => cases h; exact codecProduceStep_effect bytes eos s
  | codecAnswer ok => cases h; exact .noted _ s.reply s.fedUnseen (some ok)
  | reset => cases h; exact .reset

/-! ### Which event a step runs (R20, R21) -/

/-- Settles O4: `nextEvent` and `started` by the two cases of the agenda. -/
theorem stepRunsNextEvent : Obligations.StepRunsNextEvent := by
  constructor
  · intro s e rest agenda
    rw [step, State.nextEvent, State.started, agenda]
  · intro s agenda
    rw [step, State.nextEvent, State.started, agenda]

/-- A step is the effect of the next event on a state that differs only in the schedule's own fields (log 1). -/
theorem step_effect {s t : State} (h : step s = .next t) :
    ∃ agenda draws, EventEffect { s with agenda := agenda, draws := draws } s.nextEvent t := by
  have effect : EventEffect s.started s.nextEvent t := runEvent_effect h
  unfold State.started at effect
  split at effect
  · exact ⟨_, s.draws, effect⟩
  · exact ⟨s.agenda, _, effect⟩

/-! ### What a command leaves, field by field -/

theorem CommandEffect.platform {i : Instr} {s t : State} (h : CommandEffect s i t) : t.platform = s.platform := by
  cases h <;> rfl

theorem CommandEffect.regs {i : Instr} {s t : State} (h : CommandEffect s i t) : t.regs = s.regs := by
  cases h <;> rfl

theorem CommandEffect.ovr {i : Instr} {s t : State} (h : CommandEffect s i t) : t.ovr = s.ovr := by
  cases h <;> rfl

theorem CommandEffect.taken {i : Instr} {s t : State} (h : CommandEffect s i t) : t.taken = s.taken := by
  cases h <;> rfl

theorem CommandEffect.pending {i : Instr} {s t : State} (h : CommandEffect s i t) : t.pending = none := by
  cases h <;> rfl

/-- Memory changes only where a command delivers an output. -/
theorem CommandEffect.mem {i : Instr} {s t : State} (h : CommandEffect s i t) :
    t.mem = s.mem ∨ ∃ out, dataPlan i s.platform s.mem s.op = some out ∧ t.errCode = .ok ∧
      t.mem = s.mem.writeBytes out.region.addr out.bytes := by
  cases h with
  | delivered i out plan => exact .inr ⟨out, plan, rfl, rfl⟩
  | _ => exact .inl rfl

theorem CommandEffect.queue {i : Instr} {s t : State} (h : CommandEffect s i t) :
    t.queue = s.queue ∨ (i = .ssubmit ∧ t.queue = s.queue ++ [⟨s.op.srcAddr, s.op.srcLen⟩]) ∨
      ((i = .sstart ∨ i = .sprepare) ∧ t.queue = []) := by
  cases h with
  | submitted => exact .inr (.inl ⟨rfl, rfl⟩)
  | started => exact .inr (.inr ⟨.inl rfl, rfl⟩)
  | autostarted => exact .inr (.inr ⟨.inr rfl, rfl⟩)
  | _ => exact .inl rfl

theorem CommandEffect.serr {i : Instr} {s t : State} (h : CommandEffect s i t) :
    t.serr = s.serr ∨ (i = .sprepare ∧ t.serr = .configFail ∧ t.errCode = .configFail) := by
  cases h with
  | configInvalid | configRefused => exact .inr ⟨rfl, rfl, rfl⟩
  | _ => exact .inl rfl

/-- A command emits no END. -/
theorem CommandEffect.outLog {i : Instr} {s t : State} (h : CommandEffect s i t) :
    ∃ log, t.outLog = s.outLog ++ log ∧ Message.sessionEnd ∉ log := by
  cases h with
  | configInvalid | configRefused => exact ⟨[.error .configFail], rfl, by simp⟩
  | _ => exact ⟨[], (List.append_nil _).symm, by simp⟩

/-- No command releases a session. -/
theorem CommandEffect.released {i : Instr} {s t : State} (h : CommandEffect s i t)
    (released : t.sess.state = .released) : s.sess.state = .released := by
  cases h with
  | prepared | autostarted | started | stopped => cases released
  | _ => exact released

end Sys2Proof.Machine
end

section
/-! PROOFS. Whole-machine rules: what a step keeps of bus memory, the job queue and the output port, and who writes the
status and result registers (spec/10_state.md), each a case split over the effects. -/

namespace Sys2Proof.Machine

/-! ### Bus memory (R46, R47) -/

theorem EventEffect.platform {e : Event} {s t : State} (h : EventEffect s e t) : t.platform = s.platform := by
  cases h with
  | executed p i latched decoded effect => exact effect.platform
  | _ => rfl

/-- Memory changes only by a host's memory write and by a data command that delivers an output. -/
theorem EventEffect.mem {e : Event} {s t : State} (h : EventEffect s e t) :
    t.mem = s.mem ∨
      (∃ addr bytes, e = .hostWriteMem addr bytes ∧ Region.valid ⟨addr.toNat, bytes.length⟩ s.platform = true ∧
        t.mem = s.mem.writeBytes addr.toNat bytes) ∨
      (e = .cu ∧ t.errCode = .ok ∧ ∃ p i out, s.pending = some p ∧ decode p.word = .ok i ∧
        dataPlan i s.platform s.mem p.op = some out ∧ t.mem = s.mem.writeBytes out.region.addr out.bytes) := by
  cases h with
  | wroteMem addr bytes valid => exact .inr (.inl ⟨addr, bytes, rfl, valid, rfl⟩)
  | executed p i latched decoded effect =>
    rcases effect.mem with same | ⟨out, plan, ok, written⟩
    · exact .inl same
    · rw [op_of_pending latched] at plan
      exact .inr (.inr ⟨rfl, ok, p, i, out, latched, decoded, plan, written⟩)
  | _ => exact .inl rfl

/-- Writing a region inside MEM_BYTES keeps memory canonical and inside MEM_BYTES. -/
theorem State.MemInv.writeBytes {s t : State} (inv : s.MemInv) {a : Nat} {bytes : List Byte}
    (valid : Region.valid ⟨a, bytes.length⟩ s.platform = true) (platform : t.platform = s.platform)
    (written : t.mem = s.mem.writeBytes a bytes) : t.MemInv := by
  obtain ⟨wf, inside⟩ := inv
  refine ⟨written ▸ wf.writeBytes a bytes, fun c hc => ?_⟩
  rw [platform]
  rw [written] at hc
  rcases Memory.mem_writeBytes hc with ⟨-, below⟩ | listed
  · have fits : a + bytes.length ≤ s.platform.memBytes := of_decide_eq_true valid
    exact Nat.lt_of_lt_of_le below fits
  · exact inside c listed

/-- An event leaves memory as it is or writes one region inside MEM_BYTES. -/
theorem EventEffect.mem_region {e : Event} {s t : State} (h : EventEffect s e t) :
    t.mem = s.mem ∨ ∃ a bytes, Region.valid ⟨a, bytes.length⟩ s.platform = true ∧
      t.mem = s.mem.writeBytes a bytes := by
  rcases h.mem with same | ⟨addr, bytes, -, valid, written⟩ | ⟨-, -, p, i, out, -, -, plan, written⟩
  · exact .inl same
  · exact .inr ⟨addr.toNat, bytes, valid, written⟩
  · have fits := dataPlan_fits plan
    exact .inr ⟨out.region.addr, out.bytes, by rw [fits.filled]; exact fits.valid, written⟩

/-- Settles O57: every step leaves memory as it is or writes bytes of one region inside MEM_BYTES, which keeps the
canonical form. -/
theorem stepKeepsMemoryForm : Obligations.StepKeepsMemoryForm := by
  intro s t inv h
  obtain ⟨agenda, draws, effect⟩ := step_effect h
  rcases effect.mem_region with same | ⟨a, bytes, valid, written⟩
  · refine ⟨?_, by rw [same]⟩
    unfold State.MemInv
    rw [same, effect.platform]
    exact inv
  · refine ⟨inv.writeBytes valid effect.platform written, ?_⟩
    rw [written]
    exact Memory.powerOn_writeBytes _ a bytes

/-- Settles O52, from the effect of the next event on memory. -/
theorem onlyDataCommandsAndHostsWriteMemory : Obligations.OnlyDataCommandsAndHostsWriteMemory := by
  intro s t h changed
  obtain ⟨agenda, draws, effect⟩ := step_effect h
  rcases effect.mem with same | ⟨addr, bytes, event, -, -⟩ | ⟨event, ok, p, i, out, latched, decoded, plan, -⟩
  · exact absurd same changed
  · exact .inl ⟨addr, bytes, event⟩
  · exact .inr ⟨event, ok, p, i, out, latched, decoded, plan⟩

/-! ### The job queue (R32) -/

/-- Settles O53: of all effects only those of SSUBMIT, the feeder, a session start and reset change the queue. -/
theorem queueIsFifo : Obligations.QueueIsFifo := by
  intro s t h
  obtain ⟨agenda, draws, effect⟩ := step_effect h
  generalize s.nextEvent = e at effect
  cases effect with
  | executed p i latched decoded effect =>
    rcases effect.queue with same | ⟨rfl, appended⟩ | ⟨start, emptied⟩
    · exact .inl same
    · rw [op_of_pending latched] at appended
      exact .inr (.inl ⟨p, _, rfl, latched, decoded, appended, rfl⟩)
    · exact .inr (.inr (.inr ⟨emptied, .inr ⟨p, i, rfl, latched, decoded, start⟩⟩))
  | fed d rest accepts head => exact .inr (.inr (.inl ⟨d, accepts, rfl, head⟩))
  | reset => exact .inr (.inr (.inr ⟨rfl, .inl rfl⟩))
  | _ => exact .inl rfl

/-! ### The output port (R44) -/

/-- The session goes from Draining to Released. -/
abbrev Releases (s t : State) : Prop := s.sess.state = .draining ∧ t.sess.state = .released

theorem not_releases_of_keeps {s t : State} (keeps : t.sess.state = .released → s.sess.state = .released) :
    ¬ Releases s t := by
  rintro ⟨draining, released⟩
  have := keeps released
  simp [draining] at this

/-- Every event but reset appends to the output port, and appends one END exactly where it releases the session. -/
theorem EventEffect.outLog {e : Event} {s t : State} (h : EventEffect s e t) (notReset : e ≠ .reset) :
    ∃ log, t.outLog = s.outLog ++ log ∧ log.count .sessionEnd = if Releases s t then 1 else 0 := by
  have quiet {log : List Message} (noEnd : Message.sessionEnd ∉ log)
      (keeps : t.sess.state = .released → s.sess.state = .released) :
      log.count .sessionEnd = if Releases s t then 1 else 0 := by
    rw [if_neg (not_releases_of_keeps keeps), List.count_eq_zero_of_not_mem noEnd]
  cases h with
  | executed p i latched decoded effect =>
    obtain ⟨log, appended, noEnd⟩ := effect.outLog
    exact ⟨log, appended, quiet noEnd effect.released⟩
  | drained rest log n done code noEnd => exact ⟨log, rfl, quiet noEnd id⟩
  | released draining => exact ⟨[.sessionEnd], rfl, (if_pos ⟨draining, rfl⟩).symm⟩
  | reset => exact absurd rfl notReset
  | _ => exact ⟨[], (List.append_nil _).symm, quiet (by simp) id⟩

theorem EventEffect.taken {e : Event} {s t : State} (h : EventEffect s e t) (notReset : e ≠ .reset) :
    t.taken = s.taken ∨ (e = .hostTake ∧ t.taken = s.taken + 1 ∧ s.taken < s.outLog.length) := by
  cases h with
  | tookMessage msg there => exact .inr ⟨rfl, rfl, (List.getElem?_eq_some_iff.mp there).1⟩
  | executed p i latched decoded effect => exact .inl effect.taken
  | reset => exact absurd rfl notReset
  | _ => exact .inl rfl

/-- The port grows and the cursor moves only over a message that is there. -/
theorem EventEffect.takenInv {e : Event} {s t : State} (h : EventEffect s e t) (notReset : e ≠ .reset)
    (inv : s.TakenInv) : t.TakenInv := by
  obtain ⟨log, appended, -⟩ := h.outLog notReset
  have grows : s.outLog.length ≤ t.outLog.length := by simp [appended]
  unfold State.TakenInv at inv ⊢
  rcases h.taken notReset with same | ⟨-, moved, there⟩ <;> omega

theorem hostTake_of_some {s : State} {msg : Message} (there : s.outLog[s.taken]? = some msg) :
    hostTake s = { s with taken := s.taken + 1, reply := .message msg } := by
  rw [hostTake, there]

theorem hostTake_of_none {s : State} (passed : s.outLog[s.taken]? = none) :
    hostTake s = { s with reply := .noMessage } := by
  rw [hostTake, passed]

theorem step_hostTake {s : State} (event : s.nextEvent = .hostTake) : step s = .next (hostTake s.started) := by
  rw [step, event]
  rfl

/-- Settles O54: the log only grows, by one END exactly at the release, and only a take moves the cursor. -/
theorem outputPortAppendsAndEndsOnce : Obligations.OutputPortAppendsAndEndsOnce := by
  intro s t h notReset
  obtain ⟨agenda, draws, effect⟩ := step_effect h
  obtain ⟨log, appended, ends⟩ := effect.outLog notReset
  have count : t.outLog.count .sessionEnd = s.outLog.count .sessionEnd + log.count .sessionEnd := by
    rw [appended, List.count_append]
  obtain ⟨same, -, -, taken, -⟩ := started_frame s
  refine ⟨⟨log, appended.symm⟩, effect.takenInv notReset, fun releases => ?_, fun stays => ?_,
    fun event => ?_, fun notTake => ?_⟩
  · rw [count, ends, if_pos releases]
  · rw [count, ends, if_neg stays, Nat.add_zero]
  · cases (step_hostTake event).symm.trans h
    rw [← same.outLog, ← taken]
    exact ⟨fun msg => hostTake_of_some, hostTake_of_none⟩
  · rcases effect.taken notReset with kept | ⟨event, -⟩
    · exact kept
    · exact absurd event notTake

/-! ### Who writes the registers -/

theorem EventEffect.ovr {e : Event} {s t : State} (h : EventEffect s e t) (notReset : e ≠ .reset)
    (changed : t.ovr ≠ s.ovr) :
    (t.ovr = true ∧ s.busy = true ∧ ∃ w, e = wr s.platform .cmd w) ∨
      (t.ovr = false ∧ ∃ w, e = wr s.platform .status w ∧ w.getLsbD 2 = true) := by
  cases h with
  | overran w busy => exact .inl ⟨rfl, busy, w, rfl⟩
  | clearedOverrun w bitSet => exact .inr ⟨rfl, w, rfl, bitSet⟩
  | executed p i latched decoded effect => exact absurd effect.ovr changed
  | reset => exact absurd rfl notReset
  | _ => exact absurd rfl changed

theorem EventEffect.results {e : Event} {s t : State} (h : EventEffect s e t) (notReset : e ≠ .reset)
    (changed : t.errCode ≠ s.errCode ∨ t.result0 ≠ s.result0 ∨ t.result1 ≠ s.result1) :
    e = .cu ∧ s.busy = true ∧ t.busy = false := by
  cases h with
  | illegal p latched => exact ⟨rfl, by simp [State.busy, latched], rfl⟩
  | executed p i latched decoded effect =>
    exact ⟨rfl, by simp [State.busy, latched], by simp [State.busy, effect.pending]⟩
  | reset => exact absurd rfl notReset
  | _ => exact absurd changed (by simp)

theorem EventEffect.serr {e : Event} {s t : State} (h : EventEffect s e t) (notReset : e ≠ .reset)
    (changed : t.serr ≠ s.serr) :
    (e = .cu ∧ t.serr = .configFail ∧ t.errCode = .configFail ∧
        ∃ p, s.pending = some p ∧ decode p.word = .ok .sprepare) ∨
      (e = .drainer ∧ t.serr = .frameTooLong) := by
  cases h with
  | executed p i latched decoded effect =>
    rcases effect.serr with same | ⟨rfl, serr, errCode⟩
    · exact absurd same changed
    · exact .inl ⟨rfl, serr, errCode, p, latched, decoded⟩
  | drained rest log n done code noEnd serr => exact .inr ⟨rfl, serr.resolve_left changed⟩
  | reset => exact absurd rfl notReset
  | _ => exact absurd rfl changed

theorem EventEffect.regs {e : Event} {s t : State} (h : EventEffect s e t) (notReset : e ≠ .reset)
    (changed : t.regs ≠ s.regs) : ∃ r w, e = wr s.platform r w := by
  cases h with
  | wroteRegs r w => exact ⟨r, w, rfl⟩
  | executed p i latched decoded effect => exact absurd effect.regs changed
  | reset => exact absurd rfl notReset
  | _ => exact absurd rfl changed

theorem EventEffect.pending {e : Event} {s t : State} (h : EventEffect s e t) (notReset : e ≠ .reset)
    (changed : t.pending ≠ s.pending) :
    (e = .cu ∧ t.pending = none) ∨
      (s.pending = none ∧ ∃ w, e = wr s.platform .cmd w ∧ t.pending = some ⟨w, s.regs⟩) := by
  cases h with
  | latchedCommand w idle => exact .inr ⟨idle, w, rfl, rfl⟩
  | illegal => exact .inl ⟨rfl, rfl⟩
  | executed p i latched decoded effect => exact .inl ⟨rfl, effect.pending⟩
  | reset => exact absurd rfl notReset
  | _ => exact absurd rfl changed

/-- Settles O60, register by register from the effect of the next event. -/
theorem statusRegistersWrittenOnlyByTheirWriters : Obligations.StatusRegistersWrittenOnlyByTheirWriters := by
  intro s t h notReset
  obtain ⟨agenda, draws, effect⟩ := step_effect h
  exact ⟨effect.ovr notReset, effect.results notReset, effect.serr notReset, effect.regs notReset,
    effect.pending notReset⟩

end Sys2Proof.Machine
end

section
/-! PROOFS. Commands and their operands: a latched command reads its snapshot alone, and what the commands leave that
store nothing (spec/10_state.md R22, R31, R47). -/

namespace Sys2Proof.Machine

/-! ### Other live operand registers -/

theorem deliver_withRegs (s : State) (r : OperandRegs) (x : Except ErrCode Output) :
    State.deliver { s with regs := r } x = withRegs r (s.deliver x) := by
  cases x <;> rfl

theorem answer_withRegs (s : State) (r : OperandRegs) (x : Except ErrCode (Word × Word)) :
    State.answer { s with regs := r } x = withRegs r (s.answer x) := by
  cases x <;> rfl

theorem prepare_withRegs (s : State) (r o : OperandRegs) :
    State.prepare { s with regs := r } o = { s.prepare o with regs := r } := by
  have answer (req : ConfigRequest) : State.configureAnswer { s with regs := r } req = s.configureAnswer req := rfl
  unfold State.prepare
  rw [answer]
  split
  · rfl
  · split
    · rfl
    · split
      · split <;> rfl
      · rfl

theorem submit_withRegs (s : State) (r : OperandRegs) (c : Chunk) :
    State.submit { s with regs := r } c = { s.submit c with regs := r } := by
  dsimp only [State.submit]
  iterate 3 (split; · rfl)
  rfl

/-- Settles O7: every command is a function of the snapshot, and what it ends with leaves the live registers alone. -/
theorem latchedCommandIgnoresLiveRegisters : Obligations.LatchedCommandIgnoresLiveRegisters := by
  intro i s p r latched
  have op : State.op { s with regs := r } = s.op := by simp only [State.op, latched]
  cases i with
  | adtsparse => simp only [exec, execAdtsparse, op, answer_withRegs]
  | sfilookup => simp only [exec, execSfilookup, op, answer_withRegs]
  | sprepare =>
    simp only [exec, execSprepare, op, prepare_withRegs]
    split <;> rfl
  | sstart =>
    simp only [exec, execSstart]
    split <;> rfl
  | ssubmit =>
    simp only [exec, execSsubmit, op, submit_withRegs]
    split <;> rfl
  | sstop =>
    simp only [exec, execSstop]
    split <;> rfl
  | _ =>
    simp only [exec, execResample, execExtl, execExtr, execRed2, execM2s, execMixext, execMixadd, execMixavg,
      execMixwgt, execAdtsenc, op, deliver_withRegs]

/-! ### The commands that store nothing -/

/-- The commands of the session unit (spec/44_session_queue.md section 1). -/
abbrev IsSessionCommand (i : Instr) : Prop := i = .sprepare ∨ i = .sstart ∨ i = .ssubmit ∨ i = .sstop

theorem prepare_result1 (s : State) (o : OperandRegs) : (s.prepare o).result1 = 0 := by
  rcases prepare_cases s o with h | h | ⟨c, -, -, -, h | h⟩ <;> rw [h] <;> rfl

theorem submit_result1 (s : State) (c : Chunk) : (s.submit c).result1 = 0 := by
  rcases submit_cases s c with ⟨code, h⟩ | ⟨-, -, -, h⟩ <;> rw [h] <;> rfl

/-- A session command answers in RESULT0 alone. -/
theorem exec_session_result1 {i : Instr} {s t : State} (session : IsSessionCommand i) (h : exec i s = .next t) :
    t.result1 = 0 := by
  rcases session with rfl | rfl | rfl | rfl
  · simp only [exec, execSprepare] at h
    split at h <;> cases h
    iterate 2 · exact prepare_result1 s s.op
    all_goals rfl
  · simp only [exec, execSstart] at h
    split at h <;> cases h <;> rfl
  · simp only [exec, execSsubmit] at h
    split at h <;> cases h
    · rfl
    · exact submit_result1 s _
    all_goals rfl
  · simp only [exec, execSstop] at h
    split at h <;> cases h <;> rfl

/-- What a session command may change beside the code and the two results. -/
theorem CommandEffect.session_frame {i : Instr} {s t : State} (session : IsSessionCommand i) (h : CommandEffect s i t) :
    t = { s with errCode := t.errCode, result0 := t.result0, result1 := t.result1, pending := none, serr := t.serr,
                 sess := t.sess, queue := t.queue, codecIn := t.codecIn, codecOut := t.codecOut, outLog := t.outLog,
                 codecCalls := t.codecCalls, codecAnswer := t.codecAnswer, draws := t.draws } := by
  cases h with
  | delivered i out plan => rcases session with rfl | rfl | rfl | rfl <;> cases plan
  | _ => rfl

/-- ADTSPARSE and SFILOOKUP only answer. -/
theorem CommandEffect.answer_frame {i : Instr} {s t : State} (answers : i = .adtsparse ∨ i = .sfilookup)
    (h : CommandEffect s i t) :
    t = { s with errCode := t.errCode, result0 := t.result0, result1 := t.result1, pending := none } := by
  rcases answers with rfl | rfl <;> cases h with
  | delivered i out plan => cases plan
  | _ => rfl

/-- Settles O51, from the effect of a command and that the session commands leave 0 in RESULT1. -/
theorem nonStoringCommandFrame : Obligations.NonStoringCommandFrame := by
  intro i s t h
  refine ⟨fun answers => (exec_effect h).answer_frame answers, fun session => ?_⟩
  have frame := (exec_effect h).session_frame session
  have mem : t.mem = s.mem := by rw [frame]
  rw [exec_session_result1 session h] at frame
  exact ⟨fun a => by rw [mem], frame⟩

end Sys2Proof.Machine
end

section
/-! PROOFS. The accesses of a host: bus memory and the registers of the window (spec/10_state.md). -/

namespace Sys2Proof.Machine

/-! ### Bus memory (R46) -/

theorem any_overlaps_eq_false {rs : List Region} {a : Region} :
    rs.any a.overlaps = false ↔ ∀ r ∈ rs, a.overlaps r = false := by
  simp

theorem hostWriteMem_of_free {s : State} {addr : Word} {bytes : List Byte}
    (valid : Region.valid ⟨addr.toNat, bytes.length⟩ s.platform = true)
    (free : ∀ r ∈ s.pendingReads ++ s.pendingDest ++ s.lentRegions,
      Region.overlaps ⟨addr.toNat, bytes.length⟩ r = false) :
    hostWriteMem addr bytes s = .next { s with mem := s.mem.writeBytes addr.toNat bytes } := by
  obtain ⟨pending, lent⟩ := List.forall_mem_append.mp free
  simp only [hostWriteMem, valid, any_overlaps_eq_false.mpr pending, any_overlaps_eq_false.mpr lent, Bool.not_true,
    Bool.false_eq_true, if_false]

theorem hostReadMem_of_free {s : State} {addr len : Word}
    (valid : Region.valid ⟨addr.toNat, len.toNat⟩ s.platform = true)
    (free : ∀ r ∈ s.pendingDest, Region.overlaps ⟨addr.toNat, len.toNat⟩ r = false) :
    hostReadMem addr len s = .next { s with reply := .bytes (s.mem.readBytes addr.toNat len.toNat) } := by
  simp only [hostReadMem, valid, any_overlaps_eq_false.mpr free, Bool.not_true, Bool.false_eq_true, if_false]

theorem pendingRegions_of_idle {s : State} (idle : s.pending = none)
    (f : Instr → Platform → Memory → OperandRegs → List Region) : s.pendingRegions f = [] := by
  rw [State.pendingRegions, idle]

/-- Settles O17: past the checks the access is `writeBytes` or `readBytes`, whose laws say which byte lies where. -/
theorem hostMemoryAccess : Obligations.HostMemoryAccess := by
  intro s addr bytes access valid
  refine ⟨fun free => ⟨_, hostWriteMem_of_free valid free, rfl, fun k hk => ?_, fun a outside => ?_⟩,
    fun len hlen free => ?_, fun idle noQueue noFed => ?_⟩
  · have stored : bytes[k]? = some bytes[k] := List.getElem?_eq_getElem hk
    rw [stored, Memory.read_writeBytes_inside s.mem addr.toNat stored]
  · exact Memory.read_writeBytes_outside _ (of_decide_eq_false outside)
  · refine ⟨s.mem.readBytes addr.toNat len.toNat, ?_, by rw [Memory.length_readBytes, hlen], fun k hk => ?_⟩
    · simp only [access, ← hlen] at valid free
      exact hostReadMem_of_free valid free
    · exact Memory.getElem?_readBytes s.mem _ _ k (hlen ▸ hk)
  · simp [State.pendingReads, State.pendingDest, pendingRegions_of_idle idle, State.lentRegions, noQueue, noFed]

/-! ### Registers as a host reads and writes them (R22 to R30) -/

@[simp] theorem readOffset_offset (s : State) (r : Reg) : s.readOffset r.offset = s.readReg r := by
  simp [State.readOffset]

@[simp] theorem writeOffset_offset (s : State) (r : Reg) (w : Word) : s.writeOffset r.offset w = s.writeReg r w := by
  simp [State.writeOffset]

/-- The offsets of the map that no register has (spec/10_state.md R28). -/
theorem atOffset_reserved {off : Nat} (reserved : (0x30 ≤ off ∧ off ≤ 0x3C) ∨ (0x70 ≤ off ∧ off ≤ 0xFC)) :
    Reg.atOffset off = none := by
  cases found : Reg.atOffset off with
  | none => rfl
  | some r =>
    have := Reg.atOffset_eq_some found
    cases r <;> simp only [Reg.offset] at this <;> omega

/-- A write of a register other than CMD and STATUS shows in no other register. -/
theorem readReg_writeReg_other (s : State) (w : Word) {r q : Reg} (notStatus : r ≠ .status) (notCmd : r ≠ .cmd)
    (other : q ≠ r) : (s.writeReg r w).readReg q = s.readReg q := by
  have status (o : OperandRegs) : State.statusWord { s with regs := o } = s.statusWord := rfl
  cases r with
  | status => exact absurd rfl notStatus
  | cmd => exact absurd rfl notCmd
  | errcode | result0 | result1 | sstatus | serr | qcount | fedCount | ptsLo | ptsHi | emitCount => rfl
  | _ => cases q <;> simp_all [State.writeReg, State.readReg]

/-- A register of `n` writable low bits reads back a written word through them. -/
theorem setWidth_extractLsb'_eq_and (w : Word) {n : Nat} (hn : n ≤ 32) :
    (w.extractLsb' 0 n).setWidth 32 = w &&& BitVec.ofNat 32 (2 ^ n - 1) := by
  have mask : 2 ^ n ≤ 2 ^ 32 := Nat.pow_le_pow_right (by decide) hn
  have low : w.toNat % 2 ^ n < 2 ^ n := Nat.mod_lt _ (by positivity)
  apply BitVec.eq_of_toNat_eq
  rw [BitVec.toNat_setWidth, BitVec.extractLsb'_toNat, BitVec.toNat_and, BitVec.toNat_ofNat, Nat.shiftRight_zero,
    Nat.mod_eq_of_lt (a := 2 ^ n - 1) (by omega), Nat.and_two_pow_sub_one_eq_mod,
    Nat.mod_eq_of_lt (Nat.lt_of_lt_of_le low mask)]

/-- Settles O11, from the register found at each offset and what a write of it does. -/
theorem registersReadBackOrIgnoreWrites : Obligations.RegistersReadBackOrIgnoreWrites := by
  intro s w
  refine ⟨fun r hr => ?_, setWidth_extractLsb'_eq_and w (n := 1) (by decide),
    setWidth_extractLsb'_eq_and w (n := 4) (by decide), fun r hr => ?_, ?_, fun off reserved => ?_, ?_, ?_⟩
  · rw [writeOffset_offset, readOffset_offset]
    have plain : r ≠ .status ∧ r ≠ .cmd := by revert r; decide
    refine ⟨?_, fun q => readReg_writeReg_other s w plain.1 plain.2⟩
    revert r
    simp [State.writeReg, State.readReg]
  · rw [writeOffset_offset]
    have plain : r ≠ .status ∧ r ≠ .cmd := by revert r; decide
    exact fun q => readReg_writeReg_other s w plain.1 plain.2
  · simp only [writeOffset_offset]
    exact ⟨rfl, rfl, rfl, rfl, rfl, rfl, rfl, rfl, rfl, rfl, rfl, rfl⟩
  · rw [State.readOffset, State.writeOffset, atOffset_reserved reserved]
    exact ⟨rfl, rfl⟩
  · simp [State.writeReg]
  · exact readOffset_offset s .cmd

/-! ### STATUS and the codes (R27, R29) -/

/-- The three bits of STATUS, from BUSY up, and the rest 0. -/
theorem statusWord_bits (s : State) :
    s.statusWord.getLsbD 0 = s.busy ∧ s.statusWord.getLsbD 1 = s.err ∧ s.statusWord.getLsbD 2 = s.ovr ∧
      s.statusWord.toNat < 8 := by
  unfold State.statusWord
  generalize s.busy = busy
  generalize s.err = err
  generalize s.ovr = ovr
  revert busy err ovr
  decide

theorem value_ne_zero_iff (c : ErrCode) : c.value ≠ 0 ↔ (codeWord c).toNat % 256 ≠ 0 := by
  cases c <;> decide

/-- Settles O12, from the bits of STATUS and the table of codes. -/
theorem statusBitsAndOverrunClear : Obligations.StatusBitsAndOverrunClear := by
  intro s w
  obtain ⟨busy, err, ovr, rest⟩ := statusWord_bits s
  refine ⟨busy, err.trans (decide_eq_decide.mpr (value_ne_zero_iff s.errCode)), ovr, rest, fun bitSet => ?_,
    fun bitClear => ?_, fun q hq => ?_, fun code r0 r1 => ⟨rfl, rfl⟩, rfl, rfl⟩
  · exact if_pos bitSet
  · exact if_neg (Bool.eq_false_iff.mp bitClear)
  · have code : (codeWord q.1).toNat = q.2 := by revert q; decide
    have reads {c : ErrCode} (h : c = q.1) : (codeWord c).toNat = q.2 := by rw [h, code]
    exact ⟨reads, reads⟩

/-! ### The views of the session (R30) -/

/-- The fields of SSTATUS of more than one bit, and the zeros above them. -/
theorem sstatus_fields (x : Session) :
    x.statusWord.extractLsb' 0 3 = x.state.value ∧ x.statusWord.extractLsb' 8 4 = x.sfi ∧
      x.statusWord.extractLsb' 12 3 = x.chcfg ∧ x.statusWord.extractLsb' 16 2 = x.profile ∧
      x.statusWord.extractLsb' 18 14 = 0 := by
  have zeros : x.statusWord.extractLsb' 18 14 = 0 := by
    ext i hi
    simp [Session.statusWord]
  refine ⟨?_, ?_, ?_, ?_, zeros⟩ <;>
    simp (disch := omega) only [Session.statusWord, BitVec.extractLsb'_setWidth_of_le,
      BitVec.extractLsb'_append_eq_of_le, BitVec.extractLsb'_append_eq_of_add_le] <;>
    exact BitVec.extractLsb'_eq_self

/-- The one-bit fields of SSTATUS. -/
theorem sstatus_bits (x : Session) :
    x.statusWord.getLsbD 3 = x.stopReq ∧ x.statusWord.getLsbD 4 = x.inDone ∧ x.statusWord.getLsbD 5 = x.outDone ∧
      x.statusWord.getLsbD 6 = decide (x.dir = .decode) ∧ x.statusWord.getLsbD 7 = x.sfiFallback ∧
      x.statusWord.getLsbD 15 = false := by
  simp only [Session.statusWord, BitVec.getLsbD_setWidth, BitVec.getLsbD_append, bit]
  cases x.dir <;> simp [dirBit]

/-- Settles O13, field by field. -/
theorem sessionRegistersAreViews : Obligations.SessionRegistersAreViews := by
  intro s
  obtain ⟨state, sfi, chcfg, profile, zeros⟩ := sstatus_fields s.sess
  obtain ⟨stopReq, inDone, outDone, dir, sfiFallback, bit15⟩ := sstatus_bits s.sess
  refine ⟨fun q hq => ?_, stopReq, inDone, outDone, dir, sfiFallback, sfi, chcfg, bit15, profile, zeros,
    BitVec.toNat_ofNat .., BitVec.toNat_ofNat .., BitVec.toNat_ofNat .., ?_⟩
  · have value : q.1.value.toNat = q.2 := by revert q; decide
    exact fun h => (congrArg BitVec.toNat state).trans (by rw [h, value])
  · exact (BitVec.extractLsb'_append_extractLsb'_eq_extractLsb' (start₁ := 0) (len₁ := 32) rfl).trans
      BitVec.extractLsb'_eq_self

end Sys2Proof.Machine
end

section
/-! PROOFS. The frame of the data commands: what is left of a command that delivers an output, and of one that raises an
error (spec/20_memory.md R55, spec/10_state.md R47, spec/60_exceptions.md R188). -/

namespace Sys2Proof.Machine

/-! ### A data command delivers its finished draft -/

/-- The commands that store an output (spec/40_resampler.md to spec/43_adts.md). -/
abbrev IsDataCommand (i : Instr) : Prop :=
  i = .resample ∨ (∃ bd, i = .extl bd ∨ i = .extr bd ∨ i = .red2 bd ∨ i = .m2s bd) ∨ i = .mixext ∨ i = .mixadd ∨
    i = .mixavg ∨ i = .mixwgt ∨ ∃ prof sfi cc, i = .adtsenc prof sfi cc

theorem IsDataCommand.exists_draft {i : Instr} (data : IsDataCommand i) (p : Platform) (m : Memory)
    (o : OperandRegs) : ∃ x, dataDraft i p m o = some x := by
  rcases data with rfl | ⟨bd, rfl | rfl | rfl | rfl⟩ | rfl | rfl | rfl | rfl | ⟨prof, sfi, cc, rfl⟩ <;>
    exact ⟨_, rfl⟩

theorem exec_of_dataDraft {i : Instr} {s : State} {x : Except ErrCode Draft}
    (draft : dataDraft i s.platform s.mem s.op = some x) : exec i s = s.deliver (finish s.platform s.op x) := by
  cases i <;> cases draft <;> rfl

theorem dataPlan_of_dataDraft {i : Instr} {p : Platform} {m : Memory} {o : OperandRegs} {x : Except ErrCode Draft}
    (draft : dataDraft i p m o = some x) : dataPlan i p m o = (finish p o x).toOption := by
  rw [dataPlan, draft]

/-! ### No check raises OK (R186)

A draft is a ladder of checks that ends in the draft itself: `ite_eq_iff` asks of each rung whether its code is OK. -/

theorem resampleDraft_ne_error_ok (p : Platform) (m : Memory) (o : OperandRegs) :
    resampleDraft p m o ≠ .error .ok := by
  simp [resampleDraft, ite_eq_iff]

theorem channelPick_ne_error_ok (m : Memory) (o : OperandRegs) (fs off n : Nat) :
    channelPick m o fs off n ≠ .error .ok := by
  simp [channelPick, channelDraft, ite_eq_iff]

theorem channelCopy_ne_error_ok (m : Memory) (o : OperandRegs) : channelCopy m o ≠ .error .ok := by
  simp [channelCopy, channelDraft]

theorem extractDraft_ne_error_ok (bps off : Nat) (p : Platform) (m : Memory) (o : OperandRegs) :
    extractDraft bps off p m o ≠ .error .ok := by
  simp [extractDraft, ite_eq_iff, channelCopy_ne_error_ok, channelPick_ne_error_ok]

theorem red2Draft_ne_error_ok (bd : BitVec 1) (p : Platform) (m : Memory) (o : OperandRegs) :
    red2Draft bd p m o ≠ .error .ok := by
  simp [red2Draft, ite_eq_iff, channelCopy_ne_error_ok, channelPick_ne_error_ok]

theorem m2sDraft_ne_error_ok (bd : BitVec 1) (p : Platform) (m : Memory) (o : OperandRegs) :
    m2sDraft bd p m o ≠ .error .ok := by
  simp [m2sDraft, channelDraft, ite_eq_iff]

theorem mixDraft_ne_error_ok (f : Strategy) (p : Platform) (m : Memory) (o : OperandRegs) :
    mixDraft f p m o ≠ .error .ok := by
  simp [mixDraft, ite_eq_iff]

theorem adtsencDraft_ne_error_ok (prof : BitVec 2) (sfi : BitVec 4) (cc : BitVec 3) (o : OperandRegs) :
    adtsencDraft prof sfi cc o ≠ .error .ok := by
  simp [adtsencDraft, ite_eq_iff]

theorem dataDraft_ne_error_ok {i : Instr} {p : Platform} {m : Memory} {o : OperandRegs} :
    dataDraft i p m o ≠ some (.error .ok) := by
  intro h
  cases i with
  | resample => exact resampleDraft_ne_error_ok _ _ _ (Option.some.inj h)
  | extl bd | extr bd => exact extractDraft_ne_error_ok _ _ _ _ _ (Option.some.inj h)
  | red2 bd => exact red2Draft_ne_error_ok _ _ _ _ (Option.some.inj h)
  | m2s bd => exact m2sDraft_ne_error_ok _ _ _ _ (Option.some.inj h)
  | mixext | mixadd | mixavg | mixwgt => exact mixDraft_ne_error_ok _ _ _ _ (Option.some.inj h)
  | adtsenc prof sfi cc => exact adtsencDraft_ne_error_ok _ _ _ _ (Option.some.inj h)
  | adtsparse | sfilookup | sprepare | sstart | ssubmit | sstop => cases h

/-- The error of a data command, raised by its draft or by the destination checks, is not OK. -/
theorem finish_error_ne_ok {i : Instr} {p : Platform} {m : Memory} {o : OperandRegs} {x : Except ErrCode Draft}
    {e : ErrCode} (draft : dataDraft i p m o = some x) (h : finish p o x = .error e) : e ≠ .ok := by
  cases x with
  | error code =>
    cases h
    rintro rfl
    exact dataDraft_ne_error_ok draft
  | ok d => rcases store_eq_error h with rfl | rfl | rfl <;> decide

/-! ### The frame -/

/-- An output that fits its destination is written to its region of memory alone. -/
theorem Output.Fits.wrote {s : State} {o : OperandRegs} {out : Output} (fits : out.Fits s.platform o) :
    s.Wrote { s.complete .ok out.r0 out.r1 with mem := s.mem.writeBytes out.region.addr out.bytes } out.region out.r0
      out.r1 :=
  wrote_of fits.filled

/-- Settles O50, by the two ends of `deliver`: an error with a code other than OK, or an output that fits. -/
theorem dataCommandFrame : Obligations.DataCommandFrame := by
  intro i s t data h
  obtain ⟨x, draft⟩ := IsDataCommand.exists_draft data s.platform s.mem s.op
  have plan := dataPlan_of_dataDraft draft
  rw [exec_of_dataDraft draft] at h
  rcases deliver_cases h with ⟨e, raised, rfl⟩ | ⟨out, finished, rfl⟩
  · rw [raised] at plan
    refine ⟨fun out delivers => ?_, fun _ => ⟨rfl, finish_error_ne_ok draft raised⟩⟩
    cases plan.symm.trans delivers
  · rw [finished] at plan
    have fits := dataPlan_fits plan
    refine ⟨fun out' delivers => ?_, fun nothing => ?_⟩
    · cases plan.symm.trans delivers
      exact ⟨fits.wrote, fits.addr, fits.capacity, fits.valid⟩
    · cases plan.symm.trans nothing

end Sys2Proof.Machine
end

section
/-! PROOFS. The register window: which host accesses reach a register and what they do there (spec/20_memory.md R54,
spec/70_reset_and_hazards.md R220). -/

namespace Sys2Proof.Machine

/-- An access at a distance below `2 ^ 32` from REG_BASE has a meaning exactly where R54 gives it one. -/
theorem windowOffset_regBase_add (p : Platform) {off : Nat} (hoff : off < 2 ^ 32) (width : Width) :
    windowOffset p (p.regBase + BitVec.ofNat 32 off) width =
      if width = .word ∧ off % 4 = 0 ∧ off < 0x100 then some off else none := by
  have distance : (p.regBase + BitVec.ofNat 32 off - p.regBase).toNat = off := by
    rw [BitVec.add_comm, BitVec.add_sub_cancel, BitVec.toNat_ofNat, Nat.mod_eq_of_lt hoff]
  simp only [windowOffset, distance]

theorem isResultOffset_iff {off : Nat} : isResultOffset off = true ↔ off = 0x08 ∨ off = 0x28 ∨ off = 0x2C := by
  simp only [isResultOffset, Reg.offset, Bool.or_eq_true, beq_iff_eq]
  omega

/-! ### An access inside the window -/

section
variable {s : State} {addr : Word} {width : Width} {off : Nat} (window : windowOffset s.platform addr width = some off)
include window

theorem hostWriteReg_of_window (data : Word) : hostWriteReg addr width data s = .next (s.writeOffset off data) := by
  rw [hostWriteReg, window]

theorem hostReadReg_of_window (asResult : Bool) :
    hostReadReg addr width asResult s =
      if asResult = true ∧ s.busy = true ∧ isResultOffset off = true then .fault .resultWhileBusy
      else .next (s.afterRead off) := by
  simp only [hostReadReg, window, Bool.and_eq_true, and_assoc]

end

/-! ### An access outside it -/

theorem hostReg_faults_of_no_window {s : State} {addr : Word} {width : Width}
    (outside : windowOffset s.platform addr width = none) (asResult : Bool) (data : Word) :
    hostReadReg addr width asResult s = .fault .badRegisterAccess ∧
      hostWriteReg addr width data s = .fault .badRegisterAccess := by
  rw [hostReadReg, hostWriteReg, outside]
  exact ⟨rfl, rfl⟩

/-- Settles O14, by whether `windowOffset` gives the access an offset. -/
theorem registerWindowAccess : Obligations.RegisterWindowAccess := by
  intro s off data asResult hoff addr tooEarly
  have early : tooEarly ↔ asResult = true ∧ s.busy = true ∧ isResultOffset off = true := by
    simp only [tooEarly, isResultOffset_iff]
  have window := windowOffset_regBase_add s.platform hoff
  refine ⟨fun aligned below => ?_, fun width bad => ?_⟩
  · have inside := (window .word).trans (if_pos ⟨rfl, aligned, below⟩)
    have read := hostReadReg_of_window inside asResult
    exact ⟨hostWriteReg_of_window inside data, fun h => read.trans (if_neg (mt early.mpr h)),
      fun h => read.trans (if_pos (early.mp h))⟩
  · have noMeaning : ¬ (width = .word ∧ off % 4 = 0 ∧ off < 0x100) := by
      rintro ⟨word, aligned, below⟩
      rcases bad with h | h | h
      · exact h word
      · exact h aligned
      · omega
    exact hostReg_faults_of_no_window ((window width).trans (if_neg noMeaning)) asResult data

end Sys2Proof.Machine
end

section
/-! PROOFS. The decoder against the encoder and against the opcode table (spec/30_encoding.md R70 to R78). -/

namespace Sys2Proof

/-! ### The fields of a word as numbers -/

theorem toNat_append_add {m n : Nat} (hi : BitVec m) (lo : BitVec n) :
    (hi ++ lo).toNat = lo.toNat + 2 ^ n * hi.toNat := by
  rw [BitVec.toNat_append, ← Nat.shiftLeft_add_eq_or_of_lt lo.isLt, Nat.shiftLeft_eq, Nat.mul_comm, Nat.add_comm]

theorem toNat_extractLsb'_div {m : Nat} (x : BitVec m) (start len : Nat) :
    (x.extractLsb' start len).toNat = x.toNat / 2 ^ start % 2 ^ len := by
  rw [BitVec.extractLsb'_toNat, Nat.shiftRight_eq_div_pow]

theorem toNat_opField (w : Word) : (opField w).toNat = w.toNat % 256 := by
  simp only [opField, toNat_extractLsb'_div, pow_zero, Nat.div_one, Nat.reducePow]

/-- The low bits of a word that its format gives a field; the bits above them are reserved (R71). -/
def Format.usedBits : Format → Nat
  | .f0 => 8
  | .fc => 9
  | .fa => 17

theorem reservedClear_iff (f : Format) (w : Word) : f.reservedClear w = true ↔ w.toNat < 2 ^ f.usedBits := by
  cases f <;>
    simp only [Format.reservedClear, Format.usedBits, beq_iff_eq, ← BitVec.toNat_inj, toNat_extractLsb'_div,
      BitVec.toNat_zero, BitVec.ofNat_eq_ofNat] <;>
    omega

/-! ### Words of a format -/

/-- The words of an opcode in format F0. -/
theorem f0_word_iff {word w : Word} (bare : word.toNat < 256) :
    (word.setWidth 8 = opField w ∧ Format.f0.reservedClear w = true) ↔ word = w := by
  simp only [reservedClear_iff, Format.usedBits, ← BitVec.toNat_inj, toNat_opField, BitVec.toNat_setWidth]
  omega

/-- The words of an opcode in format FC with its depth bit. -/
theorem fc_word_iff {op : BitVec 8} {bd : BitVec 1} {w : Word} :
    (op = opField w ∧ Format.fc.reservedClear w = true ∧ bdField w = bd) ↔ (bd ++ op).setWidth 32 = w := by
  simp only [reservedClear_iff, Format.usedBits, bdField, ← BitVec.toNat_inj, toNat_opField, BitVec.toNat_setWidth,
    toNat_append_add, toNat_extractLsb'_div]
  omega

/-- The words of an opcode in format FA with its three fields. -/
theorem fa_word_iff {op : BitVec 8} {prof : BitVec 2} {sfi : BitVec 4} {cc : BitVec 3} {w : Word} :
    (op = opField w ∧ Format.fa.reservedClear w = true ∧ profField w = prof ∧ sfiField w = sfi ∧ ccField w = cc) ↔
      (cc ++ sfi ++ prof ++ op).setWidth 32 = w := by
  simp only [reservedClear_iff, Format.usedBits, profField, sfiField, ccField, ← BitVec.toNat_inj, toNat_opField,
    BitVec.toNat_setWidth, toNat_append_add, toNat_extractLsb'_div]
  omega

/-! ### What the decoder answers -/

theorem find?_opMap_eq_some_iff {r : OpRow} {op : BitVec 8} :
    opMap.find? (fun r => r.op == op) = some r ↔ r ∈ opMap ∧ r.op = op := by
  constructor
  · intro found
    exact ⟨List.mem_of_find?_eq_some found, by simpa using List.find?_some found⟩
  · rintro ⟨mem, rfl⟩
    have distinct : (opMap.map OpRow.op).Nodup := by decide
    cases found : opMap.find? (fun q => q.op == r.op) with
    | none => exact absurd BEq.rfl (List.find?_eq_none.mp found r mem)
    | some q =>
      rw [List.inj_on_of_nodup_map distinct (List.mem_of_find?_eq_some found) mem
        (by simpa using List.find?_some found)]

theorem decode_of_mem {r : OpRow} {w : Word} (mem : r ∈ opMap) (op : r.op = opField w) :
    decode w = if r.format.reservedClear w then .ok (r.build w) else .error .reservedBits := by
  rw [decode, find?_opMap_eq_some_iff.mpr ⟨mem, op⟩]

theorem decode_of_unmapped {w : Word} (unmapped : ∀ r ∈ opMap, r.op ≠ opField w) :
    decode w = .error .reservedOpcode := by
  rw [decode, List.find?_eq_none.mpr fun r mem => mt beq_iff_eq.mp (unmapped r mem)]

theorem decode_eq_ok_iff {w : Word} {i : Instr} :
    decode w = .ok i ↔ ∃ r ∈ opMap, r.op = opField w ∧ r.format.reservedClear w = true ∧ r.build w = i := by
  constructor
  · intro decoded
    by_cases mapped : ∃ r ∈ opMap, r.op = opField w
    · obtain ⟨r, mem, op⟩ := mapped
      rw [decode_of_mem mem op] at decoded
      split at decoded
      · next clear => exact ⟨r, mem, op, clear, Except.ok.inj decoded⟩
      · cases decoded
    · rw [decode_of_unmapped fun r mem op => mapped ⟨r, mem, op⟩] at decoded
      cases decoded
  · rintro ⟨r, mem, op, clear, rfl⟩
    rw [decode_of_mem mem op, if_pos clear]

theorem decode_eq_reservedOpcode_iff {w : Word} :
    decode w = .error .reservedOpcode ↔ ∀ r ∈ opMap, r.op ≠ opField w := by
  refine ⟨fun refused r mem op => ?_, decode_of_unmapped⟩
  rw [decode_of_mem mem op] at refused
  split at refused <;> cases refused

/-- Settles O1: the map has one row for the command, and that row's format says which words the command has. -/
theorem decodeEncodeAgree : Obligations.DecodeEncodeAgree := by
  intro w i
  rw [decode_eq_ok_iff]
  cases i with
  | extl bd | extr bd | red2 bd | m2s bd =>
    rw [encode, ← fc_word_iff]
    simp [opMap]
  | adtsenc prof sfi cc =>
    rw [encode, ← fa_word_iff]
    simp [opMap]
  | _ =>
    rw [encode, ← f0_word_iff]
    · simp [opMap]
    · decide

/-! ### The refusals (R74, R78) -/

theorem reservedOpcode_iff (w : Word) :
    decode w = .error .reservedOpcode ↔
      (w.toNat % 256 ≤ 0x0F ∨ (0x11 ≤ w.toNat % 256 ∧ w.toNat % 256 ≤ 0x1F) ∨
        (0x24 ≤ w.toNat % 256 ∧ w.toNat % 256 ≤ 0x2F) ∨ (0x34 ≤ w.toNat % 256 ∧ w.toNat % 256 ≤ 0x3F) ∨
        (0x43 ≤ w.toNat % 256 ∧ w.toNat % 256 ≤ 0x4F) ∨ 0x54 ≤ w.toNat % 256) := by
  rw [decode_eq_reservedOpcode_iff]
  simp only [opMap, List.forall_mem_cons, ne_eq, ← BitVec.toNat_inj, toNat_opField, BitVec.ofNat_eq_ofNat,
    BitVec.toNat_ofNat, List.not_mem_nil, false_imp_iff, implies_true, and_true]
  omega

/-! ### The opcode table -/

/-- The bits of a word that a row of the opcode table fixes: the opcode and the reserved bits of its format. -/
def Format.fixedBits : Format → Word
  | .f0 => 0xFFFFFFFF
  | .fc => 0xFFFFFEFF
  | .fa => 0xFFFE00FF

/-- The row of the opcode table for a row of the opcode map. -/
def OpRow.tableRow (r : OpRow) : TableRow := ⟨r.op.setWidth 32, r.format.fixedBits⟩

theorem tableRows_eq_map_opMap : tableRows = opMap.map OpRow.tableRow := by decide

/-- Clearing `b` bits above the low byte keeps that byte and the `a` bits on top. -/
theorem toNat_and_ends {a b : Nat} (w : BitVec (a + b + 8)) :
    (w &&& (BitVec.allOnes a ++ 0#b ++ BitVec.allOnes 8)).toNat =
      w.toNat / 2 ^ (8 + b) * 2 ^ (8 + b) + w.toNat % 2 ^ 8 := by
  have cut : w.extractLsb' (8 + b) a ++ w.extractLsb' 8 b ++ w.extractLsb' 0 8 = w := by
    rw [BitVec.extractLsb'_append_extractLsb'_eq_extractLsb' rfl,
      BitVec.extractLsb'_append_extractLsb'_eq_extractLsb' (Nat.zero_add 8).symm, BitVec.extractLsb'_eq_self]
  have top : w.toNat / 2 ^ (8 + b) < 2 ^ a := by
    rw [Nat.div_lt_iff_lt_mul (by positivity), ← pow_add]
    exact w.isLt.trans_eq (by congr 1; omega)
  calc (w &&& (BitVec.allOnes a ++ 0#b ++ BitVec.allOnes 8)).toNat
    _ = (w.extractLsb' (8 + b) a ++ 0#b ++ w.extractLsb' 0 8).toNat := by
      conv_lhs => rw [← cut, BitVec.and_append, BitVec.and_append]
      simp only [BitVec.and_allOnes, BitVec.and_zero]
    _ = w.toNat / 2 ^ (8 + b) * 2 ^ (8 + b) + w.toNat % 2 ^ 8 := by
      simp only [toNat_append_add, toNat_extractLsb'_div, Nat.mod_eq_of_lt top, BitVec.toNat_zero, pow_zero,
        Nat.div_one]
      ring

theorem toNat_and_fixedBits (f : Format) (w : Word) :
    (w &&& f.fixedBits).toNat = w.toNat / 2 ^ f.usedBits * 2 ^ f.usedBits + w.toNat % 2 ^ 8 := by
  cases f with
  | f0 => exact toNat_and_ends (a := 24) (b := 0) w
  | fc => exact toNat_and_ends (a := 23) (b := 1) w
  | fa => exact toNat_and_ends (a := 15) (b := 9) w

theorem tableRow_fits_iff (r : OpRow) (w : Word) :
    r.tableRow.fits w = true ↔ r.op = opField w ∧ r.format.reservedClear w = true := by
  rw [TableRow.fits, OpRow.tableRow, beq_iff_eq, ← BitVec.toNat_inj, toNat_and_fixedBits, reservedClear_iff,
    ← BitVec.toNat_inj, toNat_opField, BitVec.toNat_setWidth]
  cases r.format <;> simp only [Format.usedBits] <;> omega

theorem wellFormedWord_iff {w : Word} : wellFormedWord w = true ↔ ∃ i, decode w = .ok i := by
  simp [wellFormedWord, tableRows_eq_map_opMap, tableRow_fits_iff, decode_eq_ok_iff]

/-- Settles O2: the ranges are the low bytes no row of the map has, and a row of the table fixes the bits that the
decoder checks. -/
theorem decodeRefusesReservedWords : Obligations.DecodeRefusesReservedWords := by
  intro w
  refine ⟨reservedOpcode_iff w, ?_⟩
  rw [← Bool.not_eq_true, wellFormedWord_iff]
  cases decode w <;> simp

/-! ### The decode vectors -/

/-- Settles O3: each word evaluates to the answer the spec gives. -/
theorem specWordsDecode : Obligations.SpecWordsDecode :=
  ⟨rfl, rfl, rfl, rfl, rfl, rfl, rfl, rfl, rfl, rfl, rfl, rfl⟩

end Sys2Proof
end

section
/-! PROOFS. The bits of the ADTS header (spec/30_encoding.md R85). -/

namespace Sys2Proof.Machine

/-- The number that bytes write with the most significant byte first. -/
def bigEndian : List Byte → Nat
  | [] => 0
  | b :: bs => 2 ^ (8 * bs.length) * b.toNat + bigEndian bs

theorem bigEndian_lt (bytes : List Byte) : bigEndian bytes < 2 ^ (8 * bytes.length) := by
  induction bytes with
  | nil => decide
  | cons b bs ih =>
    calc bigEndian (b :: bs)
      _ < 2 ^ (8 * bs.length) * (b.toNat + 1) := by rw [bigEndian, Nat.mul_succ]; omega
      _ ≤ 2 ^ (8 * bs.length) * 2 ^ 8 := Nat.mul_le_mul_left _ b.isLt
      _ = 2 ^ (8 * (b :: bs).length) := by rw [← pow_add, List.length_cons, Nat.mul_succ]

/-- Bit `k` from the top of that number is bit `7 - k % 8` of byte `k / 8`. -/
theorem testBit_bigEndian (bytes : List Byte) {k : Nat} (hk : k < 8 * bytes.length) :
    (bigEndian bytes).testBit (8 * bytes.length - 1 - k) = (bytes.getD (k / 8) 0).getLsbD (7 - k % 8) := by
  induction bytes generalizing k with
  | nil => exact absurd hk (Nat.not_lt_zero k)
  | cons b bs ih =>
    rw [List.length_cons] at hk ⊢
    rw [bigEndian, Nat.testBit_two_pow_mul_add _ (bigEndian_lt bs)]
    by_cases first : k < 8
    · rw [if_neg (by omega), Nat.div_eq_of_lt first, Nat.mod_eq_of_lt first, BitVec.testBit_toNat]
      exact congrArg b.getLsbD (by omega)
    · obtain ⟨j, rfl⟩ := Nat.exists_eq_add_of_le' (Nat.le_of_not_lt first)
      rw [if_pos (by omega), Nat.add_mod_right, Nat.add_div_right j (by decide), List.getD_cons_succ, ← ih (by omega)]
      exact congrArg (bigEndian bs).testBit (by omega)

/-- The header as one 56-bit number: the fields of R85's table from the top one down. -/
theorem bigEndian_adtsHeader (id : BitVec 1) (prof : BitVec 2) (sfi : BitVec 4) (cc : BitVec 3) (fl : BitVec 13) :
    bigEndian (adtsHeader id prof sfi cc fl) =
      ((0xFFF : BitVec 12) ++ id ++ (0 : BitVec 2) ++ (1 : BitVec 1) ++ prof ++ sfi ++ (0 : BitVec 1) ++ cc ++
        (0 : BitVec 4) ++ fl ++ (0x7FF : BitVec 11) ++ (0 : BitVec 2) : BitVec 56).toNat := by
  simp only [adtsHeader, bigEndian, List.length_cons, List.length_nil, toNat_append_add, toNat_extractLsb'_div,
    BitVec.ofNat_eq_ofNat, BitVec.toNat_ofNat]
  omega

/-- Settles O37: the bytes and the fields are one number, whose bits both sides read. -/
theorem headerFollowsWireFormat : Obligations.HeaderFollowsWireFormat := by
  intro id prof sfi cc fl k hk
  rw [← testBit_bigEndian (adtsHeader id prof sfi cc fl) hk, bigEndian_adtsHeader]
  exact BitVec.testBit_toNat _

end Sys2Proof.Machine
end

section
/-! PROOFS. The command latch: what a host's CMD write puts there and what the command unit's step makes of it
(spec/30_encoding.md R72 to R74). -/

namespace Sys2Proof.Machine

/-! ### The command unit -/

theorem cuStep_of_idle {s : State} (idle : s.pending = none) : cuStep s = .next s := by
  rw [cuStep, idle]

theorem cuStep_of_decoded {s : State} {p : Pending} {i : Instr} (latched : s.pending = some p)
    (decoded : decode p.word = .ok i) : cuStep s = exec i s := by
  simp only [cuStep, latched, decoded]

theorem cuStep_of_illegal {s : State} {p : Pending} {e : DecodeError} (latched : s.pending = some p)
    (refused : decode p.word = .error e) : cuStep s = .next (s.fail .illegalCmd) := by
  simp only [cuStep, latched, refused]

/-- Settles O5, by what the command unit finds in the latch. -/
theorem stepRunsLatchedCommand : Obligations.StepRunsLatchedCommand := by
  intro s rest agenda
  have cu : step s = cuStep { s with agenda := rest } := stepRunsNextEvent.1 s .cu rest agenda
  rw [cu]
  exact ⟨fun p i latched decoded => cuStep_of_decoded latched decoded,
    fun p e latched refused => ⟨_, cuStep_of_illegal latched refused, rfl⟩, fun idle => cuStep_of_idle idle⟩

/-! ### A host's CMD write -/

/-- The script's `wr` reaches its register. -/
theorem runEvent_wr (s : State) (r : Reg) (w : Word) : runEvent (wr s.platform r w) s = .next (s.writeReg r w) := by
  have inside : .word = Width.word ∧ r.offset % 4 = 0 ∧ r.offset < 0x100 := by cases r <;> decide
  have window : windowOffset s.platform (regAddr s.platform r) .word = some r.offset := by
    rw [regAddr, windowOffset_regBase_add _ (inside.2.2.trans (by decide)), if_pos inside]
  exact (hostWriteReg_of_window window w).trans (congrArg _ (writeOffset_offset s r w))

/-- Settles O6: a CMD write asks the latch, which is empty exactly where BUSY is 0. -/
theorem cmdWriteLatchesOrDrops : Obligations.CmdWriteLatchesOrDrops := by
  intro s w
  rw [runEvent_wr s .cmd w, State.writeReg, State.writeCmd, State.busy]
  cases s.pending with
  | none => exact ⟨fun _ => rfl, nofun⟩
  | some p => exact ⟨nofun, fun _ => rfl⟩

end Sys2Proof.Machine
end

section
/-! PROOFS. The two ends of a data command: its output where the destination checks pass, and its error where its draft
or one of them fails (spec/60_exceptions.md R187, R188). -/

namespace Sys2Proof.Machine

/-- A command whose draft stands and may be stored writes the draft's bytes at DST_ADDR and nothing else. -/
theorem exec_of_storable {i : Instr} {s : State} {d : Draft}
    (draft : dataDraft i s.platform s.mem s.op = some (.ok d)) (storable : Storable s.platform s.op d.reads d.ob) :
    ∃ t, exec i s = .next t ∧ s.Wrote t ⟨s.op.dstAddr.toNat, d.ob⟩ d.r0 d.r1 ∧
      t.mem = s.mem.writeBytes s.op.dstAddr.toNat d.bytes := by
  refine ⟨_, ?_, wrote_of (dataDraft_filled draft), rfl⟩
  rw [exec_of_dataDraft draft, finish_eq_ok.mpr ⟨d, rfl, storable, rfl⟩]
  rfl

/-- The command raises this error and changes nothing else. -/
abbrev Fails (i : Instr) (s : State) (code : ErrCode) : Prop := ∃ t, exec i s = .next t ∧ s.Failed t code

theorem fails_of_finish {i : Instr} {s : State} {x : Except ErrCode Draft} {code : ErrCode}
    (draft : dataDraft i s.platform s.mem s.op = some x) (raised : finish s.platform s.op x = .error code) :
    Fails i s code := by
  refine ⟨s.fail code, ?_, rfl⟩
  rw [exec_of_dataDraft draft, raised]
  rfl

theorem fails_of_draft {i : Instr} {s : State} {code : ErrCode}
    (draft : dataDraft i s.platform s.mem s.op = some (.error code)) : Fails i s code :=
  fails_of_finish draft rfl

/-- The destination checks in their order CAPACITY, RANGE, OVERLAP. -/
theorem fails_at_destination {i : Instr} {s : State} {d : Draft}
    (draft : dataDraft i s.platform s.mem s.op = some (.ok d)) :
    (s.op.dstCap.toNat < d.ob → Fails i s .capacity) ∧
      (d.ob ≤ s.op.dstCap.toNat → Region.valid ⟨s.op.dstAddr.toNat, d.ob⟩ s.platform = false → Fails i s .range) ∧
      (d.ob ≤ s.op.dstCap.toNat → Region.valid ⟨s.op.dstAddr.toNat, d.ob⟩ s.platform = true →
        (∃ r ∈ d.reads, Region.overlaps ⟨s.op.dstAddr.toNat, d.ob⟩ r = true) → Fails i s .overlap) := by
  refine ⟨fun large => ?_, fun fits invalid => ?_, fun fits valid overlap => ?_⟩ <;> apply fails_of_finish draft
  · simp only [finish, store, gt_iff_lt, if_pos large]
  · simp only [finish, store, gt_iff_lt, if_neg (Nat.not_lt.mpr fits), invalid, Bool.not_false, if_true]
  · simp only [finish, store, gt_iff_lt, if_neg (Nat.not_lt.mpr fits), valid, List.any_eq_true.mpr overlap,
      Bool.not_true, Bool.false_eq_true, if_false, if_true]

end Sys2Proof.Machine
end

section
/-! PROOFS. The resampler (spec/40_resampler.md): its interpolation, and its draft on equal and on unequal rates. -/

namespace Sys2Proof.Machine

/-! ### A truncated interpolation keeps the bounds of its samples -/

section
variable {a b m : Int} {r d : Nat} (hd : 0 < d) (hr : r ≤ d)
include hd hr

theorem le_tdiv_interpolation (ha : m ≤ a) (hb : m ≤ b) : m ≤ (a * d + r * (b - a)).tdiv d := by
  apply Int.le_tdiv_of_mul_le (by exact_mod_cast hd)
  have rest : (0 : Int) ≤ d - r := by omega
  calc m * d
    _ = m * (d - r) + m * r := by ring
    _ ≤ a * (d - r) + b * r := by gcongr
    _ = a * d + r * (b - a) := by ring

theorem tdiv_interpolation_le (ha : a ≤ m) (hb : b ≤ m) : (a * d + r * (b - a)).tdiv d ≤ m := by
  have pos : (0 : Int) < d := by exact_mod_cast hd
  have rest : (0 : Int) ≤ d - r := by omega
  calc (a * d + r * (b - a)).tdiv d
    _ = (a * (d - r) + b * r).tdiv d := by ring_nf
    _ ≤ (m * (d - r) + m * r).tdiv d := Int.tdiv_le_tdiv pos (by gcongr)
    _ = (m * d).tdiv d := by ring_nf
    _ = m := Int.mul_tdiv_cancel m pos.ne'

end

/-! ### The source positions of an output sample (R93)

`F` and `F + 1` lie in the source, the latter where it is used, so the clamps of `Interp` never act. -/

theorem position_le {outLen n : Nat} (index : n < outLen) (len : Nat) :
    n * (len - 1) ≤ (outLen - 1) * (len - 1) :=
  Nat.mul_le_mul_right _ (by omega)

theorem floor_position_lt {len outLen n : Nat} (source : 1 ≤ len) (index : n < outLen) :
    n * (len - 1) / (outLen - 1) < len := by
  have := Nat.div_le_of_le_mul (position_le index len)
  omega

theorem floor_position_succ_lt {len outLen n : Nat} (source : 1 ≤ len) (index : n < outLen)
    (between : n * (len - 1) % (outLen - 1) ≠ 0) : n * (len - 1) / (outLen - 1) + 1 < len := by
  have floor := floor_position_lt source index
  by_contra last
  have whole : n * (len - 1) / (outLen - 1) = len - 1 := by omega
  have split := Nat.div_add_mod (n * (len - 1)) (outLen - 1)
  have := position_le index len
  rw [whole] at split
  omega

section
variable {len outLen n : Nat} (source : 1 ≤ len) (several : 2 ≤ outLen) (index : n < outLen)
include source several index

theorem interp_of_whole (x : List Int) (whole : n * (len - 1) % (outLen - 1) = 0) :
    interp x len outLen n = x.getD (n * (len - 1) / (outLen - 1)) 0 := by
  have floor := Nat.not_le.mpr (floor_position_lt source index)
  have divisor : ((outLen - 1 : Nat) : Int) ≠ 0 := by omega
  simp only [interp, if_neg (show outLen ≠ 1 by omega), whole, if_true, ge_iff_le, if_neg floor, tdiv, Nat.cast_zero,
    zero_mul, add_zero]
  exact Int.mul_tdiv_cancel _ divisor

theorem interp_of_between (x : List Int) (between : n * (len - 1) % (outLen - 1) ≠ 0) :
    let f := n * (len - 1) / (outLen - 1)
    interp x len outLen n =
      (x.getD f 0 * (outLen - 1 : Nat) +
        (n * (len - 1) % (outLen - 1) : Nat) * (x.getD (f + 1) 0 - x.getD f 0)).tdiv (outLen - 1 : Nat) := by
  have floor := Nat.not_le.mpr (floor_position_lt source index)
  have ceiling := Nat.not_le.mpr (floor_position_succ_lt source index between)
  simp only [interp, if_neg (show outLen ≠ 1 by omega), if_neg between, ge_iff_le, if_neg floor, if_neg ceiling, tdiv]

/-- An output sample keeps every bound that the source samples keep at `F` and at a `c` of `F` and `F + 1`. -/
theorem interp_bounds (x : List Int) :
    let f := n * (len - 1) / (outLen - 1)
    ∃ c, f ≤ c ∧ c ≤ f + 1 ∧ c < len ∧
      (∀ m ≤ x.getD f 0, m ≤ x.getD c 0 → m ≤ interp x len outLen n) ∧
      ∀ m, x.getD f 0 ≤ m → x.getD c 0 ≤ m → interp x len outLen n ≤ m := by
  intro f
  by_cases whole : n * (len - 1) % (outLen - 1) = 0
  · rw [interp_of_whole source several index x whole]
    exact ⟨f, le_rfl, Nat.le_succ f, floor_position_lt source index, fun _ h _ => h, fun _ h _ => h⟩
  · have divisor : 0 < outLen - 1 := by omega
    have weight := (Nat.mod_lt (n * (len - 1)) divisor).le
    rw [interp_of_between source several index x whole]
    exact ⟨f + 1, Nat.le_succ f, le_rfl, floor_position_succ_lt source index whole,
      fun _ => le_tdiv_interpolation divisor weight, fun _ => tdiv_interpolation_le divisor weight⟩

end

theorem interp_first {len outLen : Nat} (source : 1 ≤ len) (several : 2 ≤ outLen) (x : List Int) :
    interp x len outLen 0 = x.getD 0 0 := by
  have whole : 0 * (len - 1) % (outLen - 1) = 0 := by simp
  rw [interp_of_whole source several (by omega) x whole, Nat.zero_mul, Nat.zero_div]

theorem interp_last {len outLen : Nat} (source : 1 ≤ len) (several : 2 ≤ outLen) (x : List Int) :
    interp x len outLen (outLen - 1) = x.getD (len - 1) 0 := by
  rw [interp_of_whole source several (by omega) x (Nat.mul_mod_right _ _), Nat.mul_div_cancel_left _ (by omega)]

/-- Settles O21: `F` and `F + 1` give the bounds, and both end positions are whole. -/
theorem interpolationStaysBetweenSamples : Obligations.InterpolationStaysBetweenSamples := by
  intro x outLen n source several index f
  obtain ⟨c, floor, ceiling, inside, lower, upper⟩ := interp_bounds source several index x
  exact ⟨⟨c, floor, ceiling, inside, lower _ (min_le_left _ _) (min_le_right _ _),
    upper _ (le_max_left _ _) (le_max_right _ _)⟩, interp_first source several x, interp_last source several x⟩

/-! ### The draft on equal and on unequal rates (R90, R91) -/

/-- What RESAMPLE is about to write on equal rates. -/
def copyDraft (m : Memory) (o : OperandRegs) : Draft :=
  ⟨[o.source], o.source.len, m.readBytes o.source.addr o.source.len, BitVec.ofNat 32 o.source.len,
    BitVec.ofNat 32 (o.source.len / 2)⟩

/-- What RESAMPLE is about to write on unequal rates. -/
def interpolationDraft (m : Memory) (o : OperandRegs) : Draft :=
  let outLen := outLength (o.source.len / 2) o.param0.toNat o.param1.toNat
  ⟨[o.source], 2 * outLen,
    bytes16 (resampled (samples16 (m.readBytes o.source.addr o.source.len)) (o.source.len / 2) outLen),
    BitVec.ofNat 32 (2 * outLen), BitVec.ofNat 32 outLen⟩

theorem resampleDraft_of_equal {p : Platform} {m : Memory} {o : OperandRegs} (equal : o.param0 = o.param1) :
    resampleDraft p m o = if o.source.valid p = true then .ok (copyDraft m o) else .error .range := by
  simp only [resampleDraft, equal, if_true, copyDraft]
  cases o.source.valid p <;> rfl

theorem resampleDraft_of_unequal {p : Platform} {m : Memory} {o : OperandRegs} (unequal : o.param0 ≠ o.param1) :
    resampleDraft p m o =
      if o.param0 = 0 then .error .badParam
      else if o.source.valid p = false then .error .range
      else if o.source.len % 2 = 1 then .error .shape
      else if outLength (o.source.len / 2) o.param0.toNat o.param1.toNat = 0 then .error .zeroLength
      else .ok (interpolationDraft m o) := by
  have rates : o.param0.toNat ≠ o.param1.toNat := mt BitVec.eq_of_toNat_eq unequal
  have zero : o.param0.toNat = 0 ↔ o.param0 = 0 := BitVec.toNat_inj (y := 0)
  simp only [resampleDraft, if_neg rates, zero, Bool.not_eq_true', interpolationDraft, ne_eq, Nat.mod_two_not_eq_zero]

/-- The draft on unequal rates once its parameter, source and shape checks pass. -/
theorem resampleDraft_of_samples {p : Platform} {m : Memory} {o : OperandRegs} (unequal : o.param0 ≠ o.param1)
    (rate : o.param0 ≠ 0) (valid : o.source.valid p = true) (even : o.source.len % 2 = 0) :
    resampleDraft p m o =
      if outLength (o.source.len / 2) o.param0.toNat o.param1.toNat = 0 then .error .zeroLength
      else .ok (interpolationDraft m o) := by
  rw [resampleDraft_of_unequal unequal, if_neg rate, if_neg (by simp [valid]), if_neg (Nat.mod_two_ne_one.mpr even)]

/-! ### What RESAMPLE writes -/

/-- Settles O18: the copy's bytes are read from the source, and what is stored reads back. -/
theorem resampleEqualRatesCopies : Obligations.ResampleEqualRatesCopies := by
  intro s ⟨equal, valid, storable⟩
  have draft : dataDraft .resample s.platform s.mem s.op = some (.ok (copyDraft s.mem s.op)) :=
    congrArg some ((resampleDraft_of_equal equal).trans (if_pos valid))
  obtain ⟨t, ran, wrote, mem⟩ := exec_of_storable draft storable
  have srcLen : (copyDraft s.mem s.op).r0 = s.op.srcLen := BitVec.ofNat_toNat ..
  rw [srcLen] at wrote
  refine ⟨t, ran, wrote, fun k hk => ?_⟩
  rw [mem]
  exact Memory.read_writeBytes_inside _ _ (Memory.getElem?_readBytes s.mem _ _ k hk)

theorem getElem?_resampled (x : List Int) (len : Nat) {outLen n : Nat} (index : n < outLen) :
    (resampled x len outLen)[n]? = some (interp x len outLen n) := by
  simp [resampled, index]

theorem getD_samples16_readBytes (m : Memory) (a : Nat) {nb k : Nat} (even : nb % 2 = 0) (hk : k < nb / 2) :
    (samples16 (m.readBytes a nb)).getD k 0 = sampleAt m (a + 2 * k) := by
  have whole : nb = 2 * (nb / 2) := by omega
  rw [whole, List.getD_eq_getElem?_getD, samples16_readBytes m a _ k hk, Option.getD_some]

section
variable (m : Memory) (a : Nat) {nb outLen n : Nat} (even : nb % 2 = 0) (source : 1 ≤ nb / 2) (index : n < outLen)
include even source index

/-- `Interp` of the samples of a region of memory, as R93 and R94 state it. -/
theorem interp_readBytes :
    let x := fun k : Nat => sampleAt m (a + 2 * k)
    let d := outLen - 1
    let p := n * (nb / 2 - 1)
    interp (samples16 (m.readBytes a nb)) (nb / 2) outLen n =
      if outLen = 1 then x 0
      else if p % d = 0 then x (p / d)
      else (x (p / d) * d + (p % d : Nat) * (x (p / d + 1) - x (p / d))).tdiv d := by
  intro x d p
  have sample {k : Nat} (hk : k < nb / 2) : (samples16 (m.readBytes a nb)).getD k 0 = x k :=
    getD_samples16_readBytes m a even hk
  split
  · next single => rw [interp, if_pos single, sample source]
  · have several : 2 ≤ outLen := by omega
    have floor := floor_position_lt source index
    split
    · next whole => rw [interp_of_whole source several index _ whole, sample floor]
    · next between =>
      rw [interp_of_between source several index _ between, sample floor,
        sample (floor_position_succ_lt source index between)]

/-- An output sample is a 16-bit number as the source samples are. -/
theorem wrap16_interp_readBytes :
    wrap16 (interp (samples16 (m.readBytes a nb)) (nb / 2) outLen n) =
      interp (samples16 (m.readBytes a nb)) (nb / 2) outLen n := by
  have range {k : Nat} (hk : k < nb / 2) : -32768 ≤ (samples16 (m.readBytes a nb)).getD k 0 ∧
      (samples16 (m.readBytes a nb)).getD k 0 ≤ 32767 := by
    rw [getD_samples16_readBytes m a even hk]
    exact sampleAt_range m _
  by_cases single : outLen = 1
  · rw [interp, if_pos single]
    exact wrap16_eq_self (range source).1 (range source).2
  · obtain ⟨c, -, -, inside, lower, upper⟩ := interp_bounds source (by omega : 2 ≤ outLen) index
      (samples16 (m.readBytes a nb))
    obtain ⟨floorLow, floorHigh⟩ := range (floor_position_lt source index)
    obtain ⟨low, high⟩ := range inside
    exact wrap16_eq_self (lower _ floorLow low) (upper _ floorHigh high)

end

/-- An empty source has no output sample. -/
theorem source_of_outLength {len rin rout : Nat} (nonempty : 1 ≤ outLength len rin rout) : 1 ≤ len := by
  by_contra empty
  rw [show len = 0 by omega, outLength, Nat.zero_mul, Nat.zero_div] at nonempty
  exact absurd nonempty (by decide)

/-- Settles O19: the stored samples are 16-bit numbers, so each reads back as `Interp` gave it. -/
theorem resampleInterpolates : Obligations.ResampleInterpolates := by
  intro s ⟨unequal, rate, valid, even, nonempty, storable⟩
  have source := source_of_outLength nonempty
  have draft : dataDraft .resample s.platform s.mem s.op = some (.ok (interpolationDraft s.mem s.op)) :=
    congrArg some ((resampleDraft_of_samples unequal rate valid even).trans (if_neg (Nat.ne_of_gt nonempty)))
  obtain ⟨t, ran, wrote, mem⟩ := exec_of_storable draft storable
  refine ⟨t, ran, wrote, fun n index => ?_⟩
  rw [mem]
  exact (sampleAt_writeBytes s.mem _ (getElem?_resampled _ _ index)).trans
    ((wrap16_interp_readBytes s.mem _ even source index).trans (interp_readBytes s.mem _ even source index))

/-! ### What RESAMPLE reports -/

/-- The destination checks of RESAMPLE, which reads its source alone. -/
theorem resample_fails_at_destination {s : State} {d : Draft}
    (draft : resampleDraft s.platform s.mem s.op = .ok d) (reads : d.reads = [s.op.source]) :
    (s.op.dstCap.toNat < d.ob → Fails .resample s .capacity) ∧
      (d.ob ≤ s.op.dstCap.toNat → Region.valid ⟨s.op.dstAddr.toNat, d.ob⟩ s.platform = false →
        Fails .resample s .range) ∧
      (d.ob ≤ s.op.dstCap.toNat → Region.valid ⟨s.op.dstAddr.toNat, d.ob⟩ s.platform = true →
        Region.overlaps ⟨s.op.dstAddr.toNat, d.ob⟩ s.op.source = true → Fails .resample s .overlap) := by
  obtain ⟨capacity, range, overlap⟩ := fails_at_destination (i := .resample) (congrArg some draft)
  exact ⟨capacity, range, fun fits valid meets => overlap fits valid ⟨_, by simp [reads], meets⟩⟩

theorem resample_fails_of_draft {s : State} {code : ErrCode}
    (draft : resampleDraft s.platform s.mem s.op = .error code) : Fails .resample s code :=
  fails_of_draft (congrArg some draft)

/-- Settles O20: each error is a branch of the draft on equal or on unequal rates, or of the destination checks. -/
theorem resampleErrors : Obligations.ResampleErrors := by
  refine ⟨fun r p => decide_eq_true_iff, fun a b => decide_eq_true_iff, ?_⟩
  intro s src fails toStore
  constructor
  · intro equal
    have draft := resampleDraft_of_equal (p := s.platform) (m := s.mem) equal
    refine ⟨fun invalid => ?_, fun valid => ?_⟩
    · exact resample_fails_of_draft (draft.trans (if_neg (by simpa using invalid)))
    · exact resample_fails_at_destination (draft.trans (if_pos valid)) rfl
  · intro unequal
    have draft := resampleDraft_of_unequal (p := s.platform) (m := s.mem) unequal
    refine ⟨fun zero => ?_, fun rate invalid => ?_, fun rate valid odd => ?_, fun rate valid even => ?_⟩
    · exact resample_fails_of_draft (draft.trans (if_pos zero))
    · exact resample_fails_of_draft (draft.trans ((if_neg rate).trans (if_pos invalid)))
    · exact resample_fails_of_draft
        (draft.trans ((if_neg rate).trans ((if_neg (by simpa using valid)).trans (if_pos odd))))
    · have draft := resampleDraft_of_samples (m := s.mem) unequal rate valid even
      refine ⟨fun empty => ?_, fun nonempty => ?_⟩
      · exact resample_fails_of_draft (draft.trans (if_pos empty))
      · exact resample_fails_at_destination (draft.trans (if_neg (Nat.ne_of_gt nonempty))) rfl

end Sys2Proof.Machine
end

section
/-! PROOFS. The channel multiplexer (spec/41_channel.md): its drafts on each of their paths, what its commands write and
what they report. -/

namespace Sys2Proof.Machine

/-! ### The drafts, one equation a path (R101 to R104) -/

section
variable {p : Platform} {m : Memory} {o : OperandRegs}

theorem channelPick_of_split_frame {fs off n : Nat} (split : o.source.len % fs ≠ 0) :
    channelPick m o fs off n = .error .shape := by
  rw [channelPick, if_pos split]

theorem channelPick_of_whole_frames {fs off n : Nat} (whole : o.source.len % fs = 0) :
    channelPick m o fs off n =
      channelDraft o (o.source.len / fs * n)
        (pickFrames (m.readBytes o.source.addr o.source.len) fs off n (o.source.len / fs)) := by
  rw [channelPick, if_neg (not_not.mpr whole)]

section
variable {bps off : Nat}

theorem extractDraft_of_no_channel (zero : o.param0.toNat = 0) : extractDraft bps off p m o = .error .badParam := by
  rw [extractDraft, if_pos zero]

theorem extractDraft_of_invalid (nonzero : 1 ≤ o.param0.toNat) (invalid : o.source.valid p = false) :
    extractDraft bps off p m o = .error .range := by
  simp only [extractDraft, if_neg (Nat.ne_of_gt nonzero), invalid, Bool.not_false, if_true]

theorem extractDraft_of_one_channel (valid : o.source.valid p = true) (one : o.param0.toNat = 1) :
    extractDraft bps off p m o = channelCopy m o := by
  simp only [extractDraft, one, Nat.one_ne_zero, valid, Bool.not_true, Bool.false_eq_true, if_false, if_true]

theorem extractDraft_of_channels (valid : o.source.valid p = true) (several : 2 ≤ o.param0.toNat) :
    extractDraft bps off p m o = channelPick m o (o.param0.toNat * bps) off bps := by
  have nonzero : o.param0.toNat ≠ 0 := by omega
  have notOne : o.param0.toNat ≠ 1 := by omega
  simp only [extractDraft, if_neg nonzero, if_neg notOne, valid, Bool.not_true, Bool.false_eq_true, if_false]

end

section
variable {bd : BitVec 1}

theorem red2Draft_of_invalid (invalid : o.source.valid p = false) : red2Draft bd p m o = .error .range := by
  simp only [red2Draft, invalid, Bool.not_false, if_true]

theorem red2Draft_of_two_channels (valid : o.source.valid p = true) (few : o.param0.toNat ≤ 2) :
    red2Draft bd p m o = channelCopy m o := by
  simp only [red2Draft, valid, Bool.not_true, Bool.false_eq_true, if_false, if_pos few]

theorem red2Draft_of_channels (valid : o.source.valid p = true) (several : 3 ≤ o.param0.toNat) :
    red2Draft bd p m o = channelPick m o (o.param0.toNat * bytesPerSample bd) 0 (2 * bytesPerSample bd) := by
  simp only [red2Draft, valid, Bool.not_true, Bool.false_eq_true, if_false, if_neg (Nat.not_le.mpr several)]

theorem m2sDraft_of_invalid (invalid : o.source.valid p = false) : m2sDraft bd p m o = .error .range := by
  simp only [m2sDraft, invalid, Bool.not_false, if_true]

theorem m2sDraft_of_split_sample (valid : o.source.valid p = true) (split : o.source.len % bytesPerSample bd ≠ 0) :
    m2sDraft bd p m o = .error .shape := by
  simp only [m2sDraft, valid, Bool.not_true, Bool.false_eq_true, if_false, if_pos split]

theorem m2sDraft_of_whole_samples (valid : o.source.valid p = true) (whole : o.source.len % bytesPerSample bd = 0) :
    m2sDraft bd p m o =
      channelDraft o (2 * o.source.len)
        (doubleSamples (m.readBytes o.source.addr o.source.len) (bytesPerSample bd)
          (o.source.len / bytesPerSample bd)) := by
  simp only [m2sDraft, valid, Bool.not_true, Bool.false_eq_true, if_false, if_neg (not_not.mpr whole)]

end

end

/-! ### EXTL and EXTR as one command -/

/-- The extracting commands, each with the byte offset in the frame of the channel it takes (R101, R102). -/
abbrev Extracts (bd : BitVec 1) (i : Instr) (off : Nat) : Prop :=
  i = .extl bd ∧ off = 0 ∨ i = .extr bd ∧ off = bytesPerSample bd

theorem exists_extracts {bd : BitVec 1} {i : Instr} (extract : i = .extl bd ∨ i = .extr bd) :
    ∃ off, Extracts bd i off :=
  extract.elim (fun left => ⟨0, .inl ⟨left, rfl⟩⟩) fun right => ⟨_, .inr ⟨right, rfl⟩⟩

theorem Extracts.draft_eq {bd : BitVec 1} {i : Instr} {off : Nat} (extract : Extracts bd i off) (p : Platform)
    (m : Memory) (o : OperandRegs) :
    dataDraft i p m o = some (extractDraft (bytesPerSample bd) off p m o) := by
  rcases extract with ⟨rfl, rfl⟩ | ⟨rfl, rfl⟩ <;> rfl

/-- The channel lies in a frame of two or more. -/
theorem Extracts.channel_fits {bd : BitVec 1} {i : Instr} {off ch : Nat} (extract : Extracts bd i off)
    (several : 2 ≤ ch) : off + bytesPerSample bd ≤ ch * bytesPerSample bd := by
  have two := Nat.mul_le_mul_right (bytesPerSample bd) several
  rcases extract with ⟨-, rfl⟩ | ⟨-, rfl⟩ <;> omega

/-! ### The drafts that stand -/

section
variable {bd : BitVec 1} {i : Instr} {s : State} (valid : s.op.source.valid s.platform = true)
include valid

theorem extract_drafts_channel {off : Nat} (extract : Extracts bd i off) (several : 2 ≤ s.channels)
    (whole : s.srcBytes % (s.channels * bytesPerSample bd) = 0) :
    dataDraft i s.platform s.mem s.op =
      some (channelDraft s.op (s.srcBytes / s.channels)
        (pickFrames (s.mem.readBytes s.op.srcAddr.toNat s.srcBytes) (s.channels * bytesPerSample bd) off
          (bytesPerSample bd) (s.srcBytes / (s.channels * bytesPerSample bd)))) := by
  rw [extract.draft_eq, extractDraft_of_channels valid several, channelPick_of_whole_frames whole,
    ← frames_mul whole (Nat.zero_lt_of_lt several) (bytesPerSample_pos bd)]
  rfl

theorem red2_drafts_channels (several : 3 ≤ s.channels)
    (whole : s.srcBytes % (s.channels * bytesPerSample bd) = 0) :
    dataDraft (.red2 bd) s.platform s.mem s.op =
      some (channelDraft s.op (s.srcBytes / s.channels * 2)
        (pickFrames (s.mem.readBytes s.op.srcAddr.toNat s.srcBytes) (s.channels * bytesPerSample bd) 0
          (2 * bytesPerSample bd) (s.srcBytes / (s.channels * bytesPerSample bd)))) := by
  rw [dataDraft, red2Draft_of_channels valid several, channelPick_of_whole_frames whole,
    ← frames_mul whole (Nat.zero_lt_of_lt several) (bytesPerSample_pos bd), Nat.mul_assoc,
    Nat.mul_comm (bytesPerSample bd) 2]
  rfl

theorem m2s_drafts_samples (whole : s.srcBytes % bytesPerSample bd = 0) :
    dataDraft (.m2s bd) s.platform s.mem s.op =
      some (channelDraft s.op (2 * s.srcBytes)
        (doubleSamples (s.mem.readBytes s.op.srcAddr.toNat s.srcBytes) (bytesPerSample bd)
          (s.srcBytes / bytesPerSample bd))) :=
  congrArg some (m2sDraft_of_whole_samples valid whole)

/-- The identity paths (R101 to R103). -/
theorem identity_drafts_source
    (identity : (i = .extl bd ∨ i = .extr bd) ∧ s.channels = 1 ∨ i = .red2 bd ∧ s.channels ≤ 2) :
    dataDraft i s.platform s.mem s.op =
      some (channelDraft s.op s.srcBytes (s.mem.readBytes s.op.srcAddr.toNat s.srcBytes)) := by
  rcases identity with ⟨extract, one⟩ | ⟨rfl, few⟩
  · obtain ⟨off, extract⟩ := exists_extracts extract
    rw [extract.draft_eq, extractDraft_of_one_channel valid one]
    rfl
  · exact congrArg some (red2Draft_of_two_channels valid few)

end

/-! ### What the channel commands write -/

/-- A channel command writes the bytes of its draft where it may store them (R100). -/
theorem exec_of_channelDraft {i : Instr} {s : State} {ob : Nat} {out : List Byte}
    (draft : dataDraft i s.platform s.mem s.op = some (channelDraft s.op ob out))
    (storable : Storable s.platform s.op [s.op.source] ob) :
    ∃ t, exec i s = .next t ∧ s.Wrote t ⟨s.op.dstAddr.toNat, ob⟩ (BitVec.ofNat 32 ob) 0 ∧
      ∀ (k : Nat) (b : Byte), out[k]? = some b → t.mem.read (s.op.dstAddr.toNat + k) = b := by
  obtain ⟨t, ran, wrote, mem⟩ := exec_of_storable draft storable
  exact ⟨t, ran, wrote, fun k b there => mem ▸ Memory.read_writeBytes_inside s.mem _ there⟩

/-- Settles O22: the draft holds the channel's bytes of every frame. -/
theorem extractTakesOneChannel : Obligations.ExtractTakesOneChannel := by
  intro bd i off s ⟨several, valid, whole, storable⟩ extract
  obtain ⟨t, ran, wrote, stored⟩ :=
    exec_of_channelDraft (extract_drafts_channel valid extract several whole) storable
  have inFrame := Extracts.channel_fits extract several
  exact ⟨t, ran, wrote, fun f hf j hj => stored _ _ (getElem?_pickFrames _ _ inFrame hf hj)⟩

/-- Settles O23: the draft holds the first two channels of every frame. -/
theorem red2TakesFirstTwoChannels : Obligations.Red2TakesFirstTwoChannels := by
  intro bd s ⟨several, valid, whole, storable⟩
  obtain ⟨t, ran, wrote, stored⟩ := exec_of_channelDraft (red2_drafts_channels valid several whole) storable
  have inFrame : 0 + 2 * bytesPerSample bd ≤ s.channels * bytesPerSample bd := by
    rw [Nat.zero_add]
    exact Nat.mul_le_mul_right _ (Nat.le_of_succ_le several)
  exact ⟨t, ran, wrote, fun f hf j hj => stored _ _ (getElem?_pickFrames _ _ inFrame hf hj)⟩

/-- Settles O24: the draft holds every sample twice. -/
theorem m2sDoublesEverySample : Obligations.M2sDoublesEverySample := by
  intro bd s ⟨valid, whole, storable⟩
  obtain ⟨t, ran, wrote, stored⟩ := exec_of_channelDraft (m2s_drafts_samples valid whole) storable
  refine ⟨t, ran, wrote, fun k hk j hj => ?_⟩
  obtain ⟨first, second⟩ := getElem?_doubleSamples s.mem s.op.srcAddr.toNat hk hj
  exact ⟨stored _ _ first, stored _ _ second⟩

/-- Settles O25: on an identity path the draft holds the source's bytes. -/
theorem channelIdentityCopies : Obligations.ChannelIdentityCopies := by
  intro bd i s ⟨valid, storable⟩ identity
  obtain ⟨t, ran, wrote, stored⟩ := exec_of_channelDraft (identity_drafts_source valid identity) storable
  rw [BitVec.ofNat_toNat, BitVec.setWidth_eq] at wrote
  exact ⟨t, ran, wrote, fun k hk => stored k _ (Memory.getElem?_readBytes s.mem _ _ k hk)⟩

/-! ### What the channel commands report -/

theorem extract_fails_of_draft {bd : BitVec 1} {s : State} {code : ErrCode}
    (draft : ∀ off, extractDraft (bytesPerSample bd) off s.platform s.mem s.op = .error code) :
    Fails (.extl bd) s code ∧ Fails (.extr bd) s code :=
  ⟨fails_of_draft (congrArg some (draft _)), fails_of_draft (congrArg some (draft _))⟩

/-- Settles O26: each error is a path of a draft. -/
theorem channelSourceErrors : Obligations.ChannelSourceErrors := by
  intro bd s fails src
  refine ⟨fun zero => ?_, fun invalid => ⟨fun nonzero => ?_, ?_, ?_⟩,
    fun valid => ⟨fun several split => ?_, fun split => ?_⟩⟩
  · exact extract_fails_of_draft fun _ => extractDraft_of_no_channel zero
  · exact extract_fails_of_draft fun _ => extractDraft_of_invalid nonzero invalid
  · exact fails_of_draft (congrArg some (red2Draft_of_invalid invalid))
  · exact fails_of_draft (congrArg some (m2sDraft_of_invalid invalid))
  · obtain ⟨left, right⟩ := extract_fails_of_draft fun off =>
      (extractDraft_of_channels (off := off) valid several).trans (channelPick_of_split_frame split)
    refine ⟨left, right, fun three => fails_of_draft (congrArg some ?_)⟩
    exact (red2Draft_of_channels valid three).trans (channelPick_of_split_frame split)
  · exact fails_of_draft (congrArg some (m2sDraft_of_split_sample valid split))

/-- Settles O27: on each path the draft reads the source alone and counts `ob` bytes. -/
theorem channelDestinationErrors : Obligations.ChannelDestinationErrors := by
  intro bd i s ob valid form fails
  have draft : ∃ out, dataDraft i s.platform s.mem s.op = some (channelDraft s.op ob out) := by
    rcases form with ⟨extract, nonzero, shape, rfl⟩ | ⟨rfl, few, rfl⟩ | ⟨rfl, several, whole, rfl⟩ | ⟨rfl, whole, rfl⟩
    · by_cases one : s.channels = 1
      · rw [one, Nat.div_one]
        exact ⟨_, identity_drafts_source valid (.inl ⟨extract, one⟩)⟩
      · obtain ⟨off, extract⟩ := exists_extracts extract
        exact ⟨_, extract_drafts_channel valid extract (by omega) (shape.resolve_left one)⟩
    · exact ⟨_, identity_drafts_source valid (.inr ⟨rfl, few⟩)⟩
    · exact ⟨_, red2_drafts_channels valid several whole⟩
    · exact ⟨_, m2s_drafts_samples valid whole⟩
  obtain ⟨out, draft⟩ := draft
  obtain ⟨capacity, range, overlap⟩ := fails_at_destination draft
  exact ⟨capacity, range, fun fits inside meets => overlap fits inside ⟨_, List.mem_singleton_self _, meets⟩⟩

/-! ### Extracting what was widened (R105) -/

theorem State.Wrote.errCode {s t : State} {dst : Region} {r0 r1 : Word} (wrote : s.Wrote t dst r0 r1) :
    t.errCode = .ok :=
  congrArg State.errCode wrote.1

theorem State.Wrote.result0 {s t : State} {dst : Region} {r0 r1 : Word} (wrote : s.Wrote t dst r0 r1) :
    t.result0 = r0 :=
  congrArg State.result0 wrote.1

/-- Both channels of frame `f` of what M2S wrote are sample `f` of its source. -/
theorem m2s_channel_eq_sample {bd : BitVec 1} {i : Instr} {off : Nat} {s t : State} (extract : Extracts bd i off)
    (ready : DoubleReady bd s) (ran : exec (.m2s bd) s = .next t) {f j : Nat} (hf : f < s.srcBytes / bytesPerSample bd)
    (hj : j < bytesPerSample bd) :
    t.mem.read (s.op.dstAddr.toNat + (f * (2 * bytesPerSample bd) + off + j)) =
      s.mem.read (s.op.srcAddr.toNat + (f * bytesPerSample bd + j)) := by
  obtain ⟨t', ran', -, samples⟩ := m2sDoublesEverySample bd s ready
  cases ran.symm.trans ran'
  obtain ⟨first, second⟩ := samples f hf j hj
  rcases extract with ⟨-, rfl⟩ | ⟨-, rfl⟩
  · rwa [show f * (2 * bytesPerSample bd) + 0 + j = 2 * f * bytesPerSample bd + j by ring]
  · rwa [show f * (2 * bytesPerSample bd) + bytesPerSample bd + j = (2 * f + 1) * bytesPerSample bd + j by ring]

/-- Settles O28: byte `k` lies in frame `k / bps`, whose channel is the mono sample it was widened from. -/
theorem extractAfterWidenIsIdentity : Obligations.ExtractAfterWidenIsIdentity := by
  intro bd i s t u extract doubled ran mem source two ready
  obtain ⟨off, extract⟩ := exists_extracts extract
  obtain ⟨v, ran', wrote, channel⟩ := extractTakesOneChannel bd i off u ready extract
  have srcAddr : u.op.srcAddr.toNat = s.op.dstAddr.toNat := congrArg Region.addr source
  have srcBytes : u.srcBytes = 2 * s.srcBytes := congrArg Region.len source
  rw [two, srcBytes, Nat.mul_div_cancel_left _ Nat.two_pos, BitVec.ofNat_toNat, BitVec.setWidth_eq] at wrote
  rw [two, srcBytes, Nat.mul_div_mul_left _ _ Nat.two_pos, srcAddr, mem] at channel
  refine ⟨v, ran', wrote.errCode, wrote.result0, fun k hk => ?_⟩
  have ⟨_, whole, _⟩ := doubled
  have hj : k % bytesPerSample bd < bytesPerSample bd := Nat.mod_lt k (bytesPerSample_pos bd)
  have hf : k / bytesPerSample bd < s.srcBytes / bytesPerSample bd :=
    Nat.div_lt_div_of_lt_of_dvd (Nat.dvd_of_mod_eq_zero whole) hk
  have byte := (channel _ hf _ hj).trans (m2s_channel_eq_sample extract doubled ran hf hj)
  rwa [Nat.div_add_mod'] at byte

end Sys2Proof.Machine
end

section
/-! PROOFS. The mixer (spec/42_mixer.md): what its commands write under every strategy, what each strategy computes, and
what they report. -/

namespace Sys2Proof.Machine

/-- The command mixes by this strategy. -/
abbrev MixesBy (i : Instr) (f : Strategy) : Prop := ∀ p m o, dataDraft i p m o = some (mixDraft f p m o)

theorem exists_mixesBy {i : Instr} (mixer : i = .mixext ∨ i = .mixadd ∨ i = .mixavg ∨ i = .mixwgt) :
    ∃ f, MixesBy i f := by
  rcases mixer with rfl | rfl | rfl | rfl <;> exact ⟨_, fun _ _ _ => rfl⟩

/-! ### What a mixer command writes -/

/-- The tracks' samples at index `k`, in table order (R122). -/
abbrev State.samplesAt (s : State) (k : Nat) : List Int :=
  (List.range s.rows).map fun r => sampleAt s.mem ((s.track r).region.addr + 2 * k)

/-- The tracks' weights, in table order (R121). -/
abbrev State.weights (s : State) : List Int := (List.range s.rows).map fun r => (s.track r).weight

/-- What the strategy computes from the tracks' samples is written at every sample index, wrapped. -/
theorem exec_of_mixReady {i : Instr} {f : Strategy} {s : State} (mixes : MixesBy i f) (ready : MixReady s) :
    ∃ t, exec i s = .next t ∧
      s.Wrote t ⟨s.op.dstAddr.toNat, (s.track 0).region.len⟩ (BitVec.ofNat 32 (s.track 0).region.len)
        (BitVec.ofNat 32 ((s.track 0).region.len / 2)) ∧
      ∀ k < (s.track 0).region.len / 2,
        sampleAt t.mem (s.op.dstAddr.toNat + 2 * k) = wrap16 (f (s.samplesAt k) s.weights) := by
  have ⟨_, _, even, _⟩ := ready
  refine ⟨_, ?_, wrote_of ?_, fun k hk => sampleAt_writeBytes s.mem _ (getElem?_mixed f ready hk)⟩
  · exact (exec_of_dataDraft (mixes ..)).trans (congrArg s.deliver (mixPlan_of_ready f ready))
  · rw [length_bytes16, length_mixed]
    omega

/-- Settles O29: the sum is wrapped once by the strategy, and again, without effect, by the 16-bit store. -/
theorem mixaddSumsAndWraps : Obligations.MixaddSumsAndWraps := by
  intro s ready
  obtain ⟨t, ran, wrote, samples⟩ := exec_of_mixReady (i := .mixadd) (fun _ _ _ => rfl) ready
  exact ⟨t, ran, wrote, fun k hk => (samples k hk).trans (wrap16_wrap16 _)⟩

/-! ### The extremes (R123) -/

theorem greatest_eq {xs : List Int} {mx : Int} (mem : mx ∈ xs) (upper : ∀ x ∈ xs, x ≤ mx) : greatest xs = mx := by
  cases xs with
  | nil => cases mem
  | cons x xs => exact Option.some.inj (List.max?_cons'.symm.trans (List.max?_eq_some_iff.mpr ⟨mem, upper⟩))

theorem least_eq {xs : List Int} {mn : Int} (mem : mn ∈ xs) (lower : ∀ x ∈ xs, mn ≤ x) : least xs = mn := by
  cases xs with
  | nil => cases mem
  | cons x xs => exact Option.some.inj (List.min?_cons'.symm.trans (List.min?_eq_some_iff.mpr ⟨mem, lower⟩))

theorem samplesAt_range {s : State} {k : Nat} {x : Int} (mem : x ∈ s.samplesAt k) : -32768 ≤ x ∧ x ≤ 32767 := by
  obtain ⟨r, -, rfl⟩ := List.mem_map.mp mem
  exact sampleAt_range ..

/-- Settles O30: the folds of the strategy are the extremes, and the common sample is a 16-bit number. -/
theorem mixextAddsExtremes : Obligations.MixextAddsExtremes := by
  intro s ready
  obtain ⟨t, ran, wrote, samples⟩ := exec_of_mixReady (i := .mixext) (fun _ _ _ => rfl) ready
  refine ⟨t, ran, wrote, ?_⟩
  intro k hk mx mn xs greatestMem leastMem bounds
  have strategy : mixExtreme xs s.weights = if mx ≠ mn then wrap16 (mx + mn) else mx := by
    rw [mixExtreme, greatest_eq greatestMem fun x hx => (bounds x hx).2, least_eq leastMem fun x hx => (bounds x hx).1]
  rw [samples k hk, strategy]
  split
  · exact wrap16_wrap16 _
  · obtain ⟨low, high⟩ := samplesAt_range greatestMem
    exact wrap16_eq_self low high

/-! ### The average (R125) -/

/-- A truncated average keeps the bounds of what it averages. -/
theorem tdiv_sum_bounds {xs : List Int} {lo hi : Int} (nonempty : 0 < xs.length)
    (bounds : ∀ x ∈ xs, lo ≤ x ∧ x ≤ hi) : lo ≤ xs.sum.tdiv xs.length ∧ xs.sum.tdiv xs.length ≤ hi := by
  have pos : (0 : Int) < xs.length := by exact_mod_cast nonempty
  constructor
  · apply Int.le_tdiv_of_mul_le pos
    simpa [mul_comm] using List.card_nsmul_le_sum xs lo fun x hx => (bounds x hx).1
  · calc xs.sum.tdiv xs.length
      _ ≤ (xs.length * hi).tdiv xs.length :=
        Int.tdiv_le_tdiv pos (by simpa using List.sum_le_card_nsmul xs hi fun x hx => (bounds x hx).2)
      _ = hi := Int.mul_tdiv_cancel_left hi pos.ne'

/-- Settles O31: the average of 16-bit samples is a 16-bit number, so the store wraps nothing. -/
theorem mixavgDividesTowardZero : Obligations.MixavgDividesTowardZero := by
  intro s ready
  obtain ⟨t, ran, wrote, samples⟩ := exec_of_mixReady (i := .mixavg) (fun _ _ _ => rfl) ready
  obtain ⟨⟨nonempty, -⟩, -⟩ := ready
  refine ⟨t, ran, wrote, fun k hk => ?_⟩
  have count : (s.samplesAt k).length = s.rows := by simp
  obtain ⟨low, high⟩ := tdiv_sum_bounds (count ▸ nonempty) fun x => samplesAt_range (s := s) (k := k)
  rw [samples k hk, mixAverage, tdiv, wrap16_eq_self low high, count]

/-! ### The weighted sum (R126) -/

/-- Settles O32: the strategy pairs the samples with the weights of their tracks. -/
theorem mixwgtWeighsInFixedPoint : Obligations.MixwgtWeighsInFixedPoint := by
  intro s ready
  obtain ⟨t, ran, wrote, samples⟩ := exec_of_mixReady (i := .mixwgt) (fun _ _ _ => rfl) ready
  refine ⟨t, ran, wrote, fun k hk => ?_⟩
  rw [samples k hk, mixWeight, wrap16_wrap16, List.zipWith_map, List.zipWith_self]
  rfl

/-! ### What a mixer command reports -/

/-- What a mixer command is about to write once its parameter, source and shape checks pass. -/
def mixerDraft (f : Strategy) (s : State) : Draft :=
  let n0 := (s.track 0).region.len
  let tracks := (List.range s.rows).map s.track
  ⟨tableRegion s.op :: tracks.map (·.region), n0,
    bytes16 (mixed f (tracks.map (trackSamples s.mem)) (tracks.map (·.weight)) (n0 / 2)),
    BitVec.ofNat 32 n0, BitVec.ofNat 32 (n0 / 2)⟩

/-- The checks of R120 in their order. -/
theorem mixDraft_eq (f : Strategy) (s : State) :
    mixDraft f s.platform s.mem s.op =
      if s.rows = 0 ∨ 256 < s.rows then .error .badParam
      else if (tableRegion s.op).valid s.platform = false then .error .range
      else if ∃ r < s.rows, (s.track r).region.valid s.platform = false then .error .range
      else if ¬ ∀ r < s.rows, (s.track r).region.len = (s.track 0).region.len then .error .shape
      else if (s.track 0).region.len % 2 = 1 then .error .shape
      else .ok (mixerDraft f s) := by
  have anyTrack (q : TrackEntry → Bool) :
      (trackTable s.mem s.op.srcAddr.toNat s.rows).any q = true ↔ ∃ r < s.rows, q (s.track r) = true := by
    simp [trackTable]
  simp only [mixDraft, Config.maxTracks, gt_iff_lt, Bool.not_eq_true', tableRegion, anyTrack, bne_iff_ne, ne_eq,
    Nat.mod_two_not_eq_zero, not_forall, exists_prop]
  rfl

/-- The output of a mixer command meets the table or a track where it meets a region that the command reads. -/
theorem exists_mem_mixerDraft_reads {f : Strategy} {s : State} {dst : Region}
    (meets : dst.overlaps (tableRegion s.op) = true ∨ ∃ r < s.rows, dst.overlaps (s.track r).region = true) :
    ∃ q ∈ (mixerDraft f s).reads, dst.overlaps q = true := by
  simpa [mixerDraft] using meets

/-- Settles O33: each error is a branch of the draft or of the destination checks. -/
theorem mixerErrors : Obligations.MixerErrors := by
  intro i s mixer fails n0 same dst
  obtain ⟨f, mixes⟩ := exists_mixesBy mixer
  have raises {code : ErrCode} (draft : mixDraft f s.platform s.mem s.op = .error code) : fails code :=
    fails_of_draft ((mixes ..).trans (congrArg some draft))
  have draft := mixDraft_eq f s
  refine ⟨fun count => ?_, fun low high invalid => ?_, fun low high table track => ?_, fun sources => ?_⟩
  · exact raises (draft.trans (if_pos count))
  · rw [if_neg (by omega), if_pos invalid] at draft
    exact raises draft
  · rw [if_neg (by omega), if_neg (by simp [table]), if_pos track] at draft
    exact raises draft
  · obtain ⟨low, high, table, tracks⟩ := sources
    have noneInvalid : ¬ ∃ r < s.rows, (s.track r).region.valid s.platform = false := by simpa using tracks
    rw [if_neg (by omega), if_neg (by simp [table]), if_neg noneInvalid] at draft
    refine ⟨fun unequal => ?_, fun equal odd => ?_, fun equal even => ?_⟩
    · exact raises (draft.trans (if_pos unequal))
    · exact raises (draft.trans ((if_neg (not_not.mpr equal)).trans (if_pos odd)))
    · rw [if_neg (not_not.mpr equal), if_neg (Nat.mod_two_ne_one.mpr even)] at draft
      obtain ⟨capacity, range, overlap⟩ := fails_at_destination ((mixes ..).trans (congrArg some draft))
      exact ⟨capacity, range, fun fits valid meets => overlap fits valid (exists_mem_mixerDraft_reads meets)⟩

end Sys2Proof.Machine
end

section
/-! PROOFS. The ADTS framer (spec/43_adts.md): the header that ADTSENC writes and ADTSPARSE reads, what both report, and
the rate table of SFILOOKUP. -/

namespace Sys2Proof.Machine

/-! ### What ADTSENC writes and reports (R140, R144) -/

/-- What ADTSENC is about to write once its parameter checks pass. -/
def headerDraft (prof : BitVec 2) (sfi : BitVec 4) (cc : BitVec 3) (o : OperandRegs) : Draft :=
  let fl := o.param0.toNat + 7
  ⟨[], 7, adtsHeader o.adtsId prof sfi cc (BitVec.ofNat 13 fl), BitVec.ofNat 32 fl, 0⟩

/-- The three parameter checks of R140 raise one error. -/
theorem adtsencDraft_eq (prof : BitVec 2) (sfi : BitVec 4) (cc : BitVec 3) (o : OperandRegs) :
    adtsencDraft prof sfi cc o =
      if prof = 3 ∨ 12 < sfi.toNat ∨ 8191 < o.param0.toNat + 7 then .error .badParam
      else .ok (headerDraft prof sfi cc o) := by
  rw [ite_or, ite_or]
  rfl

/-- The header's bytes as R144 writes them. -/
theorem adtsHeader_bytes (id : BitVec 1) (prof : BitVec 2) (sfi : BitVec 4) (cc : BitVec 3) {fl : Nat}
    (inField : fl ≤ 8191) :
    (adtsHeader id prof sfi cc (BitVec.ofNat 13 fl)).map BitVec.toNat =
      [0xFF, 0xF0 ||| id.toNat <<< 3 ||| 0x01, prof.toNat <<< 6 ||| sfi.toNat <<< 2 ||| cc.toNat >>> 2,
        (cc.toNat &&& 3) <<< 6 ||| fl >>> 11, (fl >>> 3) &&& 0xFF, (fl &&& 7) <<< 5 ||| 0x1F, 0xFC] := by
  have frameLength : (BitVec.ofNat 13 fl).toNat = fl := Nat.mod_eq_of_lt (by omega)
  have ccTop : cc.toNat >>> 2 < 2 ^ 1 := by omega
  have flTop : fl >>> 11 < 2 ^ 2 := by omega
  have mask2 (x : Nat) : x &&& 3 = x % 4 := Nat.and_two_pow_sub_one_eq_mod x 2
  have mask3 (x : Nat) : x &&& 7 = x % 8 := Nat.and_two_pow_sub_one_eq_mod x 3
  have mask8 (x : Nat) : x &&& 255 = x % 256 := Nat.and_two_pow_sub_one_eq_mod x 8
  simp only [adtsHeader, List.map_cons, List.map_nil, BitVec.toNat_append, BitVec.extractLsb'_toNat, frameLength,
    Nat.mod_eq_of_lt ccTop, Nat.mod_eq_of_lt flTop, Nat.shiftLeft_or_distrib, ← Nat.shiftLeft_add]
  simp [mask2, mask3, mask8]

/-- Byte `k` of what was written, as a number. -/
theorem Memory.toNat_read_writeBytes (m : Memory) (a : Nat) {bytes : List Byte} {values : List Nat} {k v : Nat}
    (written : bytes.map BitVec.toNat = values) (value : values[k]? = some v) :
    ((m.writeBytes a bytes).read (a + k)).toNat = v := by
  rw [← written, List.getElem?_map, Option.map_eq_some_iff] at value
  obtain ⟨b, byte, rfl⟩ := value
  rw [Memory.read_writeBytes_inside m a byte]

/-- Settles O36: the draft is the header of R144, and each error is a branch of it or of the destination checks. -/
theorem adtsencWritesHeaderOrFails : Obligations.AdtsencWritesHeaderOrFails := by
  intro prof sfi cc s fl fails
  have draft := adtsencDraft_eq prof sfi cc s.op
  have stands (notReserved : prof ≠ 3) (index : sfi.toNat ≤ 12) (length : fl ≤ 8191) :
      dataDraft (.adtsenc prof sfi cc) s.platform s.mem s.op = some (.ok (headerDraft prof sfi cc s.op)) :=
    congrArg some (draft.trans (if_neg (by simp only [notReserved, false_or]; omega)))
  refine ⟨fun ⟨notReserved, index, length, storable⟩ => ?_, fun bad => ?_, fun notReserved index length => ?_⟩
  · obtain ⟨t, ran, wrote, mem⟩ := exec_of_storable (stands notReserved index length) storable
    refine ⟨t, ran, wrote, ?_⟩
    rw [mem]
    have header := adtsHeader_bytes s.op.adtsId prof sfi cc length
    have byte {k v : Nat} := Memory.toNat_read_writeBytes s.mem s.op.dstAddr.toNat (k := k) (v := v) header
    exact ⟨byte rfl, byte rfl, byte rfl, byte rfl, byte rfl, byte rfl, byte rfl⟩
  · exact fails_of_draft (congrArg some (draft.trans (if_pos bad)))
  · obtain ⟨capacity, range, -⟩ := fails_at_destination (stands notReserved index length)
    exact ⟨capacity, range⟩

/-! ### What ADTSPARSE reads and reports (R141) -/

/-- RESULT1's fields at bits 3:0, 5:4, 10:8 and 12. -/
theorem HeaderFields.packed_toNat (f : HeaderFields) :
    f.packed.toNat = f.sfi.toNat + f.prof.toNat * 16 + f.cc.toNat * 256 + f.id.toNat * 4096 := by
  simp only [HeaderFields.packed, BitVec.toNat_setWidth, toNat_append_add, BitVec.ofNat_eq_ofNat, BitVec.toNat_ofNat]
  omega

/-- A header that R141 accepts: the syncword, no layer and no CRC. -/
theorem headerFields_valid_iff (h : List Byte) :
    let b := fun k : Nat => (h.getD k 0).toNat
    ((headerFields h).sync = 0xFFF ∧ (headerFields h).layer = 0 ∧ (headerFields h).pa = 1) ↔
      b 0 = 0xFF ∧ b 1 / 16 = 0xF ∧ b 1 / 2 % 4 = 0 ∧ b 1 % 2 = 1 := by
  simp only [headerFields, ← BitVec.toNat_inj, toNat_append_add, toNat_extractLsb'_div,
    BitVec.ofNat_eq_ofNat, BitVec.toNat_ofNat]
  omega

theorem headerFields_fl_toNat (h : List Byte) :
    let b := fun k : Nat => (h.getD k 0).toNat
    (headerFields h).fl.toNat = b 3 % 4 * 2048 + b 4 * 8 + b 5 / 32 := by
  simp only [headerFields, toNat_append_add, toNat_extractLsb'_div]
  omega

theorem headerFields_packed_toNat (h : List Byte) :
    let b := fun k : Nat => (h.getD k 0).toNat
    (headerFields h).packed.toNat =
      b 2 / 4 % 16 + b 2 / 64 * 16 + (b 2 % 2 * 4 + b 3 / 64) * 256 + b 1 / 8 % 2 * 4096 := by
  simp only [HeaderFields.packed_toNat, headerFields, toNat_append_add, toNat_extractLsb'_div]
  omega

theorem parseHeader_eq (h : List Byte) :
    let b := fun k : Nat => (h.getD k 0).toNat
    parseHeader h =
      if b 0 = 0xFF ∧ b 1 / 16 = 0xF ∧ b 1 / 2 % 4 = 0 ∧ b 1 % 2 = 1 then
        .ok ((headerFields h).fl.setWidth 32, (headerFields h).packed)
      else .error .badSync := by
  simp only [parseHeader, ← headerFields_valid_iff, ne_eq, ← not_and_or, ite_not]

theorem Memory.getD_readBytes (m : Memory) (a : Nat) {n k : Nat} (inside : k < n) :
    (m.readBytes a n).getD k 0 = m.read (a + k) := by
  rw [List.getD_eq_getElem?_getD, Memory.getElem?_readBytes m a n k inside, Option.getD_some]

section
variable {s : State}

/-- ADTSPARSE raises what its plan raises. -/
theorem adtsparse_fails_of_plan {code : ErrCode} (plan : adtsparsePlan s.platform s.mem s.op = .error code) :
    Fails .adtsparse s code :=
  ⟨s.fail code, congrArg s.answer plan, rfl⟩

theorem adtsparsePlan_of_short (short : s.srcBytes < 7) : adtsparsePlan s.platform s.mem s.op = .error .shape :=
  if_pos short

theorem adtsparsePlan_of_invalid (long : 7 ≤ s.srcBytes)
    (invalid : Region.valid ⟨s.op.srcAddr.toNat, 7⟩ s.platform = false) :
    adtsparsePlan s.platform s.mem s.op = .error .range := by
  rw [adtsparsePlan, adtsHeaderBytes, if_neg (Nat.not_lt.mpr long), invalid]
  rfl

theorem adtsparsePlan_of_valid (long : 7 ≤ s.srcBytes)
    (valid : Region.valid ⟨s.op.srcAddr.toNat, 7⟩ s.platform = true) :
    adtsparsePlan s.platform s.mem s.op = parseHeader (s.mem.readBytes s.op.srcAddr.toNat 7) := by
  rw [adtsparsePlan, adtsHeaderBytes, if_neg (Nat.not_lt.mpr long), valid]
  rfl

end

/-- Settles O38: each error is a branch of the plan, and the fields are cut from the seven bytes of the source. -/
theorem adtsparseReadsHeader : Obligations.AdtsparseReadsHeader := by
  intro s h source fails
  refine ⟨fun short => ?_, fun long invalid => ?_, fun long valid => ?_⟩
  · exact adtsparse_fails_of_plan (adtsparsePlan_of_short short)
  · exact adtsparse_fails_of_plan (adtsparsePlan_of_invalid long invalid)
  · have plan := adtsparsePlan_of_valid long valid
    have byte {k : Nat} (inside : k < 7) : ((s.mem.readBytes s.op.srcAddr.toNat 7).getD k 0).toNat = h k :=
      congrArg BitVec.toNat (Memory.getD_readBytes _ _ inside)
    have length := headerFields_fl_toNat (s.mem.readBytes s.op.srcAddr.toNat 7)
    have fields := headerFields_packed_toNat (s.mem.readBytes s.op.srcAddr.toNat 7)
    simp only [parseHeader_eq, byte, Nat.reduceLT] at plan length fields
    refine ⟨fun header => ?_, fun noHeader => ?_⟩
    · rw [if_pos header] at plan
      refine ⟨_, congrArg s.answer plan, rfl, ?_, fields⟩
      exact (BitVec.toNat_setWidth_of_le (by decide)).trans length
    · exact adtsparse_fails_of_plan (plan.trans (if_neg noHeader))

/-! ### Parsing what was encoded (R143) -/

theorem headerFields_adtsHeader (id : BitVec 1) (prof : BitVec 2) (sfi : BitVec 4) (cc : BitVec 3) (fl : BitVec 13) :
    headerFields (adtsHeader id prof sfi cc fl) = ⟨0xFFF, id, 0, 1, prof, sfi, cc, fl⟩ := by
  simp only [headerFields, adtsHeader, HeaderFields.mk.injEq, List.getD_cons_succ, List.getD_cons_zero,
    ← BitVec.toNat_inj, toNat_append_add, toNat_extractLsb'_div, BitVec.ofNat_eq_ofNat, BitVec.toNat_ofNat]
  omega

theorem parseHeader_adtsHeader (id : BitVec 1) (prof : BitVec 2) (sfi : BitVec 4) (cc : BitVec 3) (fl : BitVec 13) :
    parseHeader (adtsHeader id prof sfi cc fl) =
      .ok (fl.setWidth 32, HeaderFields.packed ⟨0xFFF, id, 0, 1, prof, sfi, cc, fl⟩) := by
  simp [parseHeader, headerFields_adtsHeader]

theorem Memory.readBytes_writeBytes (m : Memory) (a : Nat) (bytes : List Byte) :
    (m.writeBytes a bytes).readBytes a bytes.length = bytes := by
  apply List.ext_getElem (Memory.length_readBytes ..)
  intro k read written
  have byte := List.getElem?_eq_getElem written
  rw [← Option.some_inj, ← List.getElem?_eq_getElem read, Memory.getElem?_readBytes _ _ _ _ written,
    Memory.read_writeBytes_inside m a byte]

theorem or_shiftLeft_of_lt {low n : Nat} (fits : low < 2 ^ n) (high : Nat) :
    low ||| high <<< n = low + high * 2 ^ n := by
  rw [Nat.or_comm, ← Nat.shiftLeft_add_eq_or_of_lt fits, Nat.shiftLeft_eq, Nat.add_comm]

/-- The fields of RESULT1 do not meet, so their union is their sum. -/
theorem HeaderFields.packed_toNat_eq_or (f : HeaderFields) :
    f.packed.toNat = f.sfi.toNat ||| f.prof.toNat <<< 4 ||| f.cc.toNat <<< 8 ||| f.id.toNat <<< 12 := by
  simp (disch := omega) only [HeaderFields.packed_toNat, or_shiftLeft_of_lt, Nat.reducePow]

/-- What a successful ADTSENC leaves. -/
theorem adtsenc_ok {prof : BitVec 2} {sfi : BitVec 4} {cc : BitVec 3} {s t : State}
    (ran : exec (.adtsenc prof sfi cc) s = .next t) (ok : t.errCode = .ok) :
    s.op.param0.toNat + 7 ≤ 8191 ∧ Region.valid ⟨s.op.dstAddr.toNat, 7⟩ s.platform = true ∧
      t.mem = s.mem.writeBytes s.op.dstAddr.toNat
        (adtsHeader s.op.adtsId prof sfi cc (BitVec.ofNat 13 (s.op.param0.toNat + 7))) := by
  have draft : dataDraft (.adtsenc prof sfi cc) s.platform s.mem s.op = some (adtsencDraft prof sfi cc s.op) := rfl
  rw [exec_of_dataDraft draft] at ran
  rcases deliver_cases ran with ⟨e, raised, rfl⟩ | ⟨out, finished, rfl⟩
  · exact absurd ok (finish_error_ne_ok draft raised)
  · obtain ⟨d, stands, ⟨-, valid, -⟩, rfl⟩ := finish_eq_ok.mp finished
    rw [adtsencDraft_eq] at stands
    split at stands
    · cases stands
    · next good =>
      cases stands
      exact ⟨by omega, valid, rfl⟩

/-- Settles O39: the source of the parse is the header that was written, whose fields are those that went in. -/
theorem parseInvertsEncode : Obligations.ParseInvertsEncode := by
  intro prof sfi cc s t u ran ok mem platform source long
  obtain ⟨inField, valid, written⟩ := adtsenc_ok ran ok
  have header : u.mem.readBytes u.op.srcAddr.toNat 7 =
      adtsHeader s.op.adtsId prof sfi cc (BitVec.ofNat 13 (s.op.param0.toNat + 7)) := by
    rw [mem, source, written]
    exact Memory.readBytes_writeBytes ..
  have plan := adtsparsePlan_of_valid long (by rwa [source, platform])
  rw [header, parseHeader_adtsHeader] at plan
  refine ⟨_, congrArg u.answer plan, rfl, ?_, HeaderFields.packed_toNat_eq_or _⟩
  exact (BitVec.toNat_setWidth_of_le (by decide)).trans (Nat.mod_eq_of_lt (Nat.lt_succ_of_le inField))

/-! ### The rate table (R86, R142) -/

theorem exec_sfilookup (s : State) :
    exec .sfilookup s =
      .next (s.complete .ok ((sfiOf s.op.param0).1.setWidth 32) ((bit (sfiOf s.op.param0).2).setWidth 32)) := rfl

theorem sfiOf_of_notMem {rate : Word} (absent : rate ∉ sfiTable) : sfiOf rate = (4, true) := by
  have none : sfiTable.findIdx? (fun r => r == rate) = none := by
    rw [List.findIdx?_eq_none_iff]
    exact fun r mem => beq_false_of_ne (ne_of_mem_of_not_mem mem absent)
  rw [sfiOf, none]

/-- Settles O40: the rows of the statement are the model's table, evaluated row by row. -/
theorem sfilookupFollowsTable : Obligations.SfilookupFollowsTable := by
  intro s table answers
  have rates : sfiTable = table.map fun e => BitVec.ofNat 32 e.2 := rfl
  have found : ∀ e ∈ table, sfiOf (BitVec.ofNat 32 e.2) = (BitVec.ofNat 4 e.1, false) := by decide
  have index : ∀ e ∈ table, (BitVec.ofNat 4 e.1).setWidth 32 = BitVec.ofNat 32 e.1 := by decide
  have rate : ∀ e ∈ table, (BitVec.ofNat 32 e.2).toNat = e.2 := by decide
  simp only [answers, exec_sfilookup]
  refine ⟨fun e row asked => ?_, fun absent => ?_⟩
  · have param0 : s.op.param0 = BitVec.ofNat 32 e.2 := BitVec.eq_of_toNat_eq (asked.trans (rate e row).symm)
    rw [param0, found e row, index e row]
    rfl
  · have missing : s.op.param0 ∉ sfiTable := by
      rw [rates, List.mem_map]
      rintro ⟨e, row, asked⟩
      exact absent e row (asked ▸ rate e row)
    rw [sfiOf_of_notMem missing]
    rfl

end Sys2Proof.Machine
end

section
/-! PROOFS. The session unit (spec/44_session_queue.md): what an event can do to it, with the condition under which it
does, and from that the session's state machine and invariant. -/

namespace Sys2Proof.Machine

/-! ### The effect of an event on the session unit -/

/-- SPREPARE accepts this configuration of itself (R160). -/
abbrev AcceptsConfig (o : OperandRegs) (c : BitVec 3) : Prop :=
  chcfgOf o.scfgCh = some c ∧ o.scfgRate ≠ 0 ∧ modeProfile o.scfgMode ≠ 3

/-- What an event other than reset can leave of the session unit of the state `s`, and when it does. -/
inductive SessionEffect (s : State) : State → Prop where
  /-- The session record, the queue and the codec ports are as before. -/
  | kept {t : State} (sess : t.sess = s.sess) (queue : t.queue = s.queue) (codecIn : t.codecIn = s.codecIn)
      (codecOut : t.codecOut = s.codecOut) (platform : t.platform = s.platform) : SessionEffect s t
  | prepared (req : ConfigRequest) (o : OperandRegs) (c : BitVec 3)
      (closed : s.sess.state = .idle ∨ s.sess.state = .released) (accepted : AcceptsConfig o c) :
      SessionEffect s (((s.askedConfigure req).latchConfig o c).complete .ok 0 0)
  | autostarted (req : ConfigRequest) (o : OperandRegs) (c : BitVec 3)
      (closed : s.sess.state = .idle ∨ s.sess.state = .released) (accepted : AcceptsConfig o c) :
      SessionEffect s (((s.askedConfigure req).latchConfig o c).startBody.complete .ok 0 0)
  | started (prepared : s.sess.state = .prepared) : SessionEffect s (s.startBody.complete .ok 0 0)
  | submitted (c : Chunk) (r0 : Word) (running : s.sess.state = .running) (valid : c.region.valid s.platform = true)
      (room : s.queue.length < Config.queueDepth) : SessionEffect s ((s.enqueue c).complete .ok r0 0)
  | stopped (running : s.sess.state = .running) : SessionEffect s (s.requestStop.complete .ok 0 0)
  | fed (d : Chunk) (rest : List Chunk) (active : s.sess.active = true) (inputOpen : s.sess.inDone = false)
      (head : s.queue = d :: rest) : SessionEffect s (s.feed d rest)
  | fedEnd (active : s.sess.active = true) (empty : s.queue = []) (stopping : s.sess.stopReq = true) :
      SessionEffect s s.feedEnd
  | drained (b : CodecOutput) (rest : List CodecOutput) (active : s.sess.active = true)
      (head : s.codecOut = b :: rest) :
      SessionEffect s ((({ s with codecOut := rest } : State).emitBuffer b.bytes).markOutDone b.eos)
  | released (draining : s.sess.state = .draining) (inDone : s.sess.inDone = true) :
      SessionEffect s
        { s with sess := .cleared, codecCalls := s.codecCalls ++ [.release], outLog := s.outLog ++ [.sessionEnd] }
  | produced (bytes : List Byte) (eos : Bool) (active : s.sess.active = true) (notLast : s.lastProduced = false)
      (marked : eos = true → s.endMarkerAccepted = true) :
      SessionEffect s { s with codecOut := s.codecOut ++ [{ bytes := bytes, eos := eos }] }

theorem SessionEffect.refl (s : State) : SessionEffect s s := .kept rfl rfl rfl rfl rfl

theorem SameSession.effect {s t : State} (same : SameSession s t) : SessionEffect s t :=
  .kept same.sess same.queue same.codecIn same.codecOut same.platform

theorem prepare_session {s : State} (closed : s.sess.state = .idle ∨ s.sess.state = .released) (o : OperandRegs) :
    SessionEffect s (s.prepare o) := by
  rcases prepare_cases s o with h | h | ⟨c, chcfg, rate, profile, h | h⟩ <;> rw [h]
  · exact .kept rfl rfl rfl rfl rfl
  · exact .kept rfl rfl rfl rfl rfl
  · exact .prepared _ o c closed ⟨chcfg, rate, profile⟩
  · exact .autostarted _ o c closed ⟨chcfg, rate, profile⟩

theorem submit_session {s : State} (running : s.sess.state = .running) (c : Chunk) : SessionEffect s (s.submit c) := by
  rcases submit_cases s c with ⟨code, h⟩ | ⟨-, valid, room, h⟩ <;> rw [h]
  · exact .kept rfl rfl rfl rfl rfl
  · exact .submitted c _ running valid room

theorem exec_session {i : Instr} {s t : State} (h : exec i s = .next t) : SessionEffect s t := by
  rcases exec_cases h with ⟨code, rfl⟩ | ⟨r0, r1, rfl⟩ | ⟨out, -, rfl⟩ | ⟨-, closed, rfl⟩ | ⟨-, prepared, rfl⟩ |
    ⟨-, running, rfl⟩ | ⟨-, running, rfl⟩
  · exact .kept rfl rfl rfl rfl rfl
  · exact .kept rfl rfl rfl rfl rfl
  · exact .kept rfl rfl rfl rfl rfl
  · exact prepare_session closed s.op
  · exact .started prepared
  · exact submit_session running _
  · exact .stopped running

theorem feederStep_session (accepts : Bool) (s : State) : SessionEffect s (feederStep accepts s) := by
  rcases feederStep_cases accepts s with h | ⟨active, inputOpen, -, ⟨d, rest, head, h⟩ | ⟨empty, stopping, h⟩⟩ <;>
    rw [h]
  · exact .refl s
  · exact .fed d rest active inputOpen head
  · exact .fedEnd active empty stopping

theorem drainerStep_session (s : State) : SessionEffect s (drainerStep s) := by
  rcases drainerStep_cases s with h | ⟨b, rest, head, active, -, h⟩ <;> rw [h]
  · exact .refl s
  · exact .drained b rest active head

theorem releaseStep_session (s : State) : SessionEffect s (releaseStep s) := by
  rcases releaseStep_cases s with h | ⟨draining, inDone, -, -, h⟩ <;> rw [h]
  · exact .refl s
  · exact .released draining inDone

theorem codecProduceStep_session (bytes : List Byte) (eos : Bool) (s : State) :
    SessionEffect s (codecProduceStep bytes eos s) := by
  rcases codecProduceStep_cases bytes eos s with h | ⟨active, notLast, marked, h⟩ <;> rw [h]
  · exact .refl s
  · exact .produced bytes eos active notLast marked

theorem runEvent_session {e : Event} {s t : State} (h : runEvent e s = .next t) :
    SessionEffect s t ∨ (e = .reset ∧ t = resetStep s) := by
  rcases runEvent_cases h with same | ⟨-, p, i, -, -, ran⟩ | ⟨accepts, -, rfl⟩ | ⟨-, rfl⟩ | ⟨-, rfl⟩ |
    ⟨bytes, eos, -, rfl⟩ | reset
  · exact .inl same.effect
  · exact .inl (exec_session ran)
  · exact .inl (feederStep_session accepts s)
  · exact .inl (drainerStep_session s)
  · exact .inl (releaseStep_session s)
  · exact .inl (codecProduceStep_session bytes eos s)
  · exact .inr reset

/-- Draining a buffer leaves the session but the count of messages and OUT_DONE. -/
theorem drained_eq (s : State) (rest : List CodecOutput) (b : CodecOutput) :
    ∃ log n code, (({ s with codecOut := rest } : State).emitBuffer b.bytes).markOutDone b.eos =
      { s with codecOut := rest, outLog := log, serr := code,
               sess := { s.sess with emitCount := n, outDone := b.eos || s.sess.outDone } } := by
  obtain ⟨log, n, code, emitted⟩ := emitBuffer_frame { s with codecOut := rest } b.bytes
  rw [emitted, markOutDone_eq]
  exact ⟨_, n, code, rfl⟩

/-! ### The session's state machine (R160, R161, R163, R177) -/

/-- The transitions of the state table, and staying in a state. -/
def sessionMoves : List (SessState × SessState) :=
  [(.idle, .idle), (.idle, .prepared), (.idle, .running), (.prepared, .prepared), (.prepared, .running),
   (.running, .running), (.running, .draining), (.draining, .draining), (.draining, .released), (.released, .released),
   (.released, .prepared), (.released, .running)]

theorem stays_mem_sessionMoves (x : SessState) : (x, x) ∈ sessionMoves := by cases x <;> decide

theorem SessionEffect.move {s t : State} (h : SessionEffect s t) : (s.sess.state, t.sess.state) ∈ sessionMoves := by
  have stays := stays_mem_sessionMoves s.sess.state
  have moves {x y : SessState} (before : s.sess.state = x) (listed : (x, y) ∈ sessionMoves) :
      (s.sess.state, y) ∈ sessionMoves := before ▸ listed
  cases h with
  | kept sess => rw [sess]; exact stays
  | prepared req o c closed =>
    rcases closed with idle | released
    · exact moves (y := .prepared) idle (by decide)
    · exact moves (y := .prepared) released (by decide)
  | autostarted req o c closed =>
    rcases closed with idle | released
    · exact moves (y := .running) idle (by decide)
    · exact moves (y := .running) released (by decide)
  | started prepared => exact moves (y := .running) prepared (by decide)
  | stopped running => exact moves (y := .draining) running (by decide)
  | released draining => exact moves (y := .released) draining (by decide)
  | drained b rest =>
    obtain ⟨log, n, code, h⟩ := drained_eq s rest b
    rw [h]
    exact stays
  | submitted | fed | fedEnd | produced => exact stays

/-- Settles O55, from the effect of the next event and its condition on the session state. -/
theorem sessionTransitions : Obligations.SessionTransitions := by
  intro s t h notReset
  obtain ⟨same, -⟩ := started_frame s
  rw [← same.sess]
  rcases runEvent_session h with effect | ⟨reset, -⟩
  · exact effect.move
  · exact absurd reset notReset

/-! ### The session unit's invariant (R160 to R178) -/

/-- What the invariant says while no session is active: nothing is queued and no flag is set. -/
def State.Quiet (s : State) : Prop :=
  s.queue = [] ∧ s.sess.stopReq = false ∧ s.sess.inDone = false ∧ s.sess.outDone = false

theorem Session.active_iff {x : Session} : x.active = true ↔ x.state = .running ∨ x.state = .draining :=
  decide_eq_true_iff

theorem sessionInv_iff_of_inactive {s : State} (inactive : s.sess.active = false) :
    s.SessionInv ↔ s.sess.ConfigInv ∧ s.Quiet := by
  have notDraining : s.sess.state ≠ .draining := fun draining => by
    simp [Session.active, draining] at inactive
  constructor
  · rintro ⟨⟨-, -, queued⟩, config, ⟨stop, input, output⟩, -⟩
    have inputOpen : s.sess.inDone = false := Bool.eq_false_iff.mpr fun inDone => notDraining (input inDone).1
    refine ⟨config, ?_, ?_, inputOpen, ?_⟩
    · by_contra nonempty
      simp [queued nonempty] at inactive
    · exact Bool.eq_false_iff.mpr fun stopReq => notDraining (stop.mp stopReq)
    · exact Bool.eq_false_iff.mpr fun outDone => absurd (inputOpen.symm.trans (output outDone).1) (by decide)
  · rintro ⟨config, queue, stopReq, inDone, outDone⟩
    refine ⟨⟨?_, ?_, ?_⟩, config, ⟨?_, ?_, ?_⟩, ?_⟩
    · simp [queue]
    · simp [queue]
    · simp [queue]
    · simp [stopReq, notDraining]
    · simp [inDone]
    · simp [outDone]
    · simp [State.PortInv, inactive]

section
variable {s t : State}

theorem State.SessionInv.congr (inv : s.SessionInv) (sess : t.sess = s.sess) (queue : t.queue = s.queue)
    (codecIn : t.codecIn = s.codecIn) (codecOut : t.codecOut = s.codecOut) (platform : t.platform = s.platform) :
    t.SessionInv := by
  unfold State.SessionInv State.QueueInv State.FlagInv State.PortInv State.endMarkerAccepted at inv ⊢
  rwa [sess, queue, codecIn, codecOut, platform]

theorem State.SessionInv.latchConfig {o : OperandRegs} {c : BitVec 3} (inv : s.SessionInv)
    (closed : s.sess.state = .idle ∨ s.sess.state = .released) (accepted : AcceptsConfig o c) :
    (s.latchConfig o c).SessionInv := by
  have inactive : s.sess.active = false := by rcases closed with state | state <;> simp [Session.active, state]
  obtain ⟨-, quiet⟩ := (sessionInv_iff_of_inactive inactive).mp inv
  obtain ⟨chcfg, rate, profile⟩ := accepted
  exact (sessionInv_iff_of_inactive rfl).mpr ⟨fun _ _ => ⟨rate, chcfg, profile, rfl, rfl⟩, quiet⟩

theorem State.SessionInv.startBody (inv : s.SessionInv) (prepared : s.sess.state = .prepared) :
    s.startBody.SessionInv := by
  obtain ⟨-, config, -, -⟩ := inv
  refine ⟨⟨Nat.zero_le _, nofun, fun _ => rfl⟩, fun _ _ => ?_, ⟨by simp, nofun, nofun⟩,
    fun _ => ⟨rfl, nofun, nofun, ?_⟩⟩
  · exact config (by simp [prepared]) (by simp [prepared])
  · simp [Session.ptsOf]

theorem State.SessionInv.enqueue {c : Chunk} (inv : s.SessionInv) (running : s.sess.state = .running)
    (validChunk : c.region.valid s.platform = true) (room : s.queue.length < Config.queueDepth) :
    (s.enqueue c).SessionInv := by
  obtain ⟨⟨-, valid, -⟩, config, ⟨stop, input, output⟩, port⟩ := inv
  refine ⟨⟨?_, ?_, fun _ => Session.active_iff.mpr (.inl running)⟩, config, ⟨stop, fun inDone => ?_, output⟩, port⟩
  · simpa using room
  · simpa [or_imp, forall_and] using ⟨valid, validChunk⟩
  · exact absurd (running.symm.trans (input inDone).1) (by decide)

theorem State.SessionInv.requestStop (inv : s.SessionInv) (running : s.sess.state = .running) :
    s.requestStop.SessionInv := by
  obtain ⟨⟨length, valid, -⟩, config, ⟨-, input, output⟩, port⟩ := inv
  refine ⟨⟨length, valid, fun _ => rfl⟩, fun _ _ => ?_, ⟨by simp, fun inDone => ?_, output⟩, fun _ => ?_⟩
  · exact config (by simp [running]) (by simp [running])
  · exact ⟨rfl, (input inDone).2⟩
  · exact port (Session.active_iff.mpr (.inl running))

theorem State.SessionInv.feed {d : Chunk} {rest : List Chunk} (inv : s.SessionInv) (active : s.sess.active = true)
    (inputOpen : s.sess.inDone = false) (head : s.queue = d :: rest) : (s.feed d rest).SessionInv := by
  obtain ⟨⟨length, valid, -⟩, config, ⟨stop, -, output⟩, port⟩ := inv
  obtain ⟨mark, last, ended, -⟩ := port active
  rw [head] at length valid
  refine ⟨⟨?_, ?_, fun _ => active⟩, config, ⟨stop, fun inDone => ?_, output⟩, fun _ => ⟨?_, last, ended, rfl⟩⟩
  · exact Nat.le_of_succ_le length
  · exact fun c mem => valid c (List.mem_cons_of_mem d mem)
  · exact absurd (inputOpen.symm.trans inDone) (by decide)
  · simpa [State.endMarkerAccepted, Session.fed] using mark

theorem State.SessionInv.feedEnd (inv : s.SessionInv) (active : s.sess.active = true) (empty : s.queue = [])
    (stopping : s.sess.stopReq = true) : s.feedEnd.SessionInv := by
  obtain ⟨queue, config, ⟨stop, -, output⟩, port⟩ := inv
  obtain ⟨-, last, -, stamp⟩ := port active
  refine ⟨queue, config, ⟨stop, fun _ => ⟨stop.mp stopping, empty⟩, fun outDone => ⟨rfl, (output outDone).2⟩⟩,
    fun _ => ⟨?_, last, fun _ => rfl, stamp⟩⟩
  simp [State.endMarkerAccepted]

/-- Where only the last buffer in line may be the device's last, the head is it only if it is alone. -/
theorem last_of_cons {b : CodecOutput} {rest : List CodecOutput} (last : ∀ x ∈ (b :: rest).dropLast, x.eos = false) :
    (b.eos = true → rest = []) ∧ ∀ x ∈ rest.dropLast, x.eos = false := by
  cases rest with
  | nil => simp
  | cons y rest =>
    obtain ⟨notEos, later⟩ := List.forall_mem_cons.mp last
    exact ⟨fun eos => absurd (notEos.symm.trans eos) (by decide), later⟩

theorem State.SessionInv.drained {b : CodecOutput} {rest : List CodecOutput} (inv : s.SessionInv)
    (active : s.sess.active = true) (head : s.codecOut = b :: rest) :
    ((({ s with codecOut := rest } : State).emitBuffer b.bytes).markOutDone b.eos).SessionInv := by
  obtain ⟨log, n, code, h⟩ := drained_eq s rest b
  rw [h]
  obtain ⟨queue, config, ⟨stop, input, output⟩, port⟩ := inv
  obtain ⟨mark, last, ended, stamp⟩ := port active
  have outputOpen : s.sess.outDone = false := Bool.eq_false_iff.mpr fun outDone => by
    simpa [head] using (output outDone).2
  rw [head] at last ended
  obtain ⟨alone, later⟩ := last_of_cons last
  refine ⟨queue, config, ⟨stop, input, fun outDone => ?_⟩, fun _ => ⟨mark, later, fun eos => ?_, stamp⟩⟩
  · have eos : b.eos = true := by simpa [outputOpen] using outDone
    exact ⟨ended (by simp [eos]), alone eos⟩
  · exact ended (by simp only [List.any_cons, eos, Bool.or_true])

theorem State.SessionInv.produced {bytes : List Byte} {eos : Bool} (inv : s.SessionInv) (active : s.sess.active = true)
    (notLast : s.lastProduced = false) (marked : eos = true → s.endMarkerAccepted = true) :
    State.SessionInv { s with codecOut := s.codecOut ++ [{ bytes := bytes, eos := eos }] } := by
  obtain ⟨queue, config, ⟨stop, input, output⟩, port⟩ := inv
  obtain ⟨mark, last, ended, stamp⟩ := port active
  obtain ⟨outputOpen, noneLast⟩ := Bool.or_eq_false_iff.mp notLast
  refine ⟨queue, config, ⟨stop, input, fun outDone => ?_⟩, fun _ => ⟨mark, ?_, fun someLast => ?_, stamp⟩⟩
  · exact absurd (outputOpen.symm.trans outDone) (by decide)
  · simpa using noneLast
  · rw [← mark]
    exact marked (by simpa [noneLast] using someLast)

end

theorem SessionEffect.sessionInv {s t : State} (h : SessionEffect s t) (inv : s.SessionInv) : t.SessionInv := by
  cases h with
  | kept sess queue codecIn codecOut platform => exact inv.congr sess queue codecIn codecOut platform
  | prepared req o c closed accepted =>
    have asked : (s.askedConfigure req).SessionInv := inv
    exact asked.latchConfig closed accepted
  | autostarted req o c closed accepted =>
    have asked : (s.askedConfigure req).SessionInv := inv
    exact (asked.latchConfig closed accepted).startBody rfl
  | started prepared => exact inv.startBody prepared
  | submitted c r0 running valid room => exact inv.enqueue running valid room
  | stopped running => exact inv.requestStop running
  | fed d rest active inputOpen head => exact inv.feed active inputOpen head
  | fedEnd active empty stopping => exact inv.feedEnd active empty stopping
  | drained b rest active head => exact inv.drained active head
  | released draining inDone =>
    obtain ⟨-, -, ⟨-, input, -⟩, -⟩ := inv
    have empty : s.queue = [] := (input inDone).2
    exact (sessionInv_iff_of_inactive rfl).mpr ⟨nofun, empty, rfl, rfl, rfl⟩
  | produced bytes eos active notLast marked => exact inv.produced active notLast marked

theorem resetStep_sessionInv (s : State) : (resetStep s).SessionInv :=
  (sessionInv_iff_of_inactive rfl).mpr ⟨nofun, rfl, rfl, rfl, rfl⟩

/-- Settles O58: every effect on the session unit keeps the invariant under the condition in which it happens. -/
theorem stepKeepsSessionInvariant : Obligations.StepKeepsSessionInvariant := by
  intro s t inv h
  obtain ⟨same, -⟩ := started_frame s
  rcases runEvent_session h with effect | ⟨-, rfl⟩
  · exact effect.sessionInv (same.effect.sessionInv inv)
  · exact resetStep_sessionInv _

end Sys2Proof.Machine
end

section
/-! PROOFS. The session commands (spec/44_session_queue.md section 1): what each of them does in each session state. -/

namespace Sys2Proof.Machine

/-! ### SPREPARE (R160) -/

/-- CHCFG_OF (spec/30_encoding.md R87) in plain numbers. -/
theorem chcfgOf_eq_some_iff {ch : Word} {c : BitVec 3} :
    chcfgOf ch = some c ↔
      (1 ≤ ch.toNat ∧ ch.toNat ≤ 6 ∧ c.toNat = ch.toNat) ∨ (ch.toNat = 8 ∧ c = 7) := by
  unfold chcfgOf
  split
  · next low =>
    rw [Option.some_inj, ← BitVec.toNat_inj, BitVec.toNat_ofNat]
    omega
  · next notLow =>
    split
    · next eight => simp [eight, eq_comm]
    · next notEight => simp only [reduceCtorEq, false_iff]; omega

theorem exec_sprepare_of_closed {s : State} (closed : s.sess.state = .idle ∨ s.sess.state = .released) :
    exec .sprepare s = .next (s.prepare s.op) := by
  rcases closed with state | state <;> rw [exec, execSprepare, state]

theorem prepare_of_valid (s : State) {o : OperandRegs} {c : BitVec 3} (valid : ConfigValid o c) :
    s.prepare o =
      if s.configureAnswer (configRequest o) then
        (if modeAutostart o.scfgMode then ((s.askedConfigure (configRequest o)).latchConfig o c).startBody
          else (s.askedConfigure (configRequest o)).latchConfig o c).complete .ok 0 0
      else (s.askedConfigure (configRequest o)).configFailed := by
  obtain ⟨rate, profile, channels⟩ := valid
  have good : ¬ (o.scfgRate = 0 ∨ modeProfile o.scfgMode = 3) := not_or.mpr ⟨rate, profile⟩
  simp only [State.prepare, chcfgOf_eq_some_iff.mpr channels, if_neg good]

theorem prepare_of_invalid (s : State) {o : OperandRegs} (invalid : ConfigInvalid o) :
    s.prepare o = s.configFailed := by
  unfold State.prepare
  split
  · rfl
  · next c found =>
    have channels := chcfgOf_eq_some_iff.mp found
    have bad : o.scfgRate = 0 ∨ modeProfile o.scfgMode = 3 := by
      rcases invalid with rate | profile | count
      · exact .inl rate
      · exact .inr profile
      · omega
    exact if_pos bad

/-- Settles O41, from what SPREPARE does with a valid configuration, by the device's answer and AUTOSTART. -/
theorem sprepareLatchesConfiguration : Obligations.SprepareLatchesConfiguration := by
  intro s c closed valid o req asked latched
  rw [exec_sprepare_of_closed closed, prepare_of_valid s valid]
  refine ⟨fun accepted plain => ?_, fun accepted autostart => ?_, fun refused => ?_⟩
  · have accepted : s.configureAnswer (configRequest s.op) = true := accepted
    have plain : modeAutostart s.op.scfgMode = false := plain
    rw [if_pos accepted, plain]
    rfl
  · have accepted : s.configureAnswer (configRequest s.op) = true := accepted
    have autostart : modeAutostart s.op.scfgMode = true := autostart
    rw [if_pos accepted, if_pos autostart, List.append_cons s.codecCalls]
    rfl
  · have refused : s.configureAnswer (configRequest s.op) = false := refused
    rw [refused]
    rfl

/-- A command that ends in `State.fail` reports the error and changes nothing else. -/
theorem fails_of_exec {i : Instr} {s : State} {code : ErrCode} (ran : exec i s = .next (s.fail code)) :
    Fails i s code :=
  ⟨s.fail code, ran, rfl⟩

/-- Settles O42, from what SPREPARE does with an invalid configuration, and by its arms for the other states. -/
theorem sprepareRefusals : Obligations.SprepareRefusals := by
  intro s
  refine ⟨fun closed invalid => ?_, fun opened => fails_of_exec ?_⟩
  · rw [exec_sprepare_of_closed closed, prepare_of_invalid s invalid]
    rfl
  · rcases opened with state | state | state <;> rw [exec, execSprepare, state]

/-! ### SSTART and SSTOP (R161, R163) -/

/-- Settles O43, by the session state. -/
theorem sstartFollowsState : Obligations.SstartFollowsState := by
  intro s
  refine ⟨fun state => ?_, fun active => ?_, fun closed => fails_of_exec ?_⟩
  · rw [exec, execSstart, state]
    rfl
  · rcases active with state | state <;> rw [exec, execSstart, state] <;> rfl
  · rcases closed with state | state <;> rw [exec, execSstart, state]

/-- Settles O45, by the session state. -/
theorem sstopFollowsState : Obligations.SstopFollowsState := by
  intro s
  refine ⟨fun state => ?_, fun state => ?_, fun inactive => fails_of_exec ?_⟩
  · rw [exec, execSstop, state]
    rfl
  · rw [exec, execSstop, state]
    rfl
  · rcases inactive with state | state | state <;> rw [exec, execSstop, state]

/-! ### SSUBMIT (R162) -/

theorem exec_ssubmit_of_running {s : State} (running : s.sess.state = .running) :
    exec .ssubmit s = .next (s.submit ⟨s.op.srcAddr, s.op.srcLen⟩) := by
  rw [exec, execSsubmit, running]

section
variable {s : State} {c : Chunk}

theorem submit_of_bad_shape (shape : s.sess.chunkShape c.len.toNat = false) : s.submit c = s.fail .shape := by
  rw [State.submit, shape]
  rfl

theorem submit_of_invalid (shape : s.sess.chunkShape c.len.toNat = true)
    (invalid : c.region.valid s.platform = false) : s.submit c = s.fail .range := by
  rw [State.submit, shape, invalid]
  rfl

theorem submit_of_valid (shape : s.sess.chunkShape c.len.toNat = true)
    (valid : c.region.valid s.platform = true) :
    s.submit c =
      if s.queue.length ≥ 16 then s.fail .queueFull
      else (s.enqueue c).complete .ok (BitVec.ofNat 32 (s.queue.length + 1)) 0 := by
  rw [State.submit, shape, valid]
  rfl

end

/-- Settles O44: the states first, then in Running the checks of `State.submit` in their order. -/
theorem ssubmitAppendsOrFails : Obligations.SsubmitAppendsOrFails := by
  intro s fails whole
  have running_fails {code : ErrCode} (running : s.sess.state = .running)
      (submitted : s.submit ⟨s.op.srcAddr, s.op.srcLen⟩ = s.fail code) : fails code :=
    fails_of_exec ((exec_ssubmit_of_running running).trans (congrArg _ submitted))
  refine ⟨fun state => fails_of_exec ?_, fun other => fails_of_exec ?_, fun running split => ?_,
    fun running shape invalid => ?_, fun running shape valid full => ?_, fun running shape valid room => ?_⟩
  · rw [exec, execSsubmit, state]
  · rcases other with state | state | state <;> rw [exec, execSsubmit, state]
  · exact running_fails running (submit_of_bad_shape (decide_eq_false split))
  · exact running_fails running (submit_of_invalid (decide_eq_true shape) invalid)
  · have answer := submit_of_valid (c := ⟨s.op.srcAddr, s.op.srcLen⟩) (decide_eq_true shape) valid
    exact running_fails running (answer.trans (if_pos full.ge))
  · have answer := submit_of_valid (c := ⟨s.op.srcAddr, s.op.srcLen⟩) (decide_eq_true shape) valid
    rw [exec_ssubmit_of_running running, answer, if_neg (Nat.not_le.mpr room)]
    rfl

end Sys2Proof.Machine
end

section
/-! PROOFS. The engines of the session unit and the codec device (spec/44_session_queue.md sections 2 to 5): each
agent's step where it is enabled, and that it changes nothing elsewhere. -/

namespace Sys2Proof.Machine

section
variable {s : State}

/-! ### The feeder (R170 to R174) -/

theorem feederStep_of_head {d : Chunk} {rest : List Chunk} (active : s.sess.active = true)
    (inputOpen : s.sess.inDone = false) (head : s.queue = d :: rest) : feederStep true s = s.feed d rest := by
  rw [feederStep, active, inputOpen, head]
  rfl

theorem feederStep_of_stop (active : s.sess.active = true) (inputOpen : s.sess.inDone = false) (empty : s.queue = [])
    (stopping : s.sess.stopReq = true) : feederStep true s = s.feedEnd := by
  rw [feederStep, active, inputOpen, empty, stopping]
  rfl

/-! ### The drainer (R175) -/

/-- The drainer takes the oldest buffer: what its bytes emit leaves `u`, then its end-of-stream flag is marked. -/
theorem runEvent_drainer_of_head {b : CodecOutput} {rest : List CodecOutput} {u : State}
    (active : s.sess.active = true) (outputOpen : s.sess.outDone = false) (head : s.codecOut = b :: rest)
    (emitted : ({ s with codecOut := rest } : State).emitBuffer b.bytes = u) :
    runEvent .drainer s = .next { u with sess := { u.sess with outDone := u.sess.outDone || b.eos } } := by
  have drains : drainerStep s = u.markOutDone b.eos := by
    rw [drainerStep, active, outputOpen, head, ← emitted]
    rfl
  rw [runEvent, drains, markOutDone_eq, Bool.or_comm]

theorem emitBuffer_of_empty {payload : List Byte} (empty : payload.length = 0) : s.emitBuffer payload = s :=
  if_pos empty

theorem emitBuffer_of_frame {payload : List Byte} (nonempty : 1 ≤ payload.length) (fits : payload.length ≤ 8184)
    (encoding : s.sess.dir = .encode) : s.emitBuffer payload = s.emitData (s.sess.frame payload) := by
  rw [State.emitBuffer, if_neg (Nat.ne_of_gt nonempty), encoding]
  exact if_neg (by simp only [adtsHeaderBytes, maxFrameLength]; omega)

theorem emitBuffer_of_long {payload : List Byte} (long : 8184 < payload.length) (encoding : s.sess.dir = .encode) :
    s.emitBuffer payload = ({ s with serr := .frameTooLong } : State).emit (.error .frameTooLong) := by
  rw [State.emitBuffer, if_neg (by omega), encoding]
  exact if_pos (by simp only [adtsHeaderBytes, maxFrameLength]; omega)

theorem emitBuffer_of_raw {payload : List Byte} (nonempty : 1 ≤ payload.length) (decoding : s.sess.dir = .decode) :
    s.emitBuffer payload = s.emitData payload := by
  rw [State.emitBuffer, if_neg (Nat.ne_of_gt nonempty), decoding]

/-! ### The release logic (R177) -/

theorem releaseStep_of_ready
    (ready : s.sess.state = .draining ∧ s.sess.inDone = true ∧ s.sess.outDone = true ∧ s.sess.released = false) :
    releaseStep s =
      { s with sess := .cleared, codecCalls := s.codecCalls ++ [.release], outLog := s.outLog ++ [.sessionEnd] } :=
  if_pos ready

theorem releaseStep_of_not_ready
    (waits : ¬ (s.sess.state = .draining ∧ s.sess.inDone = true ∧ s.sess.outDone = true ∧ s.sess.released = false)) :
    releaseStep s = s :=
  if_neg waits

/-! ### The codec device (R178) -/

/-- The device's contract (R178 (e)) as the model's step tests it. -/
theorem codecProduce_enabled_iff {eos : Bool} :
    (s.sess.active && !s.lastProduced && (!eos || s.endMarkerAccepted)) = true ↔
      (s.sess.state = .running ∨ s.sess.state = .draining) ∧
        ¬ (s.sess.outDone = true ∨ ∃ b ∈ s.codecOut, b.eos = true) ∧
        (eos = true → ∃ x ∈ s.codecIn, x.eos = true) := by
  simp only [Bool.and_eq_true, Bool.not_eq_true', Session.active_iff, ← Bool.not_eq_true, State.lastProduced,
    State.endMarkerAccepted, Bool.or_eq_true, List.any_eq_true, and_assoc, imp_iff_not_or]

end

/-- Settles O46, by the branches of the feeder: a chunk, the end marker, or nothing to do. -/
theorem feederFeedsInOrder : Obligations.FeederFeedsInOrder := by
  intro s accepts ready
  refine ⟨?_, ?_, fun waits => ?_⟩
  · rintro d rest ⟨active, inputOpen, rfl⟩ head
    exact congrArg _ (feederStep_of_head (Session.active_iff.mpr active) inputOpen head)
  · rintro ⟨active, inputOpen, rfl⟩ empty stopping
    exact congrArg _ (feederStep_of_stop (Session.active_iff.mpr active) inputOpen empty stopping)
  · rcases feederStep_cases accepts s with h | ⟨active, inputOpen, accepted, feeds⟩
    · exact congrArg _ h
    · have isReady : ready := ⟨Session.active_iff.mp active, inputOpen, accepted⟩
      obtain ⟨empty, noStop⟩ := waits.resolve_left (not_not.mpr isReady)
      rcases feeds with ⟨d, rest, head, -⟩ | ⟨-, stopping, -⟩
      · exact absurd (empty.symm.trans head) (by simp)
      · exact absurd (noStop.symm.trans stopping) (by simp)

/-- Settles O47, by what goes out for a buffer's bytes. -/
theorem drainerEmitsBuffers : Obligations.DrainerEmitsBuffers := by
  intro s b rest n after counted
  refine ⟨fun active outputOpen head => ?_, fun waits => ?_⟩
  · have drains {u : State} := runEvent_drainer_of_head (u := u) (Session.active_iff.mpr active) outputOpen head
    refine ⟨fun empty => ?_, fun nonempty fits encoding => ?_, fun long encoding => ?_, fun nonempty decoding => ?_⟩
    · exact drains (emitBuffer_of_empty empty)
    · exact drains (emitBuffer_of_frame nonempty fits encoding)
    · exact drains (emitBuffer_of_long long encoding)
    · exact drains (emitBuffer_of_raw nonempty decoding)
  · rcases drainerStep_cases s with h | ⟨b, rest, head, active, outputOpen, -⟩
    · exact congrArg _ h
    · simp [active, outputOpen, head] at waits

/-- Settles O48: the release test is the statement's own, and a released session fails it. -/
theorem releaseFiresOnce : Obligations.ReleaseFiresOnce := by
  intro s ready
  refine ⟨fun fires => ⟨_, congrArg Host.Outcome.next (releaseStep_of_ready fires), rfl, ?_, ?_⟩, fun waits => ?_⟩
  · exact (show Session.cleared.statusWord = 4 by decide)
  · exact congrArg _ (releaseStep_of_not_ready fun ⟨draining, _⟩ => by cases draining)
  · exact congrArg _ (releaseStep_of_not_ready waits)

/-- Settles O49: the device's step tests exactly the contract. -/
theorem codecDeviceKeepsContract : Obligations.CodecDeviceKeepsContract := by
  intro s bytes eos active ended marked
  refine ⟨fun isActive notEnded afterMark => ?_, fun breach => ?_, fun ok => rfl⟩
  · exact congrArg _ (if_pos (codecProduce_enabled_iff.mpr ⟨isActive, notEnded, afterMark⟩))
  · refine congrArg _ (if_neg fun enabled => ?_)
    obtain ⟨isActive, notEnded, afterMark⟩ := codecProduce_enabled_iff.mp enabled
    rcases breach with inactive | isEnded | ⟨isLast, noMark⟩
    · exact inactive isActive
    · exact notEnded isEnded
    · exact noMark (afterMark isLast)

end Sys2Proof.Machine
end

section
/-! PROOFS. Exceptions (spec/60_exceptions.md): what a command that raises an error leaves, and that no command and no
agent but a host stops the machine. -/

namespace Sys2Proof.Machine

/-! ### A command that raises an error (R188, R189) -/

/-- A code other than OK comes from the shared failure, or from the CONFIG_FAIL of SPREPARE, which alone also writes SERR
and the output port. -/
theorem CommandEffect.raised {i : Instr} {s t : State} (h : CommandEffect s i t) (raised : t.errCode ≠ .ok) :
    (∃ code, t = s.fail code) ∨
      (i = .sprepare ∧ ∃ asked, t = asked.configFailed ∧ (asked = s ∨ ∃ req, asked = s.askedConfigure req)) := by
  cases h with
  | failed i code => exact .inl ⟨code, rfl⟩
  | configInvalid => exact .inr ⟨rfl, s, rfl, .inl rfl⟩
  | configRefused req => exact .inr ⟨rfl, _, rfl, .inr ⟨req, rfl⟩⟩
  | _ => exact absurd rfl raised

/-- Settles O8: neither failure touches memory, session, queue or codec ports, and asking the device leaves them too. -/
theorem failedCommandLeavesNothing : Obligations.FailedCommandLeavesNothing := by
  intro i s t h raised
  rcases (exec_effect h).raised raised with ⟨code, rfl⟩ | ⟨rfl, asked, rfl, rfl | ⟨req, rfl⟩⟩
  · exact ⟨rfl, rfl, rfl, rfl, rfl, rfl, rfl, rfl, rfl, rfl, .inl ⟨rfl, rfl⟩⟩
  all_goals exact ⟨rfl, rfl, rfl, rfl, rfl, rfl, rfl, rfl, rfl, rfl, .inr ⟨rfl, rfl, rfl, rfl⟩⟩

/-! ### What stops the machine (R191, R193) -/

theorem deliver_next (s : State) (x : Except ErrCode Output) : ∃ t, s.deliver x = .next t := by
  cases x <;> exact ⟨_, rfl⟩

theorem answer_next (s : State) (x : Except ErrCode (Word × Word)) : ∃ t, s.answer x = .next t := by
  cases x <;> exact ⟨_, rfl⟩

/-- Every command answers a next state. -/
theorem exec_next (i : Instr) (s : State) : ∃ t, exec i s = .next t := by
  cases i with
  | resample | extl | extr | red2 | m2s | mixext | mixadd | mixavg | mixwgt | adtsenc => exact deliver_next s _
  | adtsparse => exact answer_next s (adtsparsePlan s.platform s.mem s.op)
  | sfilookup => exact answer_next s (sfilookupPlan s.op)
  | sprepare | sstart | ssubmit | sstop =>
    simp only [exec, execSprepare, execSstart, execSsubmit, execSstop]
    split <;> exact ⟨_, rfl⟩

theorem cuStep_next (s : State) : ∃ t, cuStep s = .next t := by
  cases latched : s.pending with
  | none => exact ⟨s, cuStep_of_idle latched⟩
  | some p =>
    cases decoded : decode p.word with
    | error e => exact ⟨_, cuStep_of_illegal latched decoded⟩
    | ok i => rw [cuStep_of_decoded latched decoded]; exact exec_next i s

/-- A host's access to a register or to bus memory. -/
abbrev IsHostAccess (e : Event) : Prop :=
  (∃ addr width asResult, e = .hostReadReg addr width asResult) ∨
    (∃ addr width data, e = .hostWriteReg addr width data) ∨
    (∃ addr len, e = .hostReadMem addr len) ∨ ∃ addr bytes, e = .hostWriteMem addr bytes

theorem isHostAccess_of_fault {e : Event} {s : State} {f : Fault} (fault : runEvent e s = .fault f) :
    IsHostAccess e := by
  cases e with
  | hostReadReg addr width asResult => exact .inl ⟨addr, width, asResult, rfl⟩
  | hostWriteReg addr width data => exact .inr (.inl ⟨addr, width, data, rfl⟩)
  | hostReadMem addr len => exact .inr (.inr (.inl ⟨addr, len, rfl⟩))
  | hostWriteMem addr bytes => exact .inr (.inr (.inr ⟨addr, bytes, rfl⟩))
  | cu =>
    obtain ⟨t, next⟩ := cuStep_next s
    cases next.symm.trans fault
  | _ => cases fault

/-- Settles O56: every command answers, its completion empties the latch, and a step faults only as its event does. -/
theorem onlyHostsFault : Obligations.OnlyHostsFault := by
  refine ⟨fun i s => ?_, fun s f fault => isHostAccess_of_fault fault⟩
  obtain ⟨t, h⟩ := exec_next i s
  exact ⟨t, h, (exec_effect h).pending⟩

end Sys2Proof.Machine
end

section
/-! PROOFS. Reset and host hazards (spec/70_reset_and_hazards.md): what the reset input leaves, and which accesses of a
host a pending command and the chunks lent to the block make a fault. -/

namespace Sys2Proof.Machine

/-! ### Reset (R210, R211) -/

theorem readReg_reset {r : Reg} (other : r ≠ .ctrl) : State.reset.readReg r = 0 := by
  cases r with
  | ctrl => exact absurd rfl other
  | _ => decide

/-- No register is a view of memory, the platform or the schedule, which the reset input leaves as they are. -/
theorem readReg_resetStep (s : State) (r : Reg) : (resetStep s).readReg r = State.reset.readReg r := by
  cases r <;> rfl

/-- Settles O9: the registers one by one, and the rest as `State.resetOn` lists it. -/
theorem resetLeavesTheSpecsValues : Obligations.ResetLeavesTheSpecsValues :=
  ⟨rfl, fun _ => readReg_reset, rfl, rfl, rfl, rfl, rfl, rfl, rfl⟩

/-- Settles O10: `resetStep` writes every field but memory, the platform and the schedule. -/
theorem resetInputClearsTheBlock : Obligations.ResetInputClearsTheBlock := fun s =>
  ⟨resetStep s, rfl, rfl, rfl, rfl, fun r other => (readReg_resetStep s r).trans (readReg_reset other), rfl, rfl, rfl,
    rfl, rfl, rfl, rfl, rfl, rfl, List.not_mem_nil⟩

/-- Settles O59: nothing is listed in memory or emitted, and the session unit is as the reset input leaves it. -/
theorem resetMeetsInvariants : Obligations.ResetMeetsInvariants :=
  ⟨⟨Memory.wf_reset, nofun⟩, resetStep_sessionInv State.reset, Nat.zero_le _⟩

/-! ### The faults of a host's memory access -/

section
variable {s : State} {addr : Word} {r : Region}

theorem hostWriteMem_of_pending {bytes : List Byte}
    (valid : Region.valid ⟨addr.toNat, bytes.length⟩ s.platform = true)
    (pending : r ∈ s.pendingReads ++ s.pendingDest) (meets : Region.overlaps ⟨addr.toNat, bytes.length⟩ r = true) :
    hostWriteMem addr bytes s = .fault .touchesPending := by
  simp only [hostWriteMem, valid, List.any_eq_true.mpr ⟨r, pending, meets⟩, Bool.not_true, Bool.false_eq_true, if_false,
    if_true]

theorem hostWriteMem_of_lent {bytes : List Byte}
    (valid : Region.valid ⟨addr.toNat, bytes.length⟩ s.platform = true)
    (free : ∀ q ∈ s.pendingReads ++ s.pendingDest, Region.overlaps ⟨addr.toNat, bytes.length⟩ q = false)
    (lent : r ∈ s.lentRegions) (meets : Region.overlaps ⟨addr.toNat, bytes.length⟩ r = true) :
    hostWriteMem addr bytes s = .fault .touchesQueuedChunk := by
  simp only [hostWriteMem, valid, any_overlaps_eq_false.mpr free, List.any_eq_true.mpr ⟨r, lent, meets⟩, Bool.not_true,
    Bool.false_eq_true, if_false, if_true]

theorem hostReadMem_of_pending {len : Word} (valid : Region.valid ⟨addr.toNat, len.toNat⟩ s.platform = true)
    (pending : r ∈ s.pendingDest) (meets : Region.overlaps ⟨addr.toNat, len.toNat⟩ r = true) :
    hostReadMem addr len s = .fault .touchesPending := by
  simp only [hostReadMem, valid, List.any_eq_true.mpr ⟨r, pending, meets⟩, Bool.not_true, Bool.false_eq_true, if_false,
    if_true]

end

/-! ### The regions of a pending command (R220) -/

section
variable {s : State} {p : Pending} {i : Instr} (latched : s.pending = some p) (decoded : decode p.word = .ok i)
include latched decoded

theorem pendingReads_of_decoded : s.pendingReads = readRegions i s.platform s.mem p.op :=
  pendingRegions_of latched decoded readRegions

theorem mem_pendingDest_iff {r : Region} :
    r ∈ s.pendingDest ↔ ∃ ob, s.NamesOutput i ob ∧ r = ⟨p.op.dstAddr.toNat, ob⟩ := by
  rw [State.pendingDest, pendingRegions_of latched decoded, ← op_of_pending latched, mem_destRegions]

end

/-- A mixer command of 1 to 256 tracks reads its table and, where the table is valid, its tracks. -/
theorem mixReads_of_rows {s : State} (low : 1 ≤ s.rows) (high : s.rows ≤ 256) :
    mixReads s.platform s.mem s.op =
      tableRegion s.op ::
        (if (tableRegion s.op).valid s.platform then
          (trackTable s.mem s.op.srcAddr.toNat s.rows).map (·.region) else []) := by
  have count : ¬ (s.rows = 0 ∨ s.rows > Config.maxTracks) := by
    rw [Config.maxTracks]
    omega
  exact if_neg count

theorem tableRegion_mem_mixReads {s : State} (low : 1 ≤ s.rows) (high : s.rows ≤ 256) :
    tableRegion s.op ∈ mixReads s.platform s.mem s.op := by
  rw [mixReads_of_rows low high]
  exact List.mem_cons_self

theorem track_mem_mixReads {s : State} (low : 1 ≤ s.rows) (high : s.rows ≤ 256)
    (table : (tableRegion s.op).valid s.platform = true) {r : Nat} (index : r < s.rows) :
    (s.track r).region ∈ mixReads s.platform s.mem s.op := by
  rw [mixReads_of_rows low high, if_pos table, trackTable, List.map_map]
  exact List.mem_cons_of_mem _ (List.mem_map.mpr ⟨r, List.mem_range.mpr index, rfl⟩)

/-- Settles O15: the regions in the statement are those of `readRegions` and `destRegions`, and an access faults where it
meets one of them. -/
theorem pendingRegionsFaultHostAccess : Obligations.PendingRegionsFaultHostAccess := by
  intro s p i addr bytes latched decoded valid access writeFaults reads
  have op := op_of_pending latched
  have readFaults {r : Region} (read : r ∈ readRegions i s.platform s.mem p.op) (meets : access.overlaps r = true) :
      writeFaults := by
    rw [← pendingReads_of_decoded latched decoded] at read
    exact hostWriteMem_of_pending valid (List.mem_append_left _ read) meets
  refine ⟨fun ⟨bd, sourced⟩ => ?_, fun mixer low high => ?_, fun parse => ?_, fun ob names meets => ?_,
    fun free len hlen => ?_⟩
  · rcases sourced with rfl | rfl | rfl | rfl | rfl <;> exact readFaults List.mem_cons_self
  · have regions : readRegions i s.platform s.mem p.op = mixReads s.platform s.mem s.op := by
      rw [op]
      rcases mixer with rfl | rfl | rfl | rfl <;> rfl
    rw [regions] at readFaults
    rw [← op]
    exact ⟨readFaults (tableRegion_mem_mixReads low high), fun table r index =>
      readFaults (track_mem_mixReads low high table index)⟩
  · subst parse
    exact readFaults List.mem_cons_self
  · have named := (mem_pendingDest_iff latched decoded).mpr ⟨ob, names, rfl⟩
    refine ⟨hostWriteMem_of_pending valid (List.mem_append_right _ named) meets, fun len hlen => ?_⟩
    simp only [access, ← hlen] at valid meets
    exact hostReadMem_of_pending valid named meets
  · have unmet : ∀ r ∈ s.pendingDest, access.overlaps r = false := fun r named => by
      obtain ⟨ob, names, rfl⟩ := (mem_pendingDest_iff latched decoded).mp named
      exact free ob names
    simp only [access, ← hlen] at valid unmet ⊢
    exact hostReadMem_of_free valid unmet

/-! ### The chunks lent to the block (R223) -/

theorem region_mem_lentRegions {s : State} {c : Chunk} (lent : c ∈ s.queue ∨ ∃ k, FedChunk.mk c k ∈ s.fedUnseen) :
    c.region ∈ s.lentRegions := by
  rcases lent with queued | ⟨k, fed⟩
  · exact List.mem_append_left _ (List.mem_map_of_mem queued)
  · exact List.mem_append_right _ (List.mem_map.mpr ⟨_, fed, rfl⟩)

/-- The script's `rd` reaches its register. -/
theorem runEvent_rd (s : State) (r : Reg) : runEvent (rd s.platform r) s = .next (s.afterRead r.offset) := by
  have ⟨aligned, below⟩ : r.offset % 4 = 0 ∧ r.offset < 0x100 := by cases r <;> decide
  obtain ⟨-, answers, -⟩ :=
    (registerWindowAccess s r.offset 0 false (below.trans (by decide))).1 aligned below
  exact answers nofun

/-- Settles O16: a lent chunk's region is one of those the write is checked against after the pending command's, and
`afterRead` filters the fed chunks by the count. -/
theorem queuedChunksFaultHostWrites : Obligations.QueuedChunksFaultHostWrites := by
  constructor
  · intro s c addr bytes access answer lent valid meets
    have freeFaults (free : ∀ r ∈ s.pendingReads ++ s.pendingDest, access.overlaps r = false) :
        answer = .fault .touchesQueuedChunk :=
      hostWriteMem_of_lent valid free (region_mem_lentRegions lent) meets
    refine ⟨?_, freeFaults⟩
    by_cases free : ∀ r ∈ s.pendingReads ++ s.pendingDest, access.overlaps r = false
    · exact .inl (freeFaults free)
    · push Not at free
      obtain ⟨r, pending, touched⟩ := free
      exact .inr (hostWriteMem_of_pending valid pending (Bool.eq_true_of_not_eq_false touched))
  · intro s
    refine ⟨_, runEvent_rd s .fedCount, rfl, fun f => ?_⟩
    exact List.mem_filter.trans (and_congr_right fun _ => decide_eq_true_iff)

end Sys2Proof.Machine
end
